-- ==== Sys2Proof/Word.lean ====
section
/-! DEFINITION. The word types of the framer: bytes on the wire, 16-bit coordinates and colours, 32-bit pixel
counts (00_scope.md R6, R7). All quantities are unsigned. -/

namespace Sys2Proof

/-- A byte: a wire opcode, a parameter or half a pixel (00_scope.md R7). -/
abbrev Byte := BitVec 8

/-- An unsigned 16-bit value: a coordinate, a size or a colour (00_scope.md R6 `COORD_BITS`, `COLOR_BITS`). -/
abbrev U16 := BitVec 16

/-- An unsigned 32-bit value: a pixel count (00_scope.md R6 `COUNT_BITS`). -/
abbrev U32 := BitVec 32

end Sys2Proof
end

