-- ==== Sys2Proof/Config.lean ====
section
/-! DEFINITION. What an implementation fixes: the parameters of 00_scope.md R6 that are OPEN or may be rebound, and
the values of the OPEN ones at reset as constants with no body. -/

namespace Sys2Proof

/-- What a clipped image blit does (00_scope.md R6 `BLIT_CLIP_MODE`, 45_raster.md R195). -/
inductive BlitClipMode where
  | strideCrop
  | referenceContiguous
  | reject
  deriving DecidableEq, Repr

/-- What the observed panel does with a pixel past the window's end (00_scope.md R6 `PANEL_WRAP`, 46_panel_observer.md R213). -/
inductive PanelWrap where
  | unspecified
  | wrapToWindowStart
  deriving DecidableEq, Repr

/-- The parameters of 00_scope.md R6 that the document does not fix. Durations are in microseconds (log 12). -/
structure Config where
  /-- `IFMODE_PARAMS`, OPEN: any number of bytes. -/
  ifmodeParams : List Byte
  /-- `GAMMA_POS`, OPEN: exactly 15 bytes. -/
  gammaPos : Vector Byte 15
  /-- `GAMMA_NEG`, OPEN: exactly 15 bytes. -/
  gammaNeg : Vector Byte 15
  /-- `T_RST_PRE`, OPEN. -/
  tRstPre : Nat
  /-- `T_RST_LOW`, OPEN. -/
  tRstLow : Nat
  /-- `T_RST_POST`, OPEN. -/
  tRstPost : Nat
  /-- `T_SLPOUT`, OPEN. -/
  tSlpout : Nat
  /-- `T_DISPON`, OPEN. -/
  tDispon : Nat
  /-- `BUS_TIMEOUT`: `none`, or how many failed re-tests of a bus wait raise the timeout. -/
  busTimeout : Option Nat
  /-- `BLIT_CLIP_MODE`. -/
  blitClipMode : BlitClipMode
  /-- `PANEL_WRAP`. -/
  panelWrap : PanelWrap
  deriving DecidableEq, Repr

/-- The normative lower bounds of 00_scope.md R6: a hold before the reset pulse, "tens of microseconds" low, "hundreds
of microseconds" after release (log 12 on the numbers), and at least 100 ms twice. -/
abbrev Config.WithinBounds (c : Config) : Prop :=
  0 < c.tRstPre ∧ 10 ≤ c.tRstLow ∧ 100 ≤ c.tRstPost ∧ 100000 ≤ c.tSlpout ∧ 100000 ≤ c.tDispon

/-- The OPEN `IFMODE_PARAMS`: nothing is known of it (log 11). -/
opaque Config.openIfmodeParams : List Byte

/-- The OPEN `GAMMA_POS` (log 11). -/
opaque Config.openGammaPos : Vector Byte 15

/-- The OPEN `GAMMA_NEG` (log 11). -/
opaque Config.openGammaNeg : Vector Byte 15

/-- How far each OPEN delay exceeds its lower bound, in the order of `Config`'s fields (log 11). -/
opaque Config.openDelaySlack : Nat → Nat

/-- The binding the block comes up with: OPEN parameters unknown within their bounds, decided ones at the defaults of
00_scope.md R6. -/
def Config.default : Config where
  ifmodeParams := Config.openIfmodeParams
  gammaPos := Config.openGammaPos
  gammaNeg := Config.openGammaNeg
  tRstPre := 1 + Config.openDelaySlack 0
  tRstLow := 10 + Config.openDelaySlack 1
  tRstPost := 100 + Config.openDelaySlack 2
  tSlpout := 100000 + Config.openDelaySlack 3
  tDispon := 100000 + Config.openDelaySlack 4
  busTimeout := none
  blitClipMode := .strideCrop
  panelWrap := .unspecified

/-- A source pixel that does not exist: a free value by index, which no run of an accepted request reads (log 24). -/
opaque Config.absentPixel : Nat → U16

-- What the elements of a poisoned observer hold that have no value of their own for "unspecified"
-- (46_panel_observer.md R216): free values, by the number of the poisoning (log 21).

/-- `P_CMD` of a poisoned observer. -/
opaque Config.poisonCmd : Nat → Option Byte

/-- `P_NPAR` of a poisoned observer. -/
opaque Config.poisonNpar : Nat → Nat

/-- `P_SLEEP_OUT` of a poisoned observer. -/
opaque Config.poisonSleepOut : Nat → Bool

/-- `P_DISPLAY_ON` of a poisoned observer. -/
opaque Config.poisonDisplayOn : Nat → Bool

/-- `P_HALF` of a poisoned observer. -/
opaque Config.poisonHalf : Nat → Option Byte

/-- `P_SETTLE` of a poisoned observer, in microseconds. -/
opaque Config.poisonSettle : Nat → Nat

/-- `P_SEL` of a poisoned observer. -/
opaque Config.poisonSel : Nat → Bool

end Sys2Proof
end

