-- ==== Sys2Proof/Syntax.lean ====
section
/-! DEFINITION. The instructions of the framer: one constructor per row of opcode_table.json, in its three layers
(30_encoding.md R90), and the encoded forms an instruction is presented in. -/

namespace Sys2Proof

/-- The duration operand of `DELAY` (60_exceptions.md R239): a parameter of 00_scope.md R6 by name, or a numeral of
microseconds (30_encoding.md R103). -/
inductive DelayTime where
  | rstPre
  | rstLow
  | rstPost
  | slpout
  | dispon
  | micros (t : U32)
  deriving DecidableEq, Repr

/-- The instructions: wire commands (30_encoding.md R95) with their parameter bytes as operands, host operations
(R99, R100) and micro-operations (R101). -/
inductive Instr where
  -- wire commands
  | ifmode (params : List Byte)
  | slpout
  | pixfmt (p0 : Byte)
  | madctl (p0 : Byte)
  | pwctr3 (p0 : Byte)
  | vmctr (p0 p1 p2 p3 : Byte)
  | pgamma (params : List Byte)
  | ngamma (params : List Byte)
  | dispon
  | caset (first last : U16)
  | paset (first last : U16)
  | ramwr
  -- host operations
  | init
  | setwin (x0 y0 x1 y1 : U16)
  | streamfill (count : U32) (color : U16)
  | streambuf (pixels : List U16)
  | drawpixel (x y color : U16)
  | fillrect (x y w h color : U16)
  | drawimage (x y w h : U16) (pixels : List U16)
  -- micro-operations
  | sendbyte (v : Byte)
  | waitidle
  | selstart
  | selend
  | wrcmd (o : Byte)
  | wrdata8 (v : Byte)
  | wrdata16 (w : U16)
  | delay (t : DelayTime)
  deriving DecidableEq, Repr

/-- The three layers of 30_encoding.md R90. -/
inductive Layer where
  | wire
  | host
  | uop
  deriving DecidableEq, Repr

/-- The layer an instruction belongs to (opcode_table.json, column `layer`). -/
def Instr.layer : Instr → Layer
  | .ifmode _ => .wire
  | .slpout => .wire
  | .pixfmt _ => .wire
  | .madctl _ => .wire
  | .pwctr3 _ => .wire
  | .vmctr _ _ _ _ => .wire
  | .pgamma _ => .wire
  | .ngamma _ => .wire
  | .dispon => .wire
  | .caset _ _ => .wire
  | .paset _ _ => .wire
  | .ramwr => .wire
  | .init => .host
  | .setwin _ _ _ _ => .host
  | .streamfill _ _ => .host
  | .streambuf _ => .host
  | .drawpixel _ _ _ => .host
  | .fillrect _ _ _ _ _ => .host
  | .drawimage _ _ _ _ _ => .host
  | .sendbyte _ => .uop
  | .waitidle => .uop
  | .selstart => .uop
  | .selend => .uop
  | .wrcmd _ => .uop
  | .wrdata8 _ => .uop
  | .wrdata16 _ => .uop
  | .delay _ => .uop

/-- One byte of the wire with the level of `DC` that classifies it (30_encoding.md R92). -/
structure WireByte where
  /-- The level of `DC`: false is command, true is data (00_scope.md R8). -/
  dc : Bool
  value : Byte
  deriving DecidableEq, Repr

/-- The host's request record (10_state.md R29). -/
structure HostRequest where
  op : BitVec 4
  a0 : U16
  a1 : U16
  a2 : U16
  a3 : U16
  color : U16
  count : U32
  src : List U16
  deriving DecidableEq, Repr

/-- A micro-operation word: the 3-bit label of 30_encoding.md R101 and its operand. `arg` holds the byte, opcode or
word, or names the duration; `time` holds a duration given as a numeral (log 5). -/
structure UopWord where
  label : BitVec 3
  arg : U16
  time : U32
  deriving DecidableEq, Repr

/-- An encoded instruction of one of the three layers (30_encoding.md R90). -/
inductive Encoded where
  | wire (bytes : List WireByte)
  | host (req : HostRequest)
  | uop (word : UopWord)
  deriving DecidableEq, Repr

/-- Why an encoded form is no instruction. -/
inductive DecodeError where
  /-- A reserved `REQ.OP` (30_encoding.md R102): the request ends with `BAD_OP`. -/
  | reservedOp (op : BitVec 4)
  /-- A `STREAMBUF` sequence whose length does not fit `COUNT` (44_streaming.md R181): it cannot be presented. -/
  | sourceTooLong
  /-- A duration operand that names nothing (log 5). -/
  | reservedDelay (arg : U16)
  /-- A wire transaction that is empty or starts with a data byte (30_encoding.md R92). -/
  | noCommandByte
  /-- A second command byte inside one transaction (30_encoding.md R92). -/
  | strayCommandByte
  /-- An opcode other than the twelve (30_encoding.md R95, R102). -/
  | unknownOpcode (o : Byte)
  /-- Other than the opcode's number of data bytes (30_encoding.md R95). -/
  | wrongParameterCount (o : Byte)
  deriving DecidableEq, Repr

end Sys2Proof
end

