-- ==== Sys2Proof/Machine/State.lean ====
section
/-! DEFINITION. The state of the framer (10_state.md), of the panel observer (46_panel_observer.md) and of the
environment, as plain data, with its value at reset (10_state.md R34). -/

namespace Sys2Proof.Machine

/-- The operation in progress (10_state.md R23, `op` of `SEQ`). -/
inductive HostOp where
  | init
  | setwin
  | streamfill
  | streambuf
  | drawpixel
  | fillrect
  | drawimage
  deriving DecidableEq, Repr

/-- `INIT_STATE` (10_state.md R24). -/
inductive InitState where
  | uninit
  | initialized
  deriving DecidableEq, Repr

/-- A trace event (00_scope.md R10). Levels: true is electrically high (00_scope.md R8). -/
inductive Event where
  | cfg
  | rst (b : Bool)
  | sel (b : Bool)
  | dcset (b : Bool)
  | tx (v : Byte)
  | byte (d : Bool) (v : Byte)
  | idle
  | wait (t : Nat)
  deriving DecidableEq, Repr

/-- The window registers, as operands of a word write (10_state.md R22). -/
inductive WinReg where
  | x0
  | y0
  | x1
  | y1
  deriving DecidableEq, Repr

/-- Where the byte of a `sendByte` comes from: a constant, half a window register, half of `COLOR`, or half of the
source pixel at `IDX`. -/
inductive ByteSrc where
  | lit (v : Byte)
  | winHi (r : WinReg)
  | winLo (r : WinReg)
  | colorHi
  | colorLo
  | pixelHi
  | pixelLo
  deriving DecidableEq, Repr

/-- One entry of an operation's fixed list, below the micro-operations: every list of 41_framing.md to 45_raster.md is
made of these (log 13). -/
inductive Atom where
  /-- Step 1 of `initialize` (42_initializer.md R151). -/
  | config
  /-- `RST_n <- b` (42_initializer.md R152). -/
  | resetLine (b : Bool)
  /-- `delay(t)` (60_exceptions.md R239). -/
  | hold (t : DelayTime)
  /-- `selectStart` (false) or `selectEnd` (true) (41_framing.md R140, R141). -/
  | select (b : Bool)
  /-- `DC <- b` (41_framing.md R142 to R144). -/
  | discriminate (b : Bool)
  /-- `sendByte` (40_transport.md R130). -/
  | send (src : ByteSrc)
  /-- `waitIdle` (40_transport.md R131). -/
  | awaitIdle
  /-- The `while` of `streamFill` (44_streaming.md R180). -/
  | fillLoop
  /-- The `while` of `streamBuffer` (44_streaming.md R181). -/
  | bufLoop
  /-- `IDX <- IDX + 1` (44_streaming.md R180, R181). -/
  | nextPixel
  /-- `COUNT <- 1 ; IDX <- 0` for the stream half of `drawPixel` (45_raster.md R190). -/
  | loadOne
  /-- `COUNT <- mul32(CW, CH) ; IDX <- 0` for the stream half of `fillRect` (45_raster.md R191). -/
  | loadRect
  /-- `SRC <- gather(...) ; COUNT <- len ; IDX <- 0` for the stream half of `drawImage` (45_raster.md R192). -/
  | loadGather
  /-- `INIT_STATE <- INITIALIZED` (42_initializer.md R164). -/
  | setInitialized
  deriving DecidableEq, Repr

/-- The operand and working registers (10_state.md R22). -/
structure Regs where
  x0 : U16
  y0 : U16
  x1 : U16
  y1 : U16
  px : U16
  py : U16
  pw : U16
  ph : U16
  cw : U16
  ch : U16
  color : U16
  count : U32
  idx : U32
  src : List U16
  deriving DecidableEq, Repr

/-- The sequencer position (10_state.md R23): the operation in progress and what is left of its list (log 13). -/
structure Seq where
  op : Option HostOp
  todo : List Atom
  deriving DecidableEq, Repr

/-- The five output lines (10_state.md R26). -/
structure Lines where
  csN : Bool
  dc : Bool
  rstN : Bool
  sck : Bool
  mosi : Bool
  deriving DecidableEq, Repr

/-- An active shift register (10_state.md R28): the byte, the index `k-1` of the bit that goes out next, and the level
of `DC` latched at the load (log 18). -/
structure ShiftReg where
  value : Byte
  bit : Fin 8
  dc : Bool
  deriving DecidableEq, Repr

/-- The transport's two stages (10_state.md R28). -/
structure Transport where
  txbuf : Option Byte
  shreg : Option ShiftReg
  deriving DecidableEq, Repr

/-- How much of a hardware reset pulse the observer has seen (46_panel_observer.md R202). -/
inductive Pulse where
  /-- No pulse is under way. -/
  | quiet
  /-- `RST(0)` was seen and no hold yet. -/
  | low
  /-- A hold followed the `RST(0)`. -/
  | held
  /-- `RST(1)` followed a held low level; the release hold is awaited. -/
  | released
  /-- `RST(1)` came with no hold of the low level: this pulse will not be complete. -/
  | broken
  deriving DecidableEq, Repr

/-- `P_PTR` (46_panel_observer.md R200, R211). -/
inductive PixelPtr where
  | unspecified
  | cell (c p : U16)
  | pastEnd
  deriving DecidableEq, Repr

/-- The frame memory: specified cells only, by cell number, strictly rising (46_panel_observer.md R200; log 22). -/
abbrev Memory := List (Nat × U16)

/-- The canonical form of the frame memory. -/
abbrev Memory.wf (m : Memory) : Prop := m.Pairwise (fun a b => a.1 < b.1)

/-- The panel observer (46_panel_observer.md R200); `none` and an absent key mean unspecified. -/
structure Panel where
  ok : Bool
  cmd : Option Byte
  npar : Nat
  /-- `P_REG`: the specified registers only, by opcode, strictly rising. -/
  reg : List (Nat × List Byte)
  sleepOut : Bool
  displayOn : Bool
  sc : Option U16
  ec : Option U16
  sp : Option U16
  ep : Option U16
  ptr : PixelPtr
  half : Option Byte
  /-- `P_SETTLE` in microseconds (log 12). -/
  settle : Nat
  gram : Memory
  sel : Bool
  pulse : Pulse
  /-- The model's own: how often the observer was poisoned, which numbers the free values (log 21). -/
  poisons : Nat
  deriving DecidableEq, Repr

/-- What the outside world does next, and which agent moves next (10_state.md R20, R29; 70_reset_and_hazards.md R260;
log 2). -/
inductive Input where
  /-- An encoded instruction is presented and runs to its end before anything else: the document's blocking call. -/
  | call (e : Encoded)
  /-- A host request is presented and accepted; its moves are left to later steps. -/
  | submit (e : Encoded)
  /-- The sequencer takes its next move. -/
  | sequencer
  /-- The transport takes its next move. -/
  | transport
  /-- The block's reset. -/
  | reset
  deriving DecidableEq, Repr

/-- The state of the machine. INVENTORY.md lists the spec rule of every field. -/
structure State where
  cfg : Config
  regs : Regs
  seq : Seq
  initState : InitState
  busy : Bool
  fault : Bool
  status : BitVec 4
  lines : Lines
  bus : Transport
  /-- Failed tests of the wait the sequencer is in (40_transport.md R136). -/
  waits : Nat
  trace : List Event
  panel : Panel
  inputs : List Input
  /-- The model's own: how far the transport moves before each test of a wait in a blocking call (log 3). -/
  sched : List Nat
  /-- The model's own: `MOSI` at each leading edge of `SCK` (30_encoding.md R91; log 18). -/
  samples : List Bool
  deriving DecidableEq, Repr

/-- Why the machine stops with a fault. -/
inductive Fault where
  /-- Raised by the sequencer's move (`Sys2Proof.Machine.seqMove`) that would send half of a source pixel whose index is
  not below the sequence's length: `MemRead(src, i)` is defined for `i < len(src)` only (00_scope.md R9). Safe: no run of
  an accepted request gets there (20_memory.md R68). -/
  | absentSourcePixel
  deriving DecidableEq, Repr

/-- Why the machine has no step. -/
inductive Refusal where
  /-- Answered by `exec` for an instruction with no meaning yet. Safe. -/
  | notModelled (mnemonic : String)
  /-- A request presented while `BUSY` = 1: "refused: the model has no step" (60_exceptions.md R245,
  93_implementation_defined.md U6). Raised by `step` and by every host operation. Safe. -/
  | requestWhileBusy
  /-- The discriminator would change while a byte is in the transport (93_implementation_defined.md U7). Raised by every
  meaning that frames bytes and by the sequencer's move. Safe. -/
  | discriminatorWhileShifting
  /-- `selectEnd()` with `BSY` = 1 (93_implementation_defined.md U3). Raised by SELEND and by the sequencer's move.
  Safe. -/
  | deselectWhileShifting
  /-- What is presented is no instruction of its layer and no reserved host code. Raised by `step`. Safe. -/
  | undecodable (why : DecodeError)
  /-- `Input.submit` of something that is no host request. Raised by `submit`. Safe. -/
  | noHostRequest
  deriving DecidableEq, Repr

/-- No operation in progress (10_state.md R34). -/
def Seq.idle : Seq := { op := none, todo := [] }

/-- The empty transport (10_state.md R34). -/
def Transport.empty : Transport := { txbuf := none, shreg := none }

/-- The observer before anything was seen (46_panel_observer.md R201). -/
def Panel.initial : Panel where
  ok := false
  cmd := none
  npar := 0
  reg := []
  sleepOut := false
  displayOn := false
  sc := none
  ec := none
  sp := none
  ep := none
  ptr := .unspecified
  half := none
  settle := 0
  gram := []
  sel := false
  pulse := .quiet
  poisons := 0

/-- The operand latches after reset: R34 leaves them unspecified; zero is the model's (log 10). -/
def Regs.reset : Regs where
  x0 := 0
  y0 := 0
  x1 := 0
  y1 := 0
  px := 0
  py := 0
  pw := 0
  ph := 0
  cw := 0
  ch := 0
  color := 0
  count := 0
  idx := 0
  src := []

/-- The lines after reset: `CS_n` = 1 and `SCK` = 0 by R34; the rest are the model's (log 10). -/
def Lines.reset : Lines := { csN := true, dc := false, rstN := false, sck := false, mosi := false }

/-- The machine right after the block's reset (10_state.md R34, 70_reset_and_hazards.md R260), with no request pending. -/
def State.reset : State where
  cfg := Config.default
  regs := Regs.reset
  seq := Seq.idle
  initState := .uninit
  busy := false
  fault := false
  status := 0
  lines := Lines.reset
  bus := Transport.empty
  waits := 0
  trace := []
  panel := Panel.initial
  inputs := []
  sched := []
  samples := []

end Sys2Proof.Machine
end

