-- ==== Sys2Proof/Machine/Flags.lean ====
section
/-! DEFINITION. The transport's flags (10_state.md R25), the link mode (R27), the status codes (60_exceptions.md R231)
and the projections of the trace (00_scope.md R10). -/

namespace Sys2Proof.Machine

/-- `TXE`: the transmit buffer is empty (10_state.md R25). -/
def txe (s : State) : Bool := s.bus.txbuf.isNone

/-- `BSY`: a byte is in the transmit buffer or bits are in flight (10_state.md R25). -/
def bsy (s : State) : Bool := s.bus.txbuf.isSome || s.bus.shreg.isSome

/-- The three modes of the link (10_state.md R27). -/
inductive LinkMode where
  | idle
  | command
  | data
  deriving DecidableEq, Repr

/-- The link mode is a function of `CS_n` and `DC` (10_state.md R27). -/
def linkMode (l : Lines) : LinkMode :=
  if l.csN then .idle else if l.dc then .data else .command

-- The status codes (60_exceptions.md R231).
def STATUS_OK : BitVec 4 := 0
def STATUS_OUT_OF_BOUNDS : BitVec 4 := 1
def STATUS_EMPTY_REGION : BitVec 4 := 2
def STATUS_NOT_INITIALIZED : BitVec 4 := 3
def STATUS_ALREADY_INITIALIZED : BitVec 4 := 4
def STATUS_SHORT_BUFFER : BitVec 4 := 5
def STATUS_BUS_TIMEOUT : BitVec 4 := 6
def STATUS_BAD_OP : BitVec 4 := 7

/-- The events the panel can see (00_scope.md R10, the wire alphabet). -/
def Event.onWire : Event → Bool
  | .cfg => false
  | .rst _ => true
  | .sel _ => true
  | .dcset _ => false
  | .tx _ => false
  | .byte _ _ => true
  | .idle => false
  | .wait _ => true

/-- The events the sequencer makes by itself: all but the transport's `BYTE` (00_scope.md R10). -/
def Event.fromSequencer : Event → Bool
  | .cfg => true
  | .rst _ => true
  | .sel _ => true
  | .dcset _ => true
  | .tx _ => true
  | .byte _ _ => false
  | .idle => true
  | .wait _ => true

/-- `WIRE`, the projection of `TRACE` to the wire alphabet (00_scope.md R10). -/
def wire (s : State) : List Event := s.trace.filter Event.onWire

/-- The sequencer's own events in the order it made them. -/
def calls (s : State) : List Event := s.trace.filter Event.fromSequencer

end Sys2Proof.Machine
end

