-- ==== Sys2Proof/WellFormed.lean ====
section
/-! DEFINITION. Which instructions the encodings can carry: 15 bytes for each gamma table (30_encoding.md R95) and a
source sequence whose length fits a 32-bit count (44_streaming.md R181). -/

namespace Sys2Proof

/-- An instruction's operands are ones its encoding admits. -/
def Instr.wellFormed : Instr → Bool
  | .ifmode _ => true
  | .slpout => true
  | .pixfmt _ => true
  | .madctl _ => true
  | .pwctr3 _ => true
  | .vmctr _ _ _ _ => true
  | .pgamma ps => ps.length == 15
  | .ngamma ps => ps.length == 15
  | .dispon => true
  | .caset _ _ => true
  | .paset _ _ => true
  | .ramwr => true
  | .init => true
  | .setwin _ _ _ _ => true
  | .streamfill _ _ => true
  | .streambuf px => decide (px.length < 2 ^ 32)
  | .drawpixel _ _ _ => true
  | .fillrect _ _ _ _ _ => true
  | .drawimage _ _ _ _ _ => true
  | .sendbyte _ => true
  | .waitidle => true
  | .selstart => true
  | .selend => true
  | .wrcmd _ => true
  | .wrdata8 _ => true
  | .wrdata16 _ => true
  | .delay _ => true

end Sys2Proof
end

