-- ==== Sys2Proof/Decode.lean ====
section
/-! DEFINITION. Encodings (30_encoding.md): byte order, the twelve wire opcodes, the host codes, the micro-operation
labels, the decoder of each layer and the encoder written from the same tables. -/

namespace Sys2Proof

/-- `hi(w) = w[15:8]` (00_scope.md R7). -/
def hi (w : U16) : Byte := w.extractLsb' 8 8

/-- `lo(w) = w[7:0]` (00_scope.md R7). -/
def lo (w : U16) : Byte := w.extractLsb' 0 8

/-- `hi ++ lo`, the first byte in the more significant half (00_scope.md R7, 20_memory.md R61). -/
def joinBytes (h l : Byte) : U16 := h ++ l

-- The twelve wire opcodes (30_encoding.md R95).
def OPC_IFMODE : Byte := 0xB0
def OPC_SLPOUT : Byte := 0x11
def OPC_PIXFMT : Byte := 0x3A
def OPC_MADCTL : Byte := 0x36
def OPC_PWCTR3 : Byte := 0xC2
def OPC_VMCTR : Byte := 0xC5
def OPC_PGAMMA : Byte := 0xE0
def OPC_NGAMMA : Byte := 0xE1
def OPC_DISPON : Byte := 0x29
def OPC_CASET : Byte := 0x2A
def OPC_PASET : Byte := 0x2B
def OPC_RAMWR : Byte := 0x2C

/-- The twelve opcodes in the document's order of listing (30_encoding.md R95). -/
def wireOpcodes : List Byte :=
  [OPC_IFMODE, OPC_SLPOUT, OPC_PIXFMT, OPC_MADCTL, OPC_PWCTR3, OPC_VMCTR, OPC_PGAMMA, OPC_NGAMMA, OPC_DISPON,
    OPC_CASET, OPC_PASET, OPC_RAMWR]

-- The host operation codes (30_encoding.md R100).
def OP_INIT : BitVec 4 := 0x1
def OP_SETWIN : BitVec 4 := 0x2
def OP_STREAMFILL : BitVec 4 := 0x3
def OP_STREAMBUF : BitVec 4 := 0x4
def OP_DRAWPIXEL : BitVec 4 := 0x5
def OP_FILLRECT : BitVec 4 := 0x6
def OP_DRAWIMAGE : BitVec 4 := 0x7

-- The micro-operation labels (30_encoding.md R101).
def UOP_SENDBYTE : BitVec 3 := 0
def UOP_WAITIDLE : BitVec 3 := 1
def UOP_SELSTART : BitVec 3 := 2
def UOP_SELEND : BitVec 3 := 3
def UOP_WRCMD : BitVec 3 := 4
def UOP_WRDATA8 : BitVec 3 := 5
def UOP_WRDATA16 : BitVec 3 := 6
def UOP_DELAY : BitVec 3 := 7

/-- A transaction's bytes: the command byte with `DC` = 0, its data bytes with `DC` = 1 (30_encoding.md R92, R94). -/
def wireBytes (o : Byte) (params : List Byte) : List WireByte :=
  ⟨false, o⟩ :: params.map (fun v => ⟨true, v⟩)

/-- What a receiver takes as the first transaction: the command byte and the data bytes up to the next command byte,
and what follows (30_encoding.md R92). -/
def splitTransaction : List WireByte → List WireByte × List WireByte
  | [] => ([], [])
  | c :: rest => (c :: rest.takeWhile (·.dc), rest.dropWhile (·.dc))

/-- The instruction of an opcode and its data bytes (30_encoding.md R94, R95). RAMWR is the command byte alone (format
`W0`): a memory-write presented with its data run, like any other number of data bytes than R95's, is no instruction of the
table and is refused by name, the model's choice (log 35). -/
def decodeCommand (o : Byte) (params : List Byte) : Except DecodeError Instr :=
  if o = OPC_IFMODE then .ok (.ifmode params)
  else if o = OPC_SLPOUT then
    match params with
    | [] => .ok .slpout
    | _ => .error (.wrongParameterCount o)
  else if o = OPC_PIXFMT then
    match params with
    | [p] => .ok (.pixfmt p)
    | _ => .error (.wrongParameterCount o)
  else if o = OPC_MADCTL then
    match params with
    | [p] => .ok (.madctl p)
    | _ => .error (.wrongParameterCount o)
  else if o = OPC_PWCTR3 then
    match params with
    | [p] => .ok (.pwctr3 p)
    | _ => .error (.wrongParameterCount o)
  else if o = OPC_VMCTR then
    match params with
    | [p, q, r, t] => .ok (.vmctr p q r t)
    | _ => .error (.wrongParameterCount o)
  else if o = OPC_PGAMMA then
    if params.length = 15 then .ok (.pgamma params) else .error (.wrongParameterCount o)
  else if o = OPC_NGAMMA then
    if params.length = 15 then .ok (.ngamma params) else .error (.wrongParameterCount o)
  else if o = OPC_DISPON then
    match params with
    | [] => .ok .dispon
    | _ => .error (.wrongParameterCount o)
  else if o = OPC_CASET then
    match params with
    | [a, b, c, d] => .ok (.caset (joinBytes a b) (joinBytes c d))
    | _ => .error (.wrongParameterCount o)
  else if o = OPC_PASET then
    match params with
    | [a, b, c, d] => .ok (.paset (joinBytes a b) (joinBytes c d))
    | _ => .error (.wrongParameterCount o)
  else if o = OPC_RAMWR then
    match params with
    | [] => .ok .ramwr
    | _ => .error (.wrongParameterCount o)
  else .error (.unknownOpcode o)

/-- One whole wire transaction (30_encoding.md R92): a command byte, then data bytes only. A run of data bytes with no
command byte (R94, format `WX`) is no row of the table and is refused by name, the model's choice (log 35). -/
def decodeWire : List WireByte → Except DecodeError Instr
  | [] => .error .noCommandByte
  | c :: rest =>
    if c.dc then .error .noCommandByte
    else if rest.all (·.dc) then decodeCommand c.value (rest.map (·.value))
    else .error .strayCommandByte

/-- A host request (30_encoding.md R99, R100): operands the operation does not use are ignored. -/
def decodeHost (r : HostRequest) : Except DecodeError Instr :=
  if r.op = OP_INIT then .ok .init
  else if r.op = OP_SETWIN then .ok (.setwin r.a0 r.a1 r.a2 r.a3)
  else if r.op = OP_STREAMFILL then .ok (.streamfill r.count r.color)
  else if r.op = OP_STREAMBUF then
    if r.src.length < 2 ^ 32 then .ok (.streambuf r.src) else .error .sourceTooLong
  else if r.op = OP_DRAWPIXEL then .ok (.drawpixel r.a0 r.a1 r.color)
  else if r.op = OP_FILLRECT then .ok (.fillrect r.a0 r.a1 r.a2 r.a3 r.color)
  else if r.op = OP_DRAWIMAGE then .ok (.drawimage r.a0 r.a1 r.a2 r.a3 r.src)
  else .error (.reservedOp r.op)

/-- The duration an operand names (log 5). -/
def decodeDelay (arg : U16) (time : U32) : Except DecodeError Instr :=
  if arg = 0 then .ok (.delay .rstPre)
  else if arg = 1 then .ok (.delay .rstLow)
  else if arg = 2 then .ok (.delay .rstPost)
  else if arg = 3 then .ok (.delay .slpout)
  else if arg = 4 then .ok (.delay .dispon)
  else if arg = 5 then .ok (.delay (.micros time))
  else .error (.reservedDelay arg)

/-- A micro-operation word (30_encoding.md R101). A byte operand is the low half of `arg`. -/
def decodeUop (u : UopWord) : Except DecodeError Instr :=
  if u.label = UOP_SENDBYTE then .ok (.sendbyte (lo u.arg))
  else if u.label = UOP_WAITIDLE then .ok .waitidle
  else if u.label = UOP_SELSTART then .ok .selstart
  else if u.label = UOP_SELEND then .ok .selend
  else if u.label = UOP_WRCMD then .ok (.wrcmd (lo u.arg))
  else if u.label = UOP_WRDATA8 then .ok (.wrdata8 (lo u.arg))
  else if u.label = UOP_WRDATA16 then .ok (.wrdata16 u.arg)
  else decodeDelay u.arg u.time

/-- The instruction an encoded form stands for, or why it stands for none. -/
def decode : Encoded → Except DecodeError Instr
  | .wire bytes => decodeWire bytes
  | .host req => decodeHost req
  | .uop word => decodeUop word

/-- A host request with every operand zero (operands an operation does not use may hold anything, 30_encoding.md R99). -/
def blankRequest (op : BitVec 4) : HostRequest :=
  { op := op, a0 := 0, a1 := 0, a2 := 0, a3 := 0, color := 0, count := 0, src := [] }

/-- A micro-operation word with a byte operand. -/
def byteUop (label : BitVec 3) (v : Byte) : UopWord :=
  { label := label, arg := joinBytes 0 v, time := 0 }

/-- The operand fields of a duration (log 5). -/
def encodeDelay : DelayTime → UopWord
  | .rstPre => { label := UOP_DELAY, arg := 0, time := 0 }
  | .rstLow => { label := UOP_DELAY, arg := 1, time := 0 }
  | .rstPost => { label := UOP_DELAY, arg := 2, time := 0 }
  | .slpout => { label := UOP_DELAY, arg := 3, time := 0 }
  | .dispon => { label := UOP_DELAY, arg := 4, time := 0 }
  | .micros t => { label := UOP_DELAY, arg := 5, time := t }

/-- The encoded form of an instruction, from the tables of 30_encoding.md R94, R95, R99, R100, R101. -/
def encode : Instr → Encoded
  | .ifmode ps => .wire (wireBytes OPC_IFMODE ps)
  | .slpout => .wire (wireBytes OPC_SLPOUT [])
  | .pixfmt p => .wire (wireBytes OPC_PIXFMT [p])
  | .madctl p => .wire (wireBytes OPC_MADCTL [p])
  | .pwctr3 p => .wire (wireBytes OPC_PWCTR3 [p])
  | .vmctr p q r t => .wire (wireBytes OPC_VMCTR [p, q, r, t])
  | .pgamma ps => .wire (wireBytes OPC_PGAMMA ps)
  | .ngamma ps => .wire (wireBytes OPC_NGAMMA ps)
  | .dispon => .wire (wireBytes OPC_DISPON [])
  | .caset a b => .wire (wireBytes OPC_CASET [hi a, lo a, hi b, lo b])
  | .paset a b => .wire (wireBytes OPC_PASET [hi a, lo a, hi b, lo b])
  | .ramwr => .wire (wireBytes OPC_RAMWR [])
  | .init => .host (blankRequest OP_INIT)
  | .setwin x0 y0 x1 y1 => .host { blankRequest OP_SETWIN with a0 := x0, a1 := y0, a2 := x1, a3 := y1 }
  | .streamfill n c => .host { blankRequest OP_STREAMFILL with count := n, color := c }
  | .streambuf px => .host { blankRequest OP_STREAMBUF with src := px }
  | .drawpixel x y c => .host { blankRequest OP_DRAWPIXEL with a0 := x, a1 := y, color := c }
  | .fillrect x y w h c => .host { blankRequest OP_FILLRECT with a0 := x, a1 := y, a2 := w, a3 := h, color := c }
  | .drawimage x y w h px => .host { blankRequest OP_DRAWIMAGE with a0 := x, a1 := y, a2 := w, a3 := h, src := px }
  | .sendbyte v => .uop (byteUop UOP_SENDBYTE v)
  | .waitidle => .uop { label := UOP_WAITIDLE, arg := 0, time := 0 }
  | .selstart => .uop { label := UOP_SELSTART, arg := 0, time := 0 }
  | .selend => .uop { label := UOP_SELEND, arg := 0, time := 0 }
  | .wrcmd o => .uop (byteUop UOP_WRCMD o)
  | .wrdata8 v => .uop (byteUop UOP_WRDATA8 v)
  | .wrdata16 w => .uop { label := UOP_WRDATA16, arg := w, time := 0 }
  | .delay t => .uop (encodeDelay t)

/-- How many data bytes an opcode's transaction has when they are all zero (30_encoding.md R95): none for IFMODE, whose
number is OPEN. -/
def zeroParameters (o : Byte) : Nat :=
  if o = OPC_PIXFMT ∨ o = OPC_MADCTL ∨ o = OPC_PWCTR3 then 1
  else if o = OPC_VMCTR ∨ o = OPC_CASET ∨ o = OPC_PASET then 4
  else if o = OPC_PGAMMA ∨ o = OPC_NGAMMA then 15
  else 0

/-- The encoded form of an opcode-table row's bits, every operand zero. The table's three layers number their rows
apart (30_encoding.md R90), so equal bits can mean two rows: 4 bits are a host code, 3 bits a label; in whole bytes a
wire opcode is read first, then a host code, then a label (log 6). -/
def tableForm (nbits w : Nat) : Encoded :=
  if nbits = 3 then .uop { label := BitVec.ofNat 3 w, arg := 0, time := 0 }
  else if nbits = 4 then .host (blankRequest (BitVec.ofNat 4 w))
  else if wireOpcodes.contains (BitVec.ofNat 8 w) then
    .wire (wireBytes (BitVec.ofNat 8 w) (List.replicate (zeroParameters (BitVec.ofNat 8 w)) 0))
  else if 1 ≤ w ∧ w ≤ 7 then .host (blankRequest (BitVec.ofNat 4 w))
  else if w = 0 then .uop { label := 0, arg := 0, time := 0 }
  else .wire [⟨false, BitVec.ofNat 8 w⟩]

/-- The instruction the decoder reads from an opcode-table row's bits with its operands zero. -/
def decodeTableWord (nbits w : Nat) : Option Instr :=
  match decode (tableForm nbits w) with
  | .ok i => some i
  | .error _ => none

end Sys2Proof
end

