-- ==== Sys2Proof/Machine/Operands.lean ====
section
/-! DEFINITION. Operands: the fixed constants of 00_scope.md R6, the bytes a micro-operation sends, source pixels,
clipping and the blit gather, durations. -/

namespace Sys2Proof.Machine

/-- The panel's width in columns (10_state.md R21). -/
def WIDTH : Nat := 320

/-- The panel's height in pages (10_state.md R21). -/
def HEIGHT : Nat := 480

/-- The pixel-format parameter, "0x55 = 16bpp" (42_initializer.md R156). -/
def PIXFMT_PARAM : Byte := 0x55

/-- The memory-access-control parameter, "0x28 = BGR order" (42_initializer.md R157). -/
def MADCTL_PARAM : Byte := 0x28

/-- The power-control-3 parameter (42_initializer.md R158). -/
def PWCTR3_PARAM : Byte := 0x44

/-- The four zero parameters of VCOM-control (42_initializer.md R159). -/
def VMCTR_PARAMS : List Byte := [0x00, 0x00, 0x00, 0x00]

/-- The settling period after sleep-out and after display-on, 100 ms in microseconds (46_panel_observer.md R218). -/
def SETTLE_TIME : Nat := 100000

/-- How long a `delay` lasts at least, in microseconds (60_exceptions.md R239). -/
def delayMicros (c : Config) : DelayTime → Nat
  | .rstPre => c.tRstPre
  | .rstLow => c.tRstLow
  | .rstPost => c.tRstPost
  | .slpout => c.tSlpout
  | .dispon => c.tDispon
  | .micros t => t.toNat

/-- `MemRead(src, i)` (00_scope.md R9): the pixel at index `i`. An index at or past the end is never read by a run of an
accepted request (20_memory.md R68) and gives a free value (log 24). -/
def memRead (src : List U16) (i : Nat) : U16 := (src[i]?).getD (Config.absentPixel i)

/-- The value of a window register. -/
def WinReg.read (r : Regs) : WinReg → U16
  | .x0 => r.x0
  | .y0 => r.y0
  | .x1 => r.x1
  | .y1 => r.y1

/-- The byte a `sendByte` sends. -/
def ByteSrc.read (r : Regs) : ByteSrc → Byte
  | .lit v => v
  | .winHi w => hi (w.read r)
  | .winLo w => lo (w.read r)
  | .colorHi => hi r.color
  | .colorLo => lo r.color
  | .pixelHi => hi (memRead r.src r.idx.toNat)
  | .pixelLo => lo (memRead r.src r.idx.toNat)

/-- The byte source reads the source sequence. -/
def ByteSrc.readsSource : ByteSrc → Bool
  | .pixelHi => true
  | .pixelLo => true
  | .lit _ => false
  | .winHi _ => false
  | .winLo _ => false
  | .colorHi => false
  | .colorLo => false

/-- `mul32(a, b)`, which cannot overflow (00_scope.md R7). -/
def mul32 (a b : U16) : U32 := a.setWidth 32 * b.setWidth 32

/-- The anchor lies off the panel (45_raster.md R190). -/
def offPanel (x y : U16) : Bool := decide (WIDTH ≤ x.toNat) || decide (HEIGHT ≤ y.toNat)

/-- The clipped width, `min(w, WIDTH - x)` over naturals (45_raster.md R193). -/
def clipWidth (x w : U16) : U16 := BitVec.ofNat 16 (min w.toNat (WIDTH - x.toNat))

/-- The clipped height, `min(h, HEIGHT - y)` over naturals (45_raster.md R193). -/
def clipHeight (y h : U16) : U16 := BitVec.ofNat 16 (min h.toNat (HEIGHT - y.toNat))

/-- The last column or page of a range that starts at `a` and is `n` long, `a + n - 1` (45_raster.md R191). -/
def lastOf (a n : U16) : U16 := BitVec.ofNat 16 (a.toNat + n.toNat - 1)

/-- The pixels of the clipped top-left part, with the original width as row pitch (45_raster.md R195 `STRIDE_CROP`). -/
def gatherStride (src : List U16) (pw cw ch : Nat) : List U16 :=
  (List.range ch).flatMap (fun r => (List.range cw).map (fun c => memRead src (r * pw + c)))

/-- The first `cw × ch` entries (45_raster.md R195 `REFERENCE_CONTIGUOUS`). -/
def gatherContiguous (src : List U16) (cw ch : Nat) : List U16 :=
  (List.range (cw * ch)).map (fun i => memRead src i)

/-- `gather(src, pw, cw, ch)` by `BLIT_CLIP_MODE` (45_raster.md R195). -/
def gather (mode : BlitClipMode) (src : List U16) (pw cw ch : U16) : List U16 :=
  match mode with
  | .strideCrop => gatherStride src pw.toNat cw.toNat ch.toNat
  | .referenceContiguous => gatherContiguous src cw.toNat ch.toNat
  | .reject => gatherStride src pw.toNat cw.toNat ch.toNat

end Sys2Proof.Machine
end

