-- ==== Sys2Proof/Machine/Panel.lean ====
section
/-! DEFINITION. The panel as an observer of the wire (46_panel_observer.md): what each wire event does to it. Where the
document is silent the observer is poisoned and claims nothing (R216). -/

namespace Sys2Proof.Machine

/-- The value at a key of a sparse list; `none` is unspecified. -/
def sparseGet {α : Type} (k : Nat) : List (Nat × α) → Option α
  | [] => none
  | (j, v) :: rest => if k = j then some v else sparseGet k rest

/-- Write at a key of a sparse list, keeping the keys strictly rising. -/
def sparseSet {α : Type} (k : Nat) (v : α) : List (Nat × α) → List (Nat × α)
  | [] => [(k, v)]
  | (j, w) :: rest =>
    if k < j then (k, v) :: (j, w) :: rest
    else if k = j then (k, v) :: rest
    else (j, w) :: sparseSet k v rest

/-- The number of the frame-memory cell at column `c`, page `p` (20_memory.md R60; log 22). -/
def cellIndex (c p : Nat) : Nat := p * WIDTH + c

/-- `GRAM[c, p]` (46_panel_observer.md R200). -/
def Memory.read (m : Memory) (c p : Nat) : Option U16 := sparseGet (cellIndex c p) m

/-- `MemWrite(GRAM, (c, p), v)` (00_scope.md R9). -/
def Memory.write (m : Memory) (c p : Nat) (v : U16) : Memory := sparseSet (cellIndex c p) v m

/-- `P_REG[o]` (46_panel_observer.md R200). -/
def Panel.regOf (p : Panel) (o : Byte) : Option (List Byte) := sparseGet o.toNat p.reg

/-- Write `P_REG[o]`. -/
def Panel.setReg (p : Panel) (o : Byte) (v : List Byte) : Panel := { p with reg := sparseSet o.toNat v p.reg }

/-- Poison (46_panel_observer.md R216): nothing is claimed until the next complete hardware reset pulse. Every other
element is unspecified: absent where it has such a value, a free value where it has none (log 21). A reset pulse under
way does not end this poison, the next one can: the model's choice (log 33). -/
def Panel.poison (p : Panel) : Panel where
  ok := false
  cmd := Config.poisonCmd p.poisons
  npar := Config.poisonNpar p.poisons
  reg := []
  sleepOut := Config.poisonSleepOut p.poisons
  displayOn := Config.poisonDisplayOn p.poisons
  sc := none
  ec := none
  sp := none
  ep := none
  ptr := .unspecified
  half := Config.poisonHalf p.poisons
  settle := Config.poisonSettle p.poisons
  gram := []
  sel := Config.poisonSel p.poisons
  pulse := .quiet
  poisons := p.poisons + 1

/-- `RST(b)` (46_panel_observer.md R202). -/
def Panel.onRst (b : Bool) (p : Panel) : Panel :=
  if b then
    match p.pulse with
    | .low => { p with pulse := .broken }
    | .held => { p with pulse := .released }
    | .quiet => p
    | .released => p
    | .broken => p
  else
    { p with
      ok := false, cmd := none, reg := [], sc := none, ec := none, sp := none, ep := none, ptr := .unspecified,
      half := none, sleepOut := false, displayOn := false, gram := [], pulse := .low }

/-- `WAIT(t)` (46_panel_observer.md R202, R218): the settling time runs down, and a hold of the reset line counts. -/
def Panel.onWait (t : Nat) (p : Panel) : Panel :=
  let p := { p with settle := p.settle - t }
  if t = 0 then p
  else
    match p.pulse with
    | .low => { p with pulse := .held }
    | .released => { p with pulse := .quiet, ok := true }
    | .quiet => p
    | .held => p
    | .broken => p

/-- `SEL(b)` (46_panel_observer.md R214): only `P_SEL` changes, but a select during a reset pulse poisons (R202), after
which `P_SEL` is unspecified with the rest (R216). -/
def Panel.onSel (b : Bool) (p : Panel) : Panel :=
  if b then { p with sel := false }
  else if p.pulse = .quiet then { p with sel := true }
  else p.poison

/-- The context that a command byte closes was left unfinished (46_panel_observer.md R213 (a), (b), R219). -/
def Panel.unfinished (p : Panel) : Bool :=
  ((p.cmd == some OPC_CASET || p.cmd == some OPC_PASET) && p.npar != 4) ||
    (p.cmd == some OPC_RAMWR && p.half.isSome)

/-- A command byte's own effect, its context already opened (46_panel_observer.md R203 to R212). -/
def Panel.openCommand (o : Byte) (p : Panel) : Panel :=
  if o = OPC_SLPOUT then { p with sleepOut := true, settle := SETTLE_TIME }
  else if o = OPC_DISPON then { p with displayOn := true, settle := SETTLE_TIME }
  else if o = OPC_RAMWR then
    match p.sc, p.ec, p.sp, p.ep with
    | some c, some _, some r, some _ => { p with ptr := .cell c r }
    | _, _, _, _ => p.poison
  else if wireOpcodes.contains o then p.setReg o []
  else p.poison

/-- `BYTE(0, o)` while the panel listens (46_panel_observer.md R219). -/
def Panel.onCommand (o : Byte) (p : Panel) : Panel :=
  if p.unfinished then p.poison
  else Panel.openCommand o { p with cmd := some o, npar := 0, half := none }

/-- A range arrived whole (46_panel_observer.md R210): it is taken if it lies inside the panel. -/
def Panel.setRange (o : Byte) (a b : U16) (p : Panel) : Panel :=
  if o = OPC_CASET then
    if a.toNat ≤ b.toNat ∧ b.toNat < WIDTH then { p with sc := some a, ec := some b, ptr := .unspecified }
    else p.poison
  else
    if a.toNat ≤ b.toNat ∧ b.toNat < HEIGHT then { p with sp := some a, ep := some b, ptr := .unspecified }
    else p.poison

/-- A data byte of an address command, already appended (46_panel_observer.md R210). -/
def Panel.rangeByte (o : Byte) (p : Panel) : Panel :=
  if p.npar < 4 then p
  else
    match p.regOf o with
    | some [b0, b1, b2, b3] => p.setRange o (joinBytes b0 b1) (joinBytes b2 b3)
    | _ => p.poison

/-- Where the next pixel lands, if the document says (46_panel_observer.md R211, R213 (c)). -/
def Panel.target (wrap : PanelWrap) (p : Panel) : Option (U16 × U16) :=
  match p.ptr with
  | .cell c r => some (c, r)
  | .unspecified => none
  | .pastEnd =>
    match wrap, p.sc, p.sp with
    | .wrapToWindowStart, some c, some r => some (c, r)
    | _, _, _ => none

/-- The pointer after the pixel at `(c, r)`: left to right, then top to bottom (46_panel_observer.md R211). -/
def nextCell (sc ec ep c r : U16) : PixelPtr :=
  if c.toNat < ec.toNat then .cell (c + 1) r
  else if r.toNat < ep.toNat then .cell sc (r + 1)
  else .pastEnd

/-- A whole pixel arrived (46_panel_observer.md R211). -/
def Panel.putPixel (wrap : PanelWrap) (v : U16) (p : Panel) : Panel :=
  match p.target wrap, p.sc, p.ec, p.ep with
  | some (c, r), some sc, some ec, some ep =>
    { p with gram := p.gram.write c.toNat r.toNat v, ptr := nextCell sc ec ep c r }
  | _, _, _, _ => p.poison

/-- Pixel data means what the document says only in the configuration it gives (46_panel_observer.md R205, R206, R211). -/
def Panel.takesPixels (p : Panel) : Bool :=
  p.regOf OPC_PIXFMT == some [PIXFMT_PARAM] && p.regOf OPC_MADCTL == some [MADCTL_PARAM] && p.sleepOut

/-- A data byte after memory-write (46_panel_observer.md R211). -/
def Panel.pixelByte (wrap : PanelWrap) (v : Byte) (p : Panel) : Panel :=
  if p.takesPixels then
    match p.half with
    | none => { p with half := some v }
    | some h => Panel.putPixel wrap (joinBytes h v) { p with half := none }
  else p.poison

/-- `BYTE(1, v)` while the panel listens (46_panel_observer.md R219). -/
def Panel.onData (wrap : PanelWrap) (v : Byte) (p : Panel) : Panel :=
  match p.cmd with
  | none => p.poison
  | some o =>
    if o = OPC_RAMWR then p.pixelByte wrap v
    else if o = OPC_SLPOUT ∨ o = OPC_DISPON then p.poison
    else
      let q := { p.setReg o (((p.regOf o).getD []) ++ [v]) with npar := p.npar + 1 }
      if o = OPC_CASET ∨ o = OPC_PASET then q.rangeByte o else q

/-- `BYTE(d, v)` (46_panel_observer.md R214, R218, R219): poison before a complete reset pulse and while settling,
ignored while not selected (log 20 on the order). -/
def Panel.onByte (wrap : PanelWrap) (d : Bool) (v : Byte) (p : Panel) : Panel :=
  if !p.ok then p.poison
  else if 0 < p.settle then p.poison
  else if !p.sel then p
  else if d then p.onData wrap v
  else p.onCommand v

/-- What one event does to the observer; it sees the wire alphabet only (46_panel_observer.md R200). -/
def Panel.onEvent (wrap : PanelWrap) (p : Panel) : Event → Panel
  | .cfg => p
  | .rst b => p.onRst b
  | .sel b => p.onSel b
  | .dcset _ => p
  | .tx _ => p
  | .byte d v => p.onByte wrap d v
  | .idle => p
  | .wait t => p.onWait t

/-- The observer after a run of events. -/
def Panel.feed (wrap : PanelWrap) (p : Panel) (es : List Event) : Panel := es.foldl (Panel.onEvent wrap) p

/-- The observer as a function of the wire trace alone (46_panel_observer.md R200), its free values numbered from `k`. -/
def Panel.observe (wrap : PanelWrap) (k : Nat) (es : List Event) : Panel :=
  Panel.feed wrap { Panel.initial with poisons := k } es

/-- The picture (46_panel_observer.md R215): while the observer is not poisoned and the display is on, the content of
`GRAM`, cell `(c, p)` at column `c` from the left and page `p` from the top, as the 16-bit 5-6-5 value stored; `none`
where nothing is claimed. -/
def Panel.picture (p : Panel) (c r : Nat) : Option U16 :=
  if p.ok = true ∧ p.displayOn = true ∧ c < WIDTH ∧ r < HEIGHT then p.gram.read c r else none

end Sys2Proof.Machine
end

