-- ==== Sys2Proof/Machine/Ops.lean ====
section
/-! DEFINITION. The operations the meanings share: events, the transport's moves, waits, the entries of the fixed lists,
running a list, the early end of a request (`raise Status`, this block's exception entry), its normal end, and the
block's reset. -/

namespace Sys2Proof.Machine

/-- `emit e`: the event is appended to `TRACE` (10_state.md R32) and the observer sees it. -/
def emit (e : Event) (s : State) : State :=
  { s with trace := s.trace ++ [e], panel := s.panel.onEvent s.cfg.panelWrap e }

-- ## The transport agent (40_transport.md R132 to R134)

/-- The load step (40_transport.md R132): the byte leaves the transmit buffer; `DC` is latched with it. -/
def loadStep (v : Byte) (s : State) : State :=
  { s with bus := { txbuf := none, shreg := some { value := v, bit := 7, dc := s.lines.dc } } }

/-- One clock pulse (40_transport.md R133, 30_encoding.md R91): `MOSI` takes the bit while `SCK` is low, the panel samples
at the leading edge, the trailing edge ends it. -/
def clockPulse (b : Bool) (s : State) : State :=
  let s := { s with lines := { s.lines with mosi := b } }
  let s := { s with lines := { s.lines with sck := true }, samples := s.samples ++ [b] }
  { s with lines := { s.lines with sck := false } }

/-- The shift register after a pulse that was not the byte's last (40_transport.md R133). -/
def shifted (r : ShiftReg) : ShiftReg := { r with bit := r.bit - 1 }

/-- The shift step and, with the last bit, byte completion (40_transport.md R133, R134). -/
def shiftStep (r : ShiftReg) (s : State) : State :=
  let s := clockPulse (r.value.getLsbD r.bit) s
  if r.bit = 0 then emit (.byte r.dc r.value) { s with bus := { s.bus with shreg := none } }
  else { s with bus := { s.bus with shreg := some (shifted r) } }

/-- The transport's next move (40_transport.md R132 to R135): shift if a byte is being shifted, load if one waits;
with nothing to do it stays as it is. -/
def txMove (s : State) : State :=
  match s.bus.shreg, s.bus.txbuf with
  | some r, _ => shiftStep r s
  | none, some v => loadStep v s
  | none, none => s

/-- `n` moves of the transport. -/
def txMoves : Nat → State → State
  | 0, s => s
  | n + 1, s => txMoves n (txMove s)

/-- How many moves the transport has left with what it holds. -/
def Transport.work (b : Transport) : Nat :=
  (match b.shreg with
    | some r => r.bit.val + 1
    | none => 0) +
  (match b.txbuf with
    | some _ => 9
    | none => 0)

-- ## Early end, normal end, reset

/-- `raise Status(code)` (60_exceptions.md R235), this block's exception entry: the operation in progress ends at once;
nothing is saved, no mode changes, no handler runs. -/
def raise (code : BitVec 4) (s : State) : State :=
  { s with status := code, seq := Seq.idle, busy := false, waits := 0 }

/-- A bus wait expired (60_exceptions.md R237): `FAULT` is latched and nothing is tidied. -/
def timeOut (s : State) : State := raise STATUS_BUS_TIMEOUT { s with fault := true }

/-- A reserved `REQ.OP` (30_encoding.md R102): no bus activity, `BAD_OP`. -/
def badOp (s : State) : State := raise STATUS_BAD_OP s

/-- The list has ended (10_state.md R29): `STATUS` is written, the sequencer idles and `BUSY` is cleared. -/
def complete (s : State) : State := raise STATUS_OK s

/-- The block's reset (70_reset_and_hazards.md R260, R261), possible at any time: every item of 10_state.md R34 at its
listed value; the parameters and what the environment still means to do are no state of the block (log 25). -/
def blockReset (s : State) : State :=
  { State.reset with cfg := s.cfg, inputs := s.inputs, sched := s.sched }

-- ## Waits (40_transport.md R130, R131, R136)

/-- How a run of list entries ended: the list may go on, or a wait expired and the request is over. -/
inductive Flow where
  | ok (s : State)
  | expired (s : State)
  deriving DecidableEq, Repr

/-- Go on with the next entry unless the request is over. -/
def Flow.andThen (f : Flow) (k : State → Flow) : Flow :=
  match f with
  | .ok s => k s
  | .expired s => .expired s

/-- The state a run of list entries ended in. -/
def Flow.state : Flow → State
  | .ok s => s
  | .expired s => s

/-- Before each test of a wait the transport moves as far as the schedule says (10_state.md R20; log 3). -/
def interleave (s : State) : State :=
  match s.sched with
  | [] => s
  | k :: ks => txMoves k { s with sched := ks }

/-- Between two tests of an unbounded wait the transport moves at least once (40_transport.md R135, weak fairness; log 15);
a bounded wait promises nothing. -/
def fairMove (s : State) : State :=
  match s.cfg.busTimeout with
  | none => txMove s
  | some _ => s

/-- How often a wait may fail: without a bound, until the transport is empty; with `BUS_TIMEOUT` = N, N re-tests
(40_transport.md R136; log 14). -/
def waitBudget (s : State) : Nat :=
  match s.cfg.busTimeout with
  | none => s.bus.work
  | some n => n

/-- What a wait waits for: the transmit buffer empty (`sendByte`), or the transport idle (`waitIdle`). -/
inductive WaitFor where
  | ready
  | idle
  deriving DecidableEq, Repr

/-- The awaited condition holds (40_transport.md R130, R131). -/
def WaitFor.met : WaitFor → State → Bool
  | .ready, s => txe s
  | .idle, s => !bsy s

/-- `await`: test, and on failure test again up to the budget; then the wait has expired. -/
def await (c : WaitFor) : Nat → State → Flow
  | 0, s =>
    if c.met (interleave s) then .ok (interleave s) else .expired (timeOut (interleave s))
  | n + 1, s =>
    if c.met (interleave s) then .ok (interleave s) else await c n (fairMove (interleave s))

-- ## The entries of the fixed lists

/-- The wait an entry begins with, if it has one. -/
def Atom.waitsFor : Atom → Option WaitFor
  | .send _ => some .ready
  | .awaitIdle => some .idle
  | .config => none
  | .resetLine _ => none
  | .hold _ => none
  | .select _ => none
  | .discriminate _ => none
  | .fillLoop => none
  | .bufLoop => none
  | .nextPixel => none
  | .loadOne => none
  | .loadRect => none
  | .loadGather => none
  | .setInitialized => none

/-- `CS_n <- b ; emit SEL(b)` (41_framing.md R140, R141). -/
def driveSelect (b : Bool) (s : State) : State := emit (.sel b) { s with lines := { s.lines with csN := b } }

/-- `DC <- b ; emit DCSET(b)` (41_framing.md R142 to R144). -/
def driveDc (b : Bool) (s : State) : State := emit (.dcset b) { s with lines := { s.lines with dc := b } }

/-- `RST_n <- b ; emit RST(b)` (42_initializer.md R152). -/
def driveReset (b : Bool) (s : State) : State := emit (.rst b) { s with lines := { s.lines with rstN := b } }

/-- `TXBUF <- v ; emit TX(v)` (40_transport.md R130, after the wait). -/
def enqueue (v : Byte) (s : State) : State := emit (.tx v) { s with bus := { s.bus with txbuf := some v } }

/-- `delay(t)`: at least `t` elapses, no line changes, `WAIT(t)` (60_exceptions.md R239; log 19). -/
def holdFor (t : DelayTime) (s : State) : State := emit (.wait (delayMicros s.cfg t)) s

/-- Start a burst: `COUNT <- n ; IDX <- 0` (44_streaming.md R180, R181). -/
def startBurst (n : U32) (s : State) : State := { s with regs := { s.regs with count := n, idx := 0 } }

/-- What an entry does once its wait is over. The two loops are entered by `runAtom` and by the sequencer's move. -/
def Atom.effect (a : Atom) (s : State) : State :=
  match a with
  | .config => emit .cfg s
  | .resetLine b => driveReset b s
  | .hold t => holdFor t s
  | .select b => driveSelect b s
  | .discriminate b => driveDc b s
  | .send src => enqueue (src.read s.regs) s
  | .awaitIdle => emit .idle s
  | .fillLoop => s
  | .bufLoop => s
  | .nextPixel => { s with regs := { s.regs with idx := s.regs.idx + 1 } }
  | .loadOne => startBurst 1 s
  | .loadRect => startBurst (mul32 s.regs.cw s.regs.ch) s
  | .loadGather =>
    let px := gather s.cfg.blitClipMode s.regs.src s.regs.pw s.regs.cw s.regs.ch
    startBurst (BitVec.ofNat 32 px.length) { s with regs := { s.regs with src := px } }
  | .setInitialized => { s with initState := .initialized }

/-- The body of a pixel loop, by the loop's entry: the two bytes of a pixel and the step of `IDX`
(44_streaming.md R180, R181). -/
def loopBody : Atom → List Atom
  | .fillLoop => [.send .colorHi, .send .colorLo, .nextPixel]
  | .bufLoop => [.send .pixelHi, .send .pixelLo, .nextPixel]
  | .config => []
  | .resetLine _ => []
  | .hold _ => []
  | .select _ => []
  | .discriminate _ => []
  | .send _ => []
  | .awaitIdle => []
  | .nextPixel => []
  | .loadOne => []
  | .loadRect => []
  | .loadGather => []
  | .setInitialized => []

/-- How often a pixel loop goes round: `while IDX < COUNT`. -/
def loopRounds (s : State) : Nat := s.regs.count.toNat - s.regs.idx.toNat

-- ## Running a list to its end

/-- One entry that is no loop: its wait, then its effect. -/
def runEntry (a : Atom) (s : State) : Flow :=
  match a.waitsFor with
  | none => .ok (a.effect s)
  | some c => (await c (waitBudget s) s).andThen (fun t => .ok (a.effect t))

/-- Entries that are no loops, in order. -/
def runEntries : List Atom → State → Flow
  | [], s => .ok s
  | a :: rest, s => (runEntry a s).andThen (runEntries rest)

/-- The same entries `n` times over. -/
def runRounds (body : List Atom) : Nat → State → Flow
  | 0, s => .ok s
  | n + 1, s => (runEntries body s).andThen (runRounds body n)

/-- One entry, a pixel loop with all its rounds. -/
def runAtom (a : Atom) (s : State) : Flow :=
  match loopBody a with
  | [] => runEntry a s
  | b :: body => runRounds (b :: body) (loopRounds s) s

/-- A list to its end. -/
def runList : List Atom → State → Flow
  | [], s => .ok s
  | a :: rest, s => (runAtom a s).andThen (runList rest)

-- ## Requests

/-- Acceptance (10_state.md R29): `BUSY` is set and the sequencer stands at the first entry of the operation's list. -/
def accept (op : HostOp) (list : List Atom) (s : State) : State :=
  { s with busy := true, seq := { op := some op, todo := list } }

/-- The end of a request's run: its list has ended, or a wait has expired. -/
def Flow.ended : Flow → State
  | .ok s => complete s
  | .expired s => s

/-- Run a request that was accepted or has already ended with a status: an accepted one starts with the transport idle
(10_state.md R38), or the discriminator would change under a byte (93_implementation_defined.md U7). The model's choice,
since no listed treatment names the case: a byte left in the transport by a micro-operation issued alone refuses the call
before its first event (log 16). A bracket left open by a lone SELSTART is not looked at: the request runs and opens its
own (log 32). -/
def finish (s : State) : Host.Outcome State Fault Refusal :=
  if s.busy then
    if bsy s then .refused .discriminatorWhileShifting else .next (runList s.seq.todo s).ended
  else .next s

/-- A host request, run to its end (10_state.md R29): there is no step for one presented while `BUSY` = 1. -/
def runRequest (start : State → State) (s : State) : Host.Outcome State Fault Refusal :=
  if s.busy then .refused .requestWhileBusy else finish (start s)

/-- A run of framed bytes issued alone (41_framing.md R142 to R144): it needs the transport idle
(93_implementation_defined.md U7). -/
def runFramed (list : List Atom) (s : State) : Host.Outcome State Fault Refusal :=
  if bsy s then .refused .discriminatorWhileShifting else .next (runList list s).state

/-- The checks every operation but `INIT` begins with (60_exceptions.md R234, checks 2 and 3). -/
def whenInitialized (k : State → State) (s : State) : State :=
  if s.fault then raise STATUS_BUS_TIMEOUT s
  else
    match s.initState with
    | .uninit => raise STATUS_NOT_INITIALIZED s
    | .initialized => k s

end Sys2Proof.Machine
end

