-- ==== Sys2Proof/Machine/Framing.lean ====
section
/-! DEFINITION. Command/Data Framing (41_framing.md): its fixed lists and its micro-operations. -/

namespace Sys2Proof.Machine

/-- Set the discriminator, send one byte, wait for idle (41_framing.md R142, R143). -/
def byteList (d : Bool) (src : ByteSrc) : List Atom := [.discriminate d, .send src, .awaitIdle]

/-- `writeCommand(o)` (41_framing.md R142). -/
def commandList (o : Byte) : List Atom := byteList false (.lit o)

/-- `writeDataByte(v)` (41_framing.md R143). -/
def dataList (v : Byte) : List Atom := byteList true (.lit v)

/-- `writeDataWord` of a word given by its two bytes (41_framing.md R144). -/
def wordList (h l : ByteSrc) : List Atom := [.discriminate true, .send h, .send l, .awaitIdle]

/-- A command byte and its one-byte parameters (30_encoding.md R94, format `WP`). -/
def parameterList (o : Byte) (params : List Byte) : List Atom := commandList o ++ params.flatMap dataList

/-- SELSTART, `selectStart()` (41_framing.md R140). Every use in the spec has `CS_n` = 1 and `BSY` = 0 (R140; 20_memory.md
R72 (c)), and no treatment is listed for one issued alone with `CS_n` = 0 or `BSY` = 1: it runs there too and emits its
`SEL(0)`, the model's choice (log 34). -/
def execSelstart (s : State) : Host.Outcome State Fault Refusal :=
  .next (runList [.select false] s).state

/-- SELEND, `selectEnd()` (41_framing.md R141): with a byte still in the transport there is no step
(93_implementation_defined.md U3). Issued alone with `CS_n` = 1 it runs and emits its `SEL(1)` (log 34). -/
def execSelend (s : State) : Host.Outcome State Fault Refusal :=
  if bsy s then .refused .deselectWhileShifting else .next (runList [.select true] s).state

/-- WRCMD, `writeCommand(opcode)` (41_framing.md R142). -/
def execWrcmd (o : Byte) (s : State) : Host.Outcome State Fault Refusal := runFramed (commandList o) s

/-- WRDATA8, `writeDataByte(value)` (41_framing.md R143). -/
def execWrdata8 (v : Byte) (s : State) : Host.Outcome State Fault Refusal := runFramed (dataList v) s

/-- WRDATA16, `writeDataWord(value)` (41_framing.md R144). -/
def execWrdata16 (w : U16) (s : State) : Host.Outcome State Fault Refusal :=
  runFramed (wordList (.lit (hi w)) (.lit (lo w))) s

end Sys2Proof.Machine
end

