-- ==== Sys2Proof/Machine/Initializer.lean ====
section
/-! DEFINITION. The Panel Initializer (42_initializer.md): the nine configuration commands, the reset pulse, `INIT_SEQ`
and the operation `initialize()`. -/

namespace Sys2Proof.Machine

/-- Interface-mode select (42_initializer.md R154). -/
def ifmodeList (params : List Byte) : List Atom := parameterList OPC_IFMODE params

/-- Sleep-out and its settling delay (42_initializer.md R155). -/
def slpoutList : List Atom := commandList OPC_SLPOUT ++ [.hold .slpout]

/-- Pixel-format select (42_initializer.md R156). -/
def pixfmtList (p : Byte) : List Atom := parameterList OPC_PIXFMT [p]

/-- Memory-access-control (42_initializer.md R157). -/
def madctlList (p : Byte) : List Atom := parameterList OPC_MADCTL [p]

/-- Power-control-3 (42_initializer.md R158). -/
def pwctr3List (p : Byte) : List Atom := parameterList OPC_PWCTR3 [p]

/-- VCOM-control (42_initializer.md R159). -/
def vmctrList (params : List Byte) : List Atom := parameterList OPC_VMCTR params

/-- Positive gamma (42_initializer.md R160). -/
def pgammaList (params : List Byte) : List Atom := parameterList OPC_PGAMMA params

/-- Negative gamma (42_initializer.md R161). -/
def ngammaList (params : List Byte) : List Atom := parameterList OPC_NGAMMA params

/-- Display-on and its settling delay (42_initializer.md R162). -/
def disponList : List Atom := commandList OPC_DISPON ++ [.hold .dispon]

/-- The hardware reset pulse (42_initializer.md R152). -/
def resetPulseList : List Atom :=
  [.resetLine true, .hold .rstPre, .resetLine false, .hold .rstLow, .resetLine true, .hold .rstPost]

/-- The configuration commands in their fixed order (42_initializer.md R154 to R162). -/
def configurationList (c : Config) : List Atom :=
  ifmodeList c.ifmodeParams ++ slpoutList ++ pixfmtList PIXFMT_PARAM ++ madctlList MADCTL_PARAM ++
    pwctr3List PWCTR3_PARAM ++ vmctrList VMCTR_PARAMS ++ pgammaList c.gammaPos.toList ++ ngammaList c.gammaNeg.toList ++
    disponList

/-- `INIT_SEQ`, the complete list of `initialize()` (42_initializer.md R166). -/
def initList (c : Config) : List Atom :=
  [.config] ++ resetPulseList ++ [.select false] ++ configurationList c ++ [.select true, .setInitialized]

/-- The beginning of `initialize()` (42_initializer.md R150): its checks, then its list. -/
def startInit (s : State) : State :=
  if s.fault then raise STATUS_BUS_TIMEOUT s
  else
    match s.initState with
    | .initialized => raise STATUS_ALREADY_INITIALIZED s
    | .uninit => accept .init (initList s.cfg) s

/-- INIT, `initialize()` (42_initializer.md R150). -/
def execInit (s : State) : Host.Outcome State Fault Refusal := runRequest startInit s

/-- IFMODE, interface-mode-control with its parameters (42_initializer.md R154). -/
def execIfmode (params : List Byte) (s : State) : Host.Outcome State Fault Refusal := runFramed (ifmodeList params) s

/-- SLPOUT, sleep-out and the settling delay after it (42_initializer.md R155). -/
def execSlpout (s : State) : Host.Outcome State Fault Refusal := runFramed slpoutList s

/-- PIXFMT, pixel-format-set (42_initializer.md R156). -/
def execPixfmt (p : Byte) (s : State) : Host.Outcome State Fault Refusal := runFramed (pixfmtList p) s

/-- MADCTL, memory-access-control (42_initializer.md R157). -/
def execMadctl (p : Byte) (s : State) : Host.Outcome State Fault Refusal := runFramed (madctlList p) s

/-- PWCTR3, power-control-3 (42_initializer.md R158). -/
def execPwctr3 (p : Byte) (s : State) : Host.Outcome State Fault Refusal := runFramed (pwctr3List p) s

/-- VMCTR, VCOM-control (42_initializer.md R159). -/
def execVmctr (p0 p1 p2 p3 : Byte) (s : State) : Host.Outcome State Fault Refusal :=
  runFramed (vmctrList [p0, p1, p2, p3]) s

/-- PGAMMA, positive-gamma (42_initializer.md R160). -/
def execPgamma (params : List Byte) (s : State) : Host.Outcome State Fault Refusal := runFramed (pgammaList params) s

/-- NGAMMA, negative-gamma (42_initializer.md R161). -/
def execNgamma (params : List Byte) (s : State) : Host.Outcome State Fault Refusal := runFramed (ngammaList params) s

/-- DISPON, display-on and the settling delay after it (42_initializer.md R162). -/
def execDispon (s : State) : Host.Outcome State Fault Refusal := runFramed disponList s

end Sys2Proof.Machine
end

