-- ==== Sys2Proof/Machine/Streaming.lean ====
section
/-! DEFINITION. The Pixel Streaming Writer (44_streaming.md): one bracket, one `DCSET`, back-to-back pixels, one final
wait. -/

namespace Sys2Proof.Machine

/-- A streaming bracket around a pixel loop (44_streaming.md R180 to R182). -/
def streamList (loop : Atom) : List Atom := [.select false, .discriminate true, loop, .awaitIdle, .select true]

/-- The beginning of `streamFill` as a host operation (44_streaming.md R180). -/
def startStreamfill (count : U32) (color : U16) (s : State) : State :=
  whenInitialized
    (fun s =>
      accept .streamfill (streamList .fillLoop)
        (startBurst count { s with regs := { s.regs with color := color } })) s

/-- STREAMFILL, `streamFill(count, color)` (44_streaming.md R180). -/
def execStreamfill (count : U32) (color : U16) (s : State) : Host.Outcome State Fault Refusal :=
  runRequest (startStreamfill count color) s

/-- The beginning of `streamBuffer` as a host operation (44_streaming.md R181). -/
def startStreambuf (pixels : List U16) (s : State) : State :=
  whenInitialized
    (fun s =>
      accept .streambuf (streamList .bufLoop)
        (startBurst (BitVec.ofNat 32 pixels.length) { s with regs := { s.regs with src := pixels } })) s

/-- STREAMBUF, `streamBuffer(pixels)` (44_streaming.md R181). -/
def execStreambuf (pixels : List U16) (s : State) : Host.Outcome State Fault Refusal :=
  runRequest (startStreambuf pixels) s

end Sys2Proof.Machine
end

