-- ==== Sys2Proof/Machine/Window.lean ====
section
/-! DEFINITION. The Addressing Window (43_window.md): its three wire transactions and the operation `setWindow`. -/

namespace Sys2Proof.Machine

/-- An address command with the start and the end of its range, each as two bytes (43_window.md R171, R172). -/
def rangeList (o : Byte) (firstHi firstLo lastHi lastLo : ByteSrc) : List Atom :=
  commandList o ++ wordList firstHi firstLo ++ wordList lastHi lastLo

/-- Memory-write, with no data byte in its bracket (43_window.md R173). -/
def ramwrList : List Atom := commandList OPC_RAMWR

/-- The list of `setWindow` (43_window.md R170). -/
def windowList : List Atom :=
  [.select false] ++ rangeList OPC_CASET (.winHi .x0) (.winLo .x0) (.winHi .x1) (.winLo .x1) ++
    rangeList OPC_PASET (.winHi .y0) (.winLo .y0) (.winHi .y1) (.winLo .y1) ++ ramwrList ++ [.select true]

/-- `X0 <- x0 ; Y0 <- y0 ; X1 <- x1 ; Y1 <- y1` (43_window.md R170). -/
def latchWindow (x0 y0 x1 y1 : U16) (s : State) : State :=
  { s with regs := { s.regs with x0 := x0, y0 := y0, x1 := x1, y1 := y1 } }

/-- The beginning of `setWindow` as a host operation (43_window.md R170): bad coordinates are not checked (R175). -/
def startSetwin (x0 y0 x1 y1 : U16) (s : State) : State :=
  whenInitialized (fun s => accept .setwin windowList (latchWindow x0 y0 x1 y1 s)) s

/-- SETWIN, `setWindow(x0, y0, x1, y1)` (43_window.md R170). -/
def execSetwin (x0 y0 x1 y1 : U16) (s : State) : Host.Outcome State Fault Refusal :=
  runRequest (startSetwin x0 y0 x1 y1) s

/-- CASET, column-address-set (43_window.md R171). -/
def execCaset (first last : U16) (s : State) : Host.Outcome State Fault Refusal :=
  runFramed (rangeList OPC_CASET (.lit (hi first)) (.lit (lo first)) (.lit (hi last)) (.lit (lo last))) s

/-- PASET, page-address-set (43_window.md R172). -/
def execPaset (first last : U16) (s : State) : Host.Outcome State Fault Refusal :=
  runFramed (rangeList OPC_PASET (.lit (hi first)) (.lit (lo first)) (.lit (hi last)) (.lit (lo last))) s

/-- RAMWR, memory-write (43_window.md R173). -/
def execRamwr (s : State) : Host.Outcome State Fault Refusal := runFramed ramwrList s

end Sys2Proof.Machine
end

