-- ==== Sys2Proof/Machine/Raster.lean ====
section
/-! DEFINITION. The Raster Primitives (45_raster.md): checks, clipping, then `setWindow` and one stream operation as
parts of the same request. -/

namespace Sys2Proof.Machine

/-- `PX <- x ; PY <- y` (45_raster.md R190 to R192). -/
def latchAnchor (x y : U16) (s : State) : State := { s with regs := { s.regs with px := x, py := y } }

/-- `PW <- w ; PH <- h` (45_raster.md R191, R192). -/
def latchSize (w h : U16) (s : State) : State := { s with regs := { s.regs with pw := w, ph := h } }

/-- `COLOR <- color`. -/
def latchColor (c : U16) (s : State) : State := { s with regs := { s.regs with color := c } }

/-- `SRC <- pixels`. -/
def latchSource (px : List U16) (s : State) : State := { s with regs := { s.regs with src := px } }

/-- `(CW, CH) <- clip(PX, PY, PW, PH)` (45_raster.md R193). -/
def latchClip (s : State) : State :=
  { s with regs := { s.regs with cw := clipWidth s.regs.px s.regs.pw, ch := clipHeight s.regs.py s.regs.ph } }

/-- The window of the clipped region, `(PX, PY, PX + CW - 1, PY + CH - 1)` (45_raster.md R191). -/
def latchRegion (s : State) : State :=
  latchWindow s.regs.px s.regs.py (lastOf s.regs.px s.regs.cw) (lastOf s.regs.py s.regs.ch) s

/-- `drawPixel` after its checks and latches (45_raster.md R190). -/
def pixelList : List Atom := windowList ++ [.loadOne] ++ streamList .fillLoop

/-- `fillRect` after its checks and latches (45_raster.md R191). -/
def rectList : List Atom := windowList ++ [.loadRect] ++ streamList .fillLoop

/-- `drawImage` after its checks and latches (45_raster.md R192). -/
def imageList : List Atom := windowList ++ [.loadGather] ++ streamList .bufLoop

/-- The beginning of `drawPixel` (45_raster.md R190). -/
def startDrawpixel (x y color : U16) (s : State) : State :=
  whenInitialized
    (fun s =>
      let s := latchColor color (latchAnchor x y s)
      if offPanel s.regs.px s.regs.py then raise STATUS_OUT_OF_BOUNDS s
      else accept .drawpixel pixelList (latchWindow s.regs.px s.regs.py s.regs.px s.regs.py s)) s

/-- DRAWPIXEL, `drawPixel(x, y, color)` (45_raster.md R190). -/
def execDrawpixel (x y color : U16) (s : State) : Host.Outcome State Fault Refusal :=
  runRequest (startDrawpixel x y color) s

/-- The beginning of `fillRect` (45_raster.md R191, R194). -/
def startFillrect (x y w h color : U16) (s : State) : State :=
  whenInitialized
    (fun s =>
      let s := latchColor color (latchSize w h (latchAnchor x y s))
      if offPanel s.regs.px s.regs.py then raise STATUS_OUT_OF_BOUNDS s
      else if s.regs.pw = 0 ∨ s.regs.ph = 0 then raise STATUS_EMPTY_REGION s
      else accept .fillrect rectList (latchRegion (latchClip s))) s

/-- FILLRECT, `fillRect(x, y, w, h, color)` (45_raster.md R191). -/
def execFillrect (x y w h color : U16) (s : State) : Host.Outcome State Fault Refusal :=
  runRequest (startFillrect x y w h color) s

/-- The clipped size differs from the requested one (45_raster.md R192). -/
def clipped (r : Regs) : Bool := r.cw != r.pw || r.ch != r.ph

/-- The beginning of `drawImage` (45_raster.md R192, R194 to R196). -/
def startDrawimage (x y w h : U16) (pixels : List U16) (s : State) : State :=
  whenInitialized
    (fun s =>
      let s := latchSource pixels (latchSize w h (latchAnchor x y s))
      if offPanel s.regs.px s.regs.py then raise STATUS_OUT_OF_BOUNDS s
      else if s.regs.pw = 0 ∨ s.regs.ph = 0 then raise STATUS_EMPTY_REGION s
      else
        let s := latchClip s
        if s.cfg.blitClipMode = .reject ∧ clipped s.regs = true then raise STATUS_OUT_OF_BOUNDS s
        else if s.regs.src.length < (mul32 s.regs.pw s.regs.ph).toNat then raise STATUS_SHORT_BUFFER s
        else accept .drawimage imageList (latchRegion s)) s

/-- DRAWIMAGE, `drawImage(x, y, w, h, pixels)` (45_raster.md R192). -/
def execDrawimage (x y w h : U16) (pixels : List U16) (s : State) : Host.Outcome State Fault Refusal :=
  runRequest (startDrawimage x y w h pixels) s

end Sys2Proof.Machine
end

