-- ==== Sys2Proof/Machine/Transport.lean ====
section
/-! DEFINITION. The Bus Transport's micro-operations (40_transport.md) and the delay timer's (60_exceptions.md R239). -/

namespace Sys2Proof.Machine

/-- SENDBYTE, `sendByte(value)` (40_transport.md R130). -/
def execSendbyte (v : Byte) (s : State) : Host.Outcome State Fault Refusal :=
  .next (runList [.send (.lit v)] s).state

/-- WAITIDLE, `waitIdle()` (40_transport.md R131). -/
def execWaitidle (s : State) : Host.Outcome State Fault Refusal :=
  .next (runList [.awaitIdle] s).state

/-- DELAY, `delay(t)` (60_exceptions.md R239). -/
def execDelay (t : DelayTime) (s : State) : Host.Outcome State Fault Refusal :=
  .next (runList [.hold t] s).state

end Sys2Proof.Machine
end

