-- ==== Sys2Proof/Machine/Dispatch.lean ====
section
/-! DEFINITION. One arm per instruction of opcode_table.json. -/

namespace Sys2Proof.Machine

def exec (i : Instr) (s : State) : Host.Outcome State Fault Refusal :=
  match i with
  -- wire commands (30_encoding.md R95)
  | .ifmode params => Sys2Proof.Machine.execIfmode params s
  | .slpout => Sys2Proof.Machine.execSlpout s
  | .pixfmt p0 => Sys2Proof.Machine.execPixfmt p0 s
  | .madctl p0 => Sys2Proof.Machine.execMadctl p0 s
  | .pwctr3 p0 => Sys2Proof.Machine.execPwctr3 p0 s
  | .vmctr p0 p1 p2 p3 => Sys2Proof.Machine.execVmctr p0 p1 p2 p3 s
  | .pgamma params => Sys2Proof.Machine.execPgamma params s
  | .ngamma params => Sys2Proof.Machine.execNgamma params s
  | .dispon => Sys2Proof.Machine.execDispon s
  | .caset first last => Sys2Proof.Machine.execCaset first last s
  | .paset first last => Sys2Proof.Machine.execPaset first last s
  | .ramwr => Sys2Proof.Machine.execRamwr s
  -- host operations (30_encoding.md R100)
  | .init => Sys2Proof.Machine.execInit s
  | .setwin x0 y0 x1 y1 => Sys2Proof.Machine.execSetwin x0 y0 x1 y1 s
  | .streamfill count color => Sys2Proof.Machine.execStreamfill count color s
  | .streambuf pixels => Sys2Proof.Machine.execStreambuf pixels s
  | .drawpixel x y color => Sys2Proof.Machine.execDrawpixel x y color s
  | .fillrect x y w h color => Sys2Proof.Machine.execFillrect x y w h color s
  | .drawimage x y w h pixels => Sys2Proof.Machine.execDrawimage x y w h pixels s
  -- micro-operations (30_encoding.md R101)
  | .sendbyte v => Sys2Proof.Machine.execSendbyte v s
  | .waitidle => Sys2Proof.Machine.execWaitidle s
  | .selstart => Sys2Proof.Machine.execSelstart s
  | .selend => Sys2Proof.Machine.execSelend s
  | .wrcmd o => Sys2Proof.Machine.execWrcmd o s
  | .wrdata8 v => Sys2Proof.Machine.execWrdata8 v s
  | .wrdata16 w => Sys2Proof.Machine.execWrdata16 w s
  | .delay t => Sys2Proof.Machine.execDelay t s

end Sys2Proof.Machine
end

