-- ==== Sys2Proof/Machine/Sequencer.lean ====
section
/-! DEFINITION. The block move by move (10_state.md R20, R23, R29): acceptance of a request without running it, one move
of the sequencer with its re-tested waits (40_transport.md R136), and the schedule when nothing outside says who moves. -/

namespace Sys2Proof.Machine

/-- Present a host request and leave its moves to later steps (10_state.md R29). -/
def submit (i : Instr) (s : State) : Host.Outcome State Fault Refusal :=
  match i with
  | .init => .next (startInit s)
  | .setwin x0 y0 x1 y1 => .next (startSetwin x0 y0 x1 y1 s)
  | .streamfill n c => .next (startStreamfill n c s)
  | .streambuf px => .next (startStreambuf px s)
  | .drawpixel x y c => .next (startDrawpixel x y c s)
  | .fillrect x y w h c => .next (startFillrect x y w h c s)
  | .drawimage x y w h px => .next (startDrawimage x y w h px s)
  | .ifmode _ => .refused .noHostRequest
  | .slpout => .refused .noHostRequest
  | .pixfmt _ => .refused .noHostRequest
  | .madctl _ => .refused .noHostRequest
  | .pwctr3 _ => .refused .noHostRequest
  | .vmctr _ _ _ _ => .refused .noHostRequest
  | .pgamma _ => .refused .noHostRequest
  | .ngamma _ => .refused .noHostRequest
  | .dispon => .refused .noHostRequest
  | .caset _ _ => .refused .noHostRequest
  | .paset _ _ => .refused .noHostRequest
  | .ramwr => .refused .noHostRequest
  | .sendbyte _ => .refused .noHostRequest
  | .waitidle => .refused .noHostRequest
  | .selstart => .refused .noHostRequest
  | .selend => .refused .noHostRequest
  | .wrcmd _ => .refused .noHostRequest
  | .wrdata8 _ => .refused .noHostRequest
  | .wrdata16 _ => .refused .noHostRequest
  | .delay _ => .refused .noHostRequest

/-- A wait found its condition false (40_transport.md R136, 60_exceptions.md R237): the first test is no re-test; the
`N`-th failed re-test raises the timeout. -/
def failedTest (s : State) : State :=
  match s.cfg.busTimeout with
  | none => { s with waits := s.waits + 1 }
  | some n => if n ≤ s.waits then timeOut s else { s with waits := s.waits + 1 }

/-- The entry would break a caller's obligation the spec gives no step for (93_implementation_defined.md U3, U7), or
read a source pixel that does not exist (00_scope.md R9). The entries before a list's first change of the discriminator
are not stopped by a byte still in the transport, so a submitted request may open its bracket with `BSY` = 1: the model's
choice (log 16). -/
def Atom.stop (a : Atom) (s : State) : Option (Host.Outcome State Fault Refusal) :=
  match a with
  | .discriminate _ => if bsy s then some (.refused .discriminatorWhileShifting) else none
  | .select b => if b && bsy s then some (.refused .deselectWhileShifting) else none
  | .send src =>
    if src.readsSource && decide (s.regs.src.length ≤ s.regs.idx.toNat) then some (.fault .absentSourcePixel) else none
  | .config => none
  | .resetLine _ => none
  | .hold _ => none
  | .awaitIdle => none
  | .fillLoop => none
  | .bufLoop => none
  | .nextPixel => none
  | .loadOne => none
  | .loadRect => none
  | .loadGather => none
  | .setInitialized => none

/-- The entry's wait, if it has one, is over. -/
def Atom.ready (a : Atom) (s : State) : Bool :=
  match a.waitsFor with
  | none => true
  | some c => c.met s

/-- What is left of a list after an entry: a pixel loop with pixels to go puts its body and itself back in front. -/
def Atom.after (a : Atom) (rest : List Atom) (s : State) : List Atom :=
  match loopBody a with
  | [] => rest
  | b :: body => if s.regs.idx.toNat < s.regs.count.toNat then (b :: body) ++ a :: rest else rest

/-- The entry takes effect and the sequencer advances (10_state.md R23). -/
def advance (a : Atom) (rest : List Atom) (s : State) : State :=
  a.effect { s with seq := { s.seq with todo := a.after rest s }, waits := 0 }

/-- One move of the sequencer: the next entry, a failed test of its wait, or the end of the list. With no operation in
progress it has no move. -/
def seqMove (s : State) : Host.Outcome State Fault Refusal :=
  if s.busy then
    match s.seq.todo with
    | [] => .next (complete s)
    | a :: rest =>
      if a.ready s then
        match a.stop s with
        | some o => o
        | none => .next (advance a rest s)
      else .next (failedTest s)
  else .next s

/-- With no input the agents go on by themselves, the transport first (40_transport.md R135; log 4). -/
def autoMove (s : State) : Host.Outcome State Fault Refusal :=
  if bsy s then .next (txMove s) else seqMove s

end Sys2Proof.Machine
end

