-- ==== Sys2Proof/Machine/Step.lean ====
section
/-! DEFINITION. One step: the next input is taken, or, with none, the agents go on by themselves. -/

namespace Sys2Proof.Machine

/-- A presented form that decodes is run to its end; a reserved host code ends with `BAD_OP` (60_exceptions.md R234,
check 1); nothing may be presented while `BUSY` = 1 (60_exceptions.md R245). -/
def stepCall (e : Encoded) (s : State) : Host.Outcome State Fault Refusal :=
  if s.busy then .refused .requestWhileBusy
  else
    match decode e with
    | .ok i => exec i s
    | .error (.reservedOp _) => .next (badOp s)
    | .error why => .refused (.undecodable why)

/-- A presented host request is accepted and its moves are left to later steps (10_state.md R29). -/
def stepSubmit (e : Encoded) (s : State) : Host.Outcome State Fault Refusal :=
  if s.busy then .refused .requestWhileBusy
  else
    match decode e with
    | .ok i => submit i s
    | .error (.reservedOp _) => .next (badOp s)
    | .error why => .refused (.undecodable why)

/-- One step of the machine. -/
def step (s : State) : Host.Outcome State Fault Refusal :=
  match s.inputs with
  | [] => autoMove s
  | .call e :: rest => stepCall e { s with inputs := rest }
  | .submit e :: rest => stepSubmit e { s with inputs := rest }
  | .sequencer :: rest => seqMove { s with inputs := rest }
  | .transport :: rest => .next (txMove { s with inputs := rest })
  | .reset :: rest => .next (blockReset { s with inputs := rest })

/-- The row's instruction presented at the port, with no operation in progress, so that the next step runs it (log 7). -/
def State.withFetchWord (s : State) (nbits w : Nat) : State :=
  { s with busy := false, seq := Seq.idle, inputs := .call (tableForm nbits w) :: s.inputs }

end Sys2Proof.Machine
end

