-- ==== Sys2Proof/Safety.lean ====
section
/-! DEFINITION. The terms claims are stated in: what is still inside the transport, the wire and sequencer events of each
operation, when a request can run, what a run leaves, and the invariants. -/

namespace Sys2Proof.Machine

-- ## What is inside the transport

/-- The `BYTE` events of the bytes inside the transport, oldest first (10_state.md R28). -/
def inflight (s : State) : List Event :=
  (match s.bus.shreg with
    | some r => [.byte r.dc r.value]
    | none => []) ++
  (match s.bus.txbuf with
    | some v => [.byte s.lines.dc v]
    | none => [])

/-- The bits of a byte in wire order, bit 7 first (20_memory.md R62). -/
def msbFirst (v : Byte) : List Bool :=
  [v.getLsbD 7, v.getLsbD 6, v.getLsbD 5, v.getLsbD 4, v.getLsbD 3, v.getLsbD 2, v.getLsbD 1, v.getLsbD 0]

/-- The bits a shift register has left, in wire order (40_transport.md R133). -/
def ShiftReg.bitsLeft (r : ShiftReg) : List Bool := (msbFirst r.value).drop (7 - r.bit.val)

/-- The bits inside the transport, in wire order. -/
def pendingBits (s : State) : List Bool :=
  (match s.bus.shreg with
    | some r => r.bitsLeft
    | none => []) ++
  (match s.bus.txbuf with
    | some v => msbFirst v
    | none => [])

/-- The bits of an event: those of its byte, if it is one (30_encoding.md R91). -/
def Event.bits : Event → List Bool
  | .byte _ v => msbFirst v
  | .cfg => []
  | .rst _ => []
  | .sel _ => []
  | .dcset _ => []
  | .tx _ => []
  | .idle => []
  | .wait _ => []

/-- The bits of a run of events. -/
def bitsOf (es : List Event) : List Bool := es.flatMap Event.bits

-- ## The wire events and the sequencer's own events of each operation

/-- A command byte on the wire (41_framing.md R142). -/
def commandWire (o : Byte) : List Event := [.byte false o]

/-- Data bytes on the wire (41_framing.md R143). -/
def dataWire (vs : List Byte) : List Event := vs.map (Event.byte true)

/-- A transaction of format `WP` or `W0` on the wire (30_encoding.md R94). -/
def parameterWire (o : Byte) (vs : List Byte) : List Event := commandWire o ++ dataWire vs

/-- A transaction of format `WA` on the wire (30_encoding.md R94, R96). -/
def rangeWire (o : Byte) (first last : U16) : List Event :=
  parameterWire o [hi first, lo first, hi last, lo last]

/-- The wire trace of `setWindow` (43_window.md R170). -/
def windowWire (x0 y0 x1 y1 : U16) : List Event :=
  [Event.sel false] ++ rangeWire OPC_CASET x0 x1 ++ rangeWire OPC_PASET y0 y1 ++ commandWire OPC_RAMWR ++ [Event.sel true]

/-- A pixel on the wire, high byte first (30_encoding.md R97). -/
def pixelWire (c : U16) : List Event := dataWire [hi c, lo c]

/-- The wire trace of a streaming bracket (44_streaming.md R180, R181). -/
def streamWire (px : List U16) : List Event := [.sel false] ++ px.flatMap pixelWire ++ [.sel true]

/-- The reset pulse on the wire (42_initializer.md R152). -/
def resetPulseWire (c : Config) : List Event :=
  [Event.rst true, Event.wait c.tRstPre, Event.rst false, Event.wait c.tRstLow, Event.rst true, Event.wait c.tRstPost]

/-- The configuration commands on the wire, in order (42_initializer.md R154 to R162). -/
def configurationWire (c : Config) : List Event :=
  parameterWire 0xB0 c.ifmodeParams ++ commandWire 0x11 ++ [Event.wait c.tSlpout] ++ parameterWire 0x3A [0x55] ++
    parameterWire 0x36 [0x28] ++ parameterWire 0xC2 [0x44] ++ parameterWire 0xC5 [0x00, 0x00, 0x00, 0x00] ++
    parameterWire 0xE0 c.gammaPos.toList ++ parameterWire 0xE1 c.gammaNeg.toList ++ commandWire 0x29 ++ [Event.wait c.tDispon]

/-- The wire trace of `initialize()` (42_initializer.md R166). -/
def initWire (c : Config) : List Event :=
  resetPulseWire c ++ [Event.sel false] ++ configurationWire c ++ [Event.sel true]

/-- The sequencer's events of one framing primitive: one `DCSET`, its `TX` events, one `IDLE` (41_framing.md R142 to
R144). -/
def frameCalls (d : Bool) (vs : List Byte) : List Event := [Event.dcset d] ++ vs.map Event.tx ++ [Event.idle]

/-- The sequencer's events of a transaction whose parameters go out byte by byte. -/
def parameterCalls (o : Byte) (vs : List Byte) : List Event :=
  frameCalls false [o] ++ vs.flatMap (fun v => frameCalls true [v])

/-- The sequencer's events of an address command: one `writeCommand`, two `writeDataWord` (43_window.md R171). -/
def rangeCalls (o : Byte) (first last : U16) : List Event :=
  frameCalls false [o] ++ frameCalls true [hi first, lo first] ++ frameCalls true [hi last, lo last]

/-- The sequencer's events of `setWindow` (43_window.md R170). -/
def windowCalls (x0 y0 x1 y1 : U16) : List Event :=
  [Event.sel false] ++ rangeCalls OPC_CASET x0 x1 ++ rangeCalls OPC_PASET y0 y1 ++ frameCalls false [OPC_RAMWR] ++ [Event.sel true]

/-- The sequencer's events of a streaming bracket: one `DCSET`, the `TX` events, one `IDLE` (44_streaming.md R182). -/
def streamCalls (px : List U16) : List Event :=
  [Event.sel false] ++ frameCalls true (px.flatMap (fun c => [hi c, lo c])) ++ [Event.sel true]

/-- The sequencer's events of `initialize()` (42_initializer.md R166). -/
def initCalls (c : Config) : List Event :=
  [Event.cfg] ++ resetPulseWire c ++ [Event.sel false] ++ parameterCalls 0xB0 c.ifmodeParams ++ frameCalls false [0x11] ++
    [Event.wait c.tSlpout] ++ parameterCalls 0x3A [0x55] ++ parameterCalls 0x36 [0x28] ++ parameterCalls 0xC2 [0x44] ++
    parameterCalls 0xC5 [0x00, 0x00, 0x00, 0x00] ++ parameterCalls 0xE0 c.gammaPos.toList ++
    parameterCalls 0xE1 c.gammaNeg.toList ++ frameCalls false [0x29] ++ [.wait c.tDispon] ++ [.sel true]

-- ## When a request can run, and what a run leaves

/-- No request is in progress, the transport is idle and waits are unbounded, the reference behaviour
(10_state.md R38, 40_transport.md R136). -/
abbrev CanRun (s : State) : Prop :=
  s.busy = false ∧ s.bus = Transport.empty ∧ s.cfg.busTimeout = none

/-- Every operation but `INIT` executes normally (60_exceptions.md R232): it can run, no fault is latched, and
`initialize()` has completed. -/
abbrev InService (s : State) : Prop :=
  CanRun s ∧ s.fault = false ∧ s.initState = .initialized

/-- The block is between operations (10_state.md R38). -/
abbrev Between (s : State) : Prop :=
  s.busy = false ∧ s.lines.csN = true ∧ s.bus = Transport.empty ∧ s.seq = Seq.idle ∧ s.lines.sck = false

/-- The transport is idle and waits are unbounded. -/
abbrev BusFree (s : State) : Prop := s.bus = Transport.empty ∧ s.cfg.busTimeout = none

/-- What the transport's own moves leave alone: every register, flag and line but `SCK`, which returns low, and `MOSI`
(40_transport.md R137). -/
structure SameControl (s t : State) : Prop where
  cfg_eq : t.cfg = s.cfg
  regs_eq : t.regs = s.regs
  seq_eq : t.seq = s.seq
  initState_eq : t.initState = s.initState
  busy_eq : t.busy = s.busy
  fault_eq : t.fault = s.fault
  status_eq : t.status = s.status
  waits_eq : t.waits = s.waits
  inputs_eq : t.inputs = s.inputs
  csN_eq : t.lines.csN = s.lines.csN
  dc_eq : t.lines.dc = s.lines.dc
  rstN_eq : t.lines.rstN = s.lines.rstN
  sck_eq : s.lines.sck = false → t.lines.sck = false

/-- `t` is `s` after the wire events `w` and the sequencer's events `c`, its transport idle again. Nothing is said of
the order of `BYTE` events among the others, nor of `MOSI`, which is unspecified between bytes (30_encoding.md R91). -/
structure Sent (s t : State) (w c : List Event) : Prop where
  wire_eq : wire t = wire s ++ w
  calls_eq : calls t = calls s ++ c
  panel_eq : t.panel = s.panel.feed s.cfg.panelWrap w
  samples_eq : t.samples = s.samples ++ bitsOf w
  bus_eq : t.bus = Transport.empty
  sck_eq : s.lines.sck = false → t.lines.sck = false
  cfg_eq : t.cfg = s.cfg
  inputs_eq : t.inputs = s.inputs
  fault_eq : t.fault = s.fault

/-- A micro-operation or wire transaction sent `w` and left the level `d` on `DC`; every register, flag and other line
is as before. -/
structure SentOnly (s t : State) (d : Bool) (w c : List Event) : Prop extends Sent s t w c where
  regs_eq : t.regs = s.regs
  seq_eq : t.seq = s.seq
  initState_eq : t.initState = s.initState
  busy_eq : t.busy = s.busy
  status_eq : t.status = s.status
  waits_eq : t.waits = s.waits
  csN_eq : t.lines.csN = s.lines.csN
  dc_eq : t.lines.dc = d
  rstN_eq : t.lines.rstN = s.lines.rstN

/-- A request ran its whole list (60_exceptions.md R231, code 0), sent `w`, left the registers at `r` and the level `d`
on `DC`, and the block is between operations as far as it was before. -/
structure Completed (s t : State) (r : Regs) (d : Bool) (w c : List Event) : Prop extends Sent s t w c where
  regs_eq : t.regs = r
  seq_eq : t.seq = Seq.idle
  busy_eq : t.busy = false
  status_eq : t.status = STATUS_OK
  waits_eq : t.waits = 0
  csN_eq : t.lines.csN = true
  dc_eq : t.lines.dc = d

/-- A request other than `INIT` ran its whole list: `INIT_STATE` and `RST_n` are as before as well (10_state.md R24,
R26). -/
structure Served (s t : State) (r : Regs) (d : Bool) (w c : List Event) : Prop extends Completed s t r d w c where
  initState_eq : t.initState = s.initState
  rstN_eq : t.lines.rstN = s.lines.rstN

/-- A request ended early with a status, its operand latches left at `r` (60_exceptions.md R235): nothing else changed. -/
def rejected (code : BitVec 4) (r : Regs) (s : State) : State :=
  { s with regs := r, status := code, seq := Seq.idle, busy := false, waits := 0 }

/-- `k` steps, stopping at the first fault or refusal. -/
def steps : Nat → State → Host.Outcome State Fault Refusal
  | 0, s => .next s
  | k + 1, s =>
    match step s with
    | .next t => steps k t
    | .fault r => .fault r
    | .refused r => .refused r

/-- The input is a move of the sequencer or of the transport. -/
def Input.isMove : Input → Bool
  | .sequencer => true
  | .transport => true
  | .call _ => false
  | .submit _ => false
  | .reset => false

/-- A `BYTE` event. -/
def Event.isByte : Event → Bool
  | .byte _ _ => true
  | .cfg => false
  | .rst _ => false
  | .sel _ => false
  | .dcset _ => false
  | .tx _ => false
  | .idle => false
  | .wait _ => false

/-- The registers of 10_state.md R22 after `fillRect` or `drawImage` latched its operands, clipped them, latched its
window and streamed the whole region (45_raster.md R191, R192); `COLOR` and `SRC` are not among them. -/
def regionRegs (r : Regs) (x y w h : U16) : Regs :=
  { r with
    px := x, py := y, pw := w, ph := h, cw := clipWidth x w, ch := clipHeight y h,
    x0 := x, y0 := y, x1 := lastOf x (clipWidth x w), y1 := lastOf y (clipHeight y h),
    count := mul32 (clipWidth x w) (clipHeight y h), idx := mul32 (clipWidth x w) (clipHeight y h) }

/-- The observer has the window `(x0, y0, x1, y1)` and awaits pixel data with its write pointer at `q` and no half pixel
pending (46_panel_observer.md R211). -/
def Panel.armed (p : Panel) (x0 y0 x1 y1 : U16) (q : PixelPtr) : Prop :=
  p.ok = true ∧ p.sc = some x0 ∧ p.ec = some x1 ∧ p.sp = some y0 ∧ p.ep = some y1 ∧ p.cmd = some OPC_RAMWR ∧
    p.ptr = q ∧ p.half = none

/-- Armed with the write pointer at the cell `(c, r)` (43_window.md R174). -/
def Panel.armedAt (p : Panel) (x0 y0 x1 y1 c r : U16) : Prop := p.armed x0 y0 x1 y1 (.cell c r)

-- ## Invariants

/-- The observer is a function of the wire trace alone (46_panel_observer.md R200, 00_scope.md R11), wherever the numbering
of the free values starts (log 21). -/
def ObserverFollowsWire (s : State) : Prop :=
  ∃ k, s.panel = Panel.observe s.cfg.panelWrap k (wire s)

/-- A range the observer has taken lies inside the panel. -/
def rangeInside (a b : Option U16) (bound : Nat) : Prop :=
  match a, b with
  | some x, some y => x.toNat ≤ y.toNat ∧ y.toNat < bound
  | none, none => True
  | some _, none => False
  | none, some _ => False

/-- The write pointer lies inside the panel. -/
def PixelPtr.inside : PixelPtr → Prop
  | .cell c r => c.toNat < WIDTH ∧ r.toNat < HEIGHT
  | .unspecified => True
  | .pastEnd => True

/-- The observer's window and pointer lie inside the panel, and the frame memory and `P_REG` are in canonical form with
every listed cell a cell of the panel (46_panel_observer.md R200, R210, R211). -/
def PanelInside (p : Panel) : Prop :=
  rangeInside p.sc p.ec WIDTH ∧ rangeInside p.sp p.ep HEIGHT ∧ p.ptr.inside ∧ p.gram.wf ∧
    (∀ cell ∈ p.gram, cell.1 < WIDTH * HEIGHT) ∧ p.reg.Pairwise (fun a b => a.1 < b.1)

/-- The line discipline at every moment (70_reset_and_hazards.md R266, 10_state.md R26): the byte being shifted has the
class that `DC` still shows, and `SCK` is low between clock pulses. -/
def LinesDisciplined (s : State) : Prop :=
  (∀ r, s.bus.shreg = some r → r.dc = s.lines.dc) ∧ s.lines.sck = false

/-- The byte a `TX` event names. -/
def Event.enqueued : Event → Option Byte
  | .tx v => some v
  | .byte _ _ => none
  | .cfg => none
  | .rst _ => none
  | .sel _ => none
  | .dcset _ => none
  | .idle => none
  | .wait _ => none

/-- The byte a `BYTE` event names. -/
def Event.completed : Event → Option Byte
  | .byte _ v => some v
  | .tx _ => none
  | .cfg => none
  | .rst _ => none
  | .sel _ => none
  | .dcset _ => none
  | .idle => none
  | .wait _ => none

/-- The bytes enqueued, in order (40_transport.md R130). -/
def txValues (es : List Event) : List Byte := es.filterMap Event.enqueued

/-- The bytes completed, in order (40_transport.md R134). -/
def byteValues (es : List Event) : List Byte := es.filterMap Event.completed

/-- The bytes enqueued are, value by value and in order, those on the wire and then those still inside the transport
(20_memory.md R70), and every bit of them was sampled or is still to be shifted (30_encoding.md R91). -/
def BytesAccountedFor (s : State) : Prop :=
  txValues s.trace = byteValues s.trace ++ byteValues (inflight s) ∧
    (s.samples ++ pendingBits s) = bitsOf (wire s ++ inflight s)

/-- The control state is legal: `STATUS` holds one of its eight codes (60_exceptions.md R231), and with `BUSY` = 0 the
sequencer is idle (10_state.md R29). -/
def ControlLegal (s : State) : Prop :=
  s.status.toNat < 8 ∧ (s.busy = false → s.seq = Seq.idle)

/-- The observer is initialized and not poisoned, with no settling time owed and no context left open
(46_panel_observer.md R209): pixel data and window commands mean what the document says. -/
def PanelReady (p : Panel) : Prop :=
  p.ok = true ∧ p.settle = 0 ∧ p.pulse = .quiet ∧ p.unfinished = false ∧ p.takesPixels = true ∧ p.displayOn = true

end Sys2Proof.Machine
end

