-- ==== Sys2Proof/Certificates/Slice0/Obligations.lean ====
section
/-! DEFINITION. The statements for the provers: encodings, the transport, the micro-operations, the wire commands, the
host operations, early ends, the panel observer, and what every step keeps. -/

open Sys2Proof Sys2Proof.Machine

-- # Encodings and presentation

/-- Every well-formed instruction of the three layers is what its encoded form decodes to (30_encoding.md R94, R95, R99 to
R101). -/
def Obligations.DecodeEncodeRoundTrip : Prop :=
  ∀ i : Instr, i.wellFormed = true → decode (encode i) = .ok i

/-- What is decoded is well formed and belongs to the layer it was presented in (30_encoding.md R90), and a wire transaction
that decodes is the one its instruction encodes to: no two transactions mean the same (R94, R95). -/
def Obligations.DecodedIsWellFormedAndUnique : Prop :=
  ∀ (e : Encoded) (i : Instr), decode e = .ok i →
    i.wellFormed = true ∧
      i.layer = (match e with | .wire _ => Layer.wire | .host _ => Layer.host | .uop _ => Layer.uop) ∧
      ∀ b, e = .wire b → encode i = .wire b

/-- A few words written out from 30_encoding.md R95, R96, R100, and two micro-operation words by the labels of R101; where
such a word holds its operand is the model's (log 5). -/
def Obligations.WrittenOutWordsDecode : Prop :=
  decode (.wire [⟨false, 0x11⟩]) = .ok .slpout ∧
  decode (.wire [⟨false, 0x3A⟩, ⟨true, 0x55⟩]) = .ok (.pixfmt 0x55) ∧
  decode (.wire [⟨false, 0xC5⟩, ⟨true, 0x00⟩, ⟨true, 0x01⟩, ⟨true, 0x02⟩, ⟨true, 0x03⟩]) =
    .ok (.vmctr 0x00 0x01 0x02 0x03) ∧
  decode (.wire [⟨false, 0x2A⟩, ⟨true, 0x00⟩, ⟨true, 0x00⟩, ⟨true, 0x01⟩, ⟨true, 0x3F⟩]) = .ok (.caset 0 319) ∧
  decode (.wire [⟨false, 0x2B⟩, ⟨true, 0x00⟩, ⟨true, 0x01⟩, ⟨true, 0x01⟩, ⟨true, 0xDF⟩]) = .ok (.paset 1 479) ∧
  decode (.host { blankRequest 0x5 with a0 := 319, a1 := 479, color := 0xF800 }) = .ok (.drawpixel 319 479 0xF800) ∧
  decode (.host (blankRequest 0x1)) = .ok .init ∧
  decode (.uop { label := 6, arg := 0x013F, time := 0 }) = .ok (.wrdata16 0x013F) ∧
  decode (.uop { label := 4, arg := 0x002C, time := 0 }) = .ok (.wrcmd 0x2C)

/-- A receiver sees where a transaction ends by the next command byte (30_encoding.md R92): a transaction followed by
nothing, or by a command byte and anything, is split off whole. -/
def Obligations.TransactionIsSelfDelimiting : Prop :=
  ∀ (i : Instr) (b rest : List WireByte), encode i = .wire b → (∀ n ∈ rest.head?, n.dc = false) →
    splitTransaction (b ++ rest) = (b, rest)

/-- The operand fields an operation does not use are ignored (30_encoding.md R99, R102 (d)): two requests that agree on the
operation and on the fields it uses are the same instruction. -/
def Obligations.UnusedOperandFieldsAreIgnored : Prop :=
  ∀ r q : HostRequest, r.op = q.op →
    (r.op = 0x1 → decodeHost r = decodeHost q) ∧
    (r.op = 0x2 → r.a0 = q.a0 → r.a1 = q.a1 → r.a2 = q.a2 → r.a3 = q.a3 → decodeHost r = decodeHost q) ∧
    (r.op = 0x3 → r.color = q.color → r.count = q.count → decodeHost r = decodeHost q) ∧
    (r.op = 0x4 → r.src = q.src → decodeHost r = decodeHost q) ∧
    (r.op = 0x5 → r.a0 = q.a0 → r.a1 = q.a1 → r.color = q.color → decodeHost r = decodeHost q) ∧
    (r.op = 0x6 → r.a0 = q.a0 → r.a1 = q.a1 → r.a2 = q.a2 → r.a3 = q.a3 → r.color = q.color →
      decodeHost r = decodeHost q) ∧
    (r.op = 0x7 → r.a0 = q.a0 → r.a1 = q.a1 → r.a2 = q.a2 → r.a3 = q.a3 → r.src = q.src →
      decodeHost r = decodeHost q)

/-- A request with a reserved code ends with `BAD_OP`, whether it is called or submitted, and nothing else changes
(30_encoding.md R102 (a), 60_exceptions.md R234 check 1). -/
def Obligations.ReservedHostCodeEndsWithBadOp : Prop :=
  ∀ (s : State) (q : HostRequest) (rest : List Input), s.busy = false → (q.op = 0x0 ∨ 0x8 ≤ q.op) →
    step { s with inputs := .call (.host q) :: rest } =
        .next (rejected STATUS_BAD_OP s.regs { s with inputs := rest }) ∧
      step { s with inputs := .submit (.host q) :: rest } =
        .next (rejected STATUS_BAD_OP s.regs { s with inputs := rest })

/-- A step with a presented form runs the instruction it decodes to, on the state without that input; while `BUSY` = 1 it
is refused (60_exceptions.md R245), and so is a form that decodes to nothing. An opcode table's word, placed where the next
step takes it, is run by that step. How forms are presented is the model's own (log 1, log 5, log 7), and so is refusing the
wire commands and micro-operations while `BUSY` = 1, where R245 refuses a request (log 17). That a form that decodes to
nothing is refused is the model's choice too: byte runs that are no row of the table (log 35), an operand of DELAY that names
nothing (log 5), a source sequence too long for `COUNT` (log 26). -/
def Obligations.StepRunsThePresentedInstruction : Prop :=
  ∀ (s : State) (e : Encoded) (rest : List Input),
    (s.busy = false → ∀ i, decode e = .ok i →
      step { s with inputs := .call e :: rest } = exec i { s with inputs := rest }) ∧
    (s.busy = true →
      step { s with inputs := .call e :: rest } = .refused .requestWhileBusy ∧
      step { s with inputs := .submit e :: rest } = .refused .requestWhileBusy) ∧
    (s.busy = false → ∀ x, decode e = .error x → (∀ op, x ≠ .reservedOp op) →
      step { s with inputs := .call e :: rest } = .refused (.undecodable x)) ∧
    (∀ nbits w i, decodeTableWord nbits w = some i →
      step (s.withFetchWord nbits w) = exec i { s with busy := false, seq := Seq.idle })

/-- A submitted request that passes its checks is only accepted (10_state.md R29): what its operands do to the registers,
`BUSY` = 1, the sequencer at the first entry of the list, no event, and every other item as before. For each of the seven
operations, from a block with `BUSY` = 0 and `FAULT` = 0 (42_initializer.md R150, 43_window.md R170, 44_streaming.md R180
and R181, 45_raster.md R190 to R193). That the sequencer's position is a list of entries is the model's (log 13). -/
def Obligations.AcceptanceLatchesAndSetsBusy : Prop :=
  ∀ (s : State) (e : Encoded) (rest : List Input), s.busy = false → s.fault = false →
    (decode e = .ok .init → s.initState = .uninit →
      step { s with inputs := .submit e :: rest } =
        .next { s with inputs := rest, busy := true, seq := { op := some .init, todo := initList s.cfg } }) ∧
    (s.initState = .initialized →
      (∀ x0 y0 x1 y1, decode e = .ok (.setwin x0 y0 x1 y1) →
        step { s with inputs := .submit e :: rest } =
          .next { s with
            inputs := rest, regs := { s.regs with x0 := x0, y0 := y0, x1 := x1, y1 := y1 }
            busy := true, seq := { op := some .setwin, todo := windowList } }) ∧
      (∀ n c, decode e = .ok (.streamfill n c) →
        step { s with inputs := .submit e :: rest } =
          .next { s with
            inputs := rest, regs := { s.regs with count := n, color := c, idx := 0 }
            busy := true, seq := { op := some .streamfill, todo := streamList .fillLoop } }) ∧
      (∀ px, px.length < 2 ^ 32 → decode e = .ok (.streambuf px) →
        step { s with inputs := .submit e :: rest } =
          .next { s with
            inputs := rest, regs := { s.regs with src := px, count := BitVec.ofNat 32 px.length, idx := 0 }
            busy := true, seq := { op := some .streambuf, todo := streamList .bufLoop } }) ∧
      ∀ x y : U16, x.toNat < 320 → y.toNat < 480 →
        (∀ c, decode e = .ok (.drawpixel x y c) →
          step { s with inputs := .submit e :: rest } =
            .next { s with
              inputs := rest
              regs := { s.regs with px := x, py := y, color := c, x0 := x, y0 := y, x1 := x, y1 := y }
              busy := true, seq := { op := some .drawpixel, todo := pixelList } }) ∧
        ∀ w h : U16, w ≠ 0 → h ≠ 0 →
          (∀ c, decode e = .ok (.fillrect x y w h c) →
            step { s with inputs := .submit e :: rest } =
              .next { s with
                inputs := rest
                regs := { s.regs with
                  px := x, py := y, pw := w, ph := h, cw := clipWidth x w, ch := clipHeight y h, color := c,
                  x0 := x, y0 := y, x1 := lastOf x (clipWidth x w), y1 := lastOf y (clipHeight y h) }
                busy := true, seq := { op := some .fillrect, todo := rectList } }) ∧
          ∀ px, w.toNat * h.toNat ≤ px.length →
            (s.cfg.blitClipMode = .reject → clipWidth x w = w ∧ clipHeight y h = h) →
            decode e = .ok (.drawimage x y w h px) →
            step { s with inputs := .submit e :: rest } =
              .next { s with
                inputs := rest
                regs := { s.regs with
                  px := x, py := y, pw := w, ph := h, cw := clipWidth x w, ch := clipHeight y h, src := px,
                  x0 := x, y0 := y, x1 := lastOf x (clipWidth x w), y1 := lastOf y (clipHeight y h) }
                busy := true, seq := { op := some .drawimage, todo := imageList } })

-- # The transport

/-- The load step (40_transport.md R132): with the shift register inactive the byte leaves the buffer, `DC` is latched with
it, eight bits are to go, and no event is made. A shift step (R133, R134): the most significant bit left is sampled; `SCK`
ends low; the last one completes the byte with its `BYTE` event, the only thing the panel hears. The bit index, the
pulse as one step and the list of samples are the model's (log 18). -/
def Obligations.TransportLoadsAndShifts : Prop :=
  ∀ (s : State) (rest : List Input),
    (∀ v, s.bus = { txbuf := some v, shreg := none } →
      step { s with inputs := .transport :: rest } =
        .next { s with
          inputs := rest, bus := { txbuf := none, shreg := some { value := v, bit := 7, dc := s.lines.dc } } }) ∧
    (∀ r, s.bus.shreg = some r →
      ∃ t, step { s with inputs := .transport :: rest } = .next t ∧
        t.samples = s.samples ++ [r.value.getLsbD r.bit.val] ∧
        t.lines = { s.lines with sck := false, mosi := r.value.getLsbD r.bit.val } ∧
        t.bus.txbuf = s.bus.txbuf ∧
        (0 < r.bit.val →
          (∃ q, t.bus.shreg = some q ∧ q.value = r.value ∧ q.dc = r.dc ∧ q.bit.val + 1 = r.bit.val) ∧
            t.trace = s.trace ∧ t.panel = s.panel) ∧
        (r.bit.val = 0 →
          t.bus.shreg = none ∧ t.trace = s.trace ++ [.byte r.dc r.value] ∧
            t.panel = s.panel.onByte s.cfg.panelWrap r.dc r.value) ∧
        SameControl { s with inputs := rest } t)

/-- The transport is first-in first-out and loses nothing (20_memory.md R70): over any run of its moves the oldest of the
bytes inside reach the wire, where the panel hears them and nothing else, and the others stay inside in their order; the
bits sampled and the bits to go, most significant first (R62), stay what they were; it drives no other line and no flag (40_transport.md R137), and the sequencer's own events stay what they
were; 17 moves empty it, whatever it held (R135). -/
def Obligations.TransportKeepsOrderAndDrains : Prop :=
  ∀ (n : Nat) (s : State) (rest : List Input),
    ∃ t w, steps n { s with inputs := List.replicate n .transport ++ rest } = .next t ∧
      wire t = wire s ++ w ∧ inflight s = w ++ inflight t ∧ t.panel = s.panel.feed s.cfg.panelWrap w ∧ calls t = calls s ∧
      t.samples ++ pendingBits t = s.samples ++ pendingBits s ∧ SameControl { s with inputs := rest } t ∧
      (17 ≤ n → t.bus = Transport.empty)

-- # Micro-operations

/-- SENDBYTE with unbounded waits (40_transport.md R130): the byte is in the transmit buffer behind whatever was there, one
`TX` event, no line but the transport's own touched; the panel hears only the bytes that reached the wire meanwhile. -/
def Obligations.SendbyteEnqueuesTheByte : Prop :=
  ∀ (s : State) (v : Byte), s.cfg.busTimeout = none →
    ∃ t w, exec (.sendbyte v) s = .next t ∧ t.bus.txbuf = some v ∧ txe t = false ∧ bsy t = true ∧
      wire t = wire s ++ w ∧ inflight s ++ [Event.byte s.lines.dc v] = w ++ inflight t ∧
      t.panel = s.panel.feed s.cfg.panelWrap w ∧ calls t = calls s ++ [Event.tx v] ∧
      t.samples ++ pendingBits t = s.samples ++ pendingBits s ++ msbFirst v ∧ SameControl s t

/-- WAITIDLE with unbounded waits (40_transport.md R131): every byte sent so far is on the wire, the transport is idle,
one `IDLE` event; with the transport idle already, and a schedule that holds nothing (log 3), it returns at once with that
event alone, whatever the bound on waits. -/
def Obligations.WaitidleDrainsTheTransport : Prop :=
  ∀ s : State,
    (s.cfg.busTimeout = none →
      ∃ t, exec .waitidle s = .next t ∧ t.bus = Transport.empty ∧ txe t = true ∧ bsy t = false ∧
        wire t = wire s ++ inflight s ∧ calls t = calls s ++ [.idle] ∧
        t.panel = s.panel.feed s.cfg.panelWrap (inflight s) ∧
        t.samples = s.samples ++ pendingBits s ∧ SameControl s t) ∧
    (s.bus = Transport.empty → s.sched = [] → exec .waitidle s = .next { s with trace := s.trace ++ [.idle] })

/-- DELAY (60_exceptions.md R239): one `WAIT` event carrying the duration, which the observer hears
(46_panel_observer.md R202, R218), and nothing else of the block changes. A delay is taken as instantaneous (log 19). -/
def Obligations.DelayOnlyMarksTime : Prop :=
  ∀ (s : State) (d : DelayTime),
    exec (.delay d) s =
      .next { s with
        trace := s.trace ++ [.wait (delayMicros s.cfg d)]
        panel := s.panel.onWait (delayMicros s.cfg d) }

/-- SELSTART (41_framing.md R140): `CS_n` falls, one `SEL(0)` event, nothing else of the block changes; that it runs so with
`CS_n` = 0 or `BSY` = 1 too, and SELEND with `CS_n` = 1, is the model's choice (log 34). SELEND (R141): with
the transport idle `CS_n` rises, one `SEL(1)` event, nothing else of the block changes; with a byte still inside the
transport there is no step (93_implementation_defined.md U3; log 16). -/
def Obligations.SelectMovesOneLine : Prop :=
  ∀ s : State,
    exec .selstart s =
      .next { s with
        lines := { s.lines with csN := false }, trace := s.trace ++ [.sel false], panel := s.panel.onSel false } ∧
    (bsy s = false →
      exec .selend s =
        .next { s with
          lines := { s.lines with csN := true }, trace := s.trace ++ [.sel true], panel := s.panel.onSel true }) ∧
    (bsy s = true → exec .selend s = .refused .deselectWhileShifting)

/-- WRCMD (41_framing.md R142): exactly one command byte on the wire, `DCSET(0)`, `TX`, `IDLE`, `DC` left low, the
transport idle, everything else as before. -/
def Obligations.WrcmdSendsOneCommandByte : Prop :=
  ∀ (s : State) (o : Byte), BusFree s →
    ∃ t, exec (.wrcmd o) s = .next t ∧ SentOnly s t false [.byte false o] [.dcset false, .tx o, .idle]

/-- WRDATA8 (41_framing.md R143): exactly one data byte on the wire, `DCSET(1)`, `TX`, `IDLE`, `DC` left high. -/
def Obligations.Wrdata8SendsOneDataByte : Prop :=
  ∀ (s : State) (v : Byte), BusFree s →
    ∃ t, exec (.wrdata8 v) s = .next t ∧ SentOnly s t true [.byte true v] [.dcset true, .tx v, .idle]

/-- WRDATA16 (41_framing.md R144): two data bytes, the most significant first, one `DCSET(1)`, two `TX`, one `IDLE`. -/
def Obligations.Wrdata16SendsHighByteFirst : Prop :=
  ∀ (s : State) (w : U16), BusFree s →
    ∃ t, exec (.wrdata16 w) s = .next t ∧
      SentOnly s t true [.byte true (w.extractLsb' 8 8), .byte true (w.extractLsb' 0 8)]
        [.dcset true, .tx (w.extractLsb' 8 8), .tx (w.extractLsb' 0 8), .idle]

/-- WRDATA16 while the panel takes pixels stores that word at the write pointer and in no other cell, and the pointer
goes on left to right, then top to bottom (46_panel_observer.md R211). With the pointer past the window's end
(R213 (c)): with `PANEL_WRAP` = `UNSPECIFIED` the observer claims nothing any more, with `WRAP_TO_WINDOW_START` the word
goes to the window's first cell and the pointer goes on from there. -/
def Obligations.Wrdata16StoresOnePixel : Prop :=
  ∀ (s : State) (w x0 y0 x1 y1 : U16), BusFree s → PanelReady s.panel → s.panel.sel = true →
    (∀ c r : U16, s.panel.armedAt x0 y0 x1 y1 c r → c.toNat < WIDTH → r.toNat < HEIGHT →
      ∃ t, exec (.wrdata16 w) s = .next t ∧ t.panel.ok = true ∧ t.panel.gram.read c.toNat r.toNat = some w ∧
        (∀ i j, i < WIDTH → j < HEIGHT → (i ≠ c.toNat ∨ j ≠ r.toNat) →
          t.panel.gram.read i j = s.panel.gram.read i j) ∧
        t.panel.ptr =
          (if c.toNat < x1.toNat then .cell (c + 1) r else if r.toNat < y1.toNat then .cell x0 (r + 1) else .pastEnd)) ∧
    (s.panel.armed x0 y0 x1 y1 .pastEnd → x0.toNat < WIDTH → y0.toNat < HEIGHT →
      ∃ t, exec (.wrdata16 w) s = .next t ∧
        (s.cfg.panelWrap = .unspecified → t.panel.ok = false) ∧
        (s.cfg.panelWrap = .wrapToWindowStart →
          t.panel.ok = true ∧ t.panel.gram.read x0.toNat y0.toNat = some w ∧
            (∀ i j, i < WIDTH → j < HEIGHT → (i ≠ x0.toNat ∨ j ≠ y0.toNat) →
              t.panel.gram.read i j = s.panel.gram.read i j) ∧
            t.panel.ptr =
              (if x0.toNat < x1.toNat then .cell (x0 + 1) y0
                else if y0.toNat < y1.toNat then .cell x0 (y0 + 1) else .pastEnd)))

/-- With a byte in the transport no framed instruction has a step: `DC` would change under it
(93_implementation_defined.md U7, 70_reset_and_hazards.md R266; log 16). -/
def Obligations.FramedInstructionsNeedTheBusIdle : Prop :=
  ∀ (s : State) (i : Instr), bsy s = true →
    (i.layer = .wire ∨ (∃ o, i = .wrcmd o) ∨ (∃ v, i = .wrdata8 v) ∨ ∃ w, i = .wrdata16 w) →
    exec i s = .refused .discriminatorWhileShifting

/-- A wait with a bound `N` and nothing that moves the transport runs out (60_exceptions.md R237): `FAULT` is latched, the
status is `BUS_TIMEOUT`, the request is over, and lines, registers, `INIT_STATE` and the transport stay. Move by move, the
test that finds a bounded wait unmet after `N` failed ones latches the fault, an earlier one only counts (log 14 on what is
counted): the wait of a `sendByte` for `TXE` = 1, and that of a `waitIdle` for `BSY` = 0. That a WAITIDLE or SENDBYTE issued alone, outside a request, ends so is the model's reading (log 31). -/
def Obligations.BoundedWaitRunsOut : Prop :=
  ∀ (s : State) (n : Nat), s.cfg.busTimeout = some n →
    (s.sched = [] → bsy s = true → exec .waitidle s = .next (rejected STATUS_BUS_TIMEOUT s.regs { s with fault := true })) ∧
    (s.sched = [] → txe s = false → ∀ v,
      exec (.sendbyte v) s = .next (rejected STATUS_BUS_TIMEOUT s.regs { s with fault := true })) ∧
    (∀ src l rest, s.busy = true → s.seq.todo = .send src :: l → txe s = false →
      step { s with inputs := .sequencer :: rest } =
        if n ≤ s.waits then
          .next (rejected STATUS_BUS_TIMEOUT s.regs { s with fault := true, inputs := rest })
        else .next { s with waits := s.waits + 1, inputs := rest }) ∧
    (∀ l rest, s.busy = true → s.seq.todo = .awaitIdle :: l → bsy s = true →
      step { s with inputs := .sequencer :: rest } =
        if n ≤ s.waits then
          .next (rejected STATUS_BUS_TIMEOUT s.regs { s with fault := true, inputs := rest })
        else .next { s with waits := s.waits + 1, inputs := rest })

/-- Whatever an instruction does, `FAULT` is as before unless a bounded wait ran out, and then the request is over with
`BUS_TIMEOUT` and `INIT_STATE` is as before (60_exceptions.md R237, 42_initializer.md R167). For a wire command or
micro-operation issued alone that status and end are the model's reading (log 31). -/
def Obligations.OnlyABoundedWaitLatchesFault : Prop :=
  ∀ (i : Instr) (s t : State), exec i s = .next t →
    t.fault = s.fault ∨
      (s.cfg.busTimeout ≠ none ∧ t.fault = true ∧ t.status = STATUS_BUS_TIMEOUT ∧ t.busy = false ∧ t.seq = Seq.idle ∧
        t.initState = s.initState)

-- # Wire commands

/-- The configuration commands with parameters (30_encoding.md R94 format `WP`; 42_initializer.md R154, R156 to R161): the
command byte, then every parameter byte in order, each with its own `DCSET`, `TX` and `IDLE`. A wire command issued
alone is the model's reading of the opcode table (log 8, log 9). -/
def Obligations.ParameterCommandsSendTheirBytes : Prop :=
  ∀ s : State, BusFree s →
    (∀ ps, ∃ t, exec (.ifmode ps) s = .next t ∧
      SentOnly s t (if ps = [] then false else true) (parameterWire 0xB0 ps) (parameterCalls 0xB0 ps)) ∧
    (∀ p, ∃ t, exec (.pixfmt p) s = .next t ∧ SentOnly s t true (parameterWire 0x3A [p]) (parameterCalls 0x3A [p])) ∧
    (∀ p, ∃ t, exec (.madctl p) s = .next t ∧ SentOnly s t true (parameterWire 0x36 [p]) (parameterCalls 0x36 [p])) ∧
    (∀ p, ∃ t, exec (.pwctr3 p) s = .next t ∧ SentOnly s t true (parameterWire 0xC2 [p]) (parameterCalls 0xC2 [p])) ∧
    (∀ p q r u, ∃ t, exec (.vmctr p q r u) s = .next t ∧
      SentOnly s t true (parameterWire 0xC5 [p, q, r, u]) (parameterCalls 0xC5 [p, q, r, u])) ∧
    (∀ ps, ∃ t, exec (.pgamma ps) s = .next t ∧
      SentOnly s t (if ps = [] then false else true) (parameterWire 0xE0 ps) (parameterCalls 0xE0 ps)) ∧
    (∀ ps, ∃ t, exec (.ngamma ps) s = .next t ∧
      SentOnly s t (if ps = [] then false else true) (parameterWire 0xE1 ps) (parameterCalls 0xE1 ps))

/-- Sleep-out and display-on: one command byte, and the settling delay only after it has left the wire
(42_initializer.md R155, R162). A wire command issued alone is the model's reading of the opcode table (log 9). -/
def Obligations.SettlingCommandsWaitAfterTheByte : Prop :=
  ∀ s : State, BusFree s →
    (∃ t, exec .slpout s = .next t ∧
      SentOnly s t false [.byte false 0x11, .wait s.cfg.tSlpout] [.dcset false, .tx 0x11, .idle, .wait s.cfg.tSlpout]) ∧
    (∃ t, exec .dispon s = .next t ∧
      SentOnly s t false [.byte false 0x29, .wait s.cfg.tDispon] [.dcset false, .tx 0x29, .idle, .wait s.cfg.tDispon])

/-- Column- and page-address-set: start then end, both most significant byte first, by two word writes
(43_window.md R171, R172); memory-write sends its command byte and no data (R173). A wire command
issued alone, with no bracket of its own, is the model's reading of the opcode table (log 9). -/
def Obligations.AddressCommandsSendStartThenEnd : Prop :=
  ∀ s : State, BusFree s →
    (∀ a b : U16, ∃ t, exec (.caset a b) s = .next t ∧
      SentOnly s t true
        [.byte false 0x2A, .byte true (hi a), .byte true (lo a), .byte true (hi b), .byte true (lo b)]
        [.dcset false, .tx 0x2A, .idle, .dcset true, .tx (hi a), .tx (lo a), .idle, .dcset true, .tx (hi b), .tx (lo b), .idle]) ∧
    (∀ a b : U16, ∃ t, exec (.paset a b) s = .next t ∧
      SentOnly s t true
        [.byte false 0x2B, .byte true (hi a), .byte true (lo a), .byte true (hi b), .byte true (lo b)]
        [.dcset false, .tx 0x2B, .idle, .dcset true, .tx (hi a), .tx (lo a), .idle, .dcset true, .tx (hi b), .tx (lo b), .idle]) ∧
    (∃ t, exec .ramwr s = .next t ∧ SentOnly s t false [.byte false 0x2C] [.dcset false, .tx 0x2C, .idle])

/-- No wire command, no command byte, no select and no delay stores a pixel: while the observer claims anything, every cell
of the frame memory reads as before (46_panel_observer.md R203 to R210, R214). -/
def Obligations.WireCommandsStoreNoPixel : Prop :=
  ∀ (i : Instr) (s t : State), s.bus = Transport.empty →
    (i.layer = .wire ∨ (∃ o, i = .wrcmd o) ∨ i = .selstart ∨ i = .selend ∨ i = .waitidle ∨ ∃ d, i = .delay d) →
    exec i s = .next t → t.panel.ok = true → ∀ c r, t.panel.gram.read c r = s.panel.gram.read c r

-- # INIT

/-- `initialize()` from an idle, uninitialized block (42_initializer.md R150, R166): the whole wire trace and the whole list
of the sequencer's events, `INIT_STATE` = `INITIALIZED`, `STATUS` = `OK`, `RST_n` high, `DC` low, `CS_n` high; no register
changes. -/
def Obligations.InitRunsTheWholeSequence : Prop :=
  ∀ s : State, CanRun s → s.fault = false → s.initState = .uninit →
    ∃ t, exec .init s = .next t ∧ Completed s t s.regs false (initWire s.cfg) (initCalls s.cfg) ∧
      t.initState = .initialized ∧ t.lines.rstN = true

/-- A second `initialize()` does nothing but report (42_initializer.md R165). -/
def Obligations.SecondInitOnlyReports : Prop :=
  ∀ s : State, s.busy = false → s.fault = false → s.initState = .initialized →
    exec .init s = .next (rejected STATUS_ALREADY_INITIALIZED s.regs s)

/-- Sleep-out comes before pixel-format-set and that before display-on, each exactly once; at least 100 ms follow sleep-out
before the next byte and display-on before the closing select, with no byte after it
(42_initializer.md R168, 70_reset_and_hazards.md R268, R269). -/
def Obligations.InitOrdersSleepOutFormatDisplayOn : Prop :=
  ∀ s : State, CanRun s → s.fault = false → s.initState = .uninit → s.cfg.WithinBounds →
    ∃ t a b c, exec .init s = .next t ∧
      wire t = wire s ++ a ++ [Event.byte false 0x11, Event.wait s.cfg.tSlpout] ++ b ++ [Event.byte false 0x3A] ++ c ++
        [Event.byte false 0x29, Event.wait s.cfg.tDispon, Event.sel true] ∧
      100000 ≤ s.cfg.tSlpout ∧ 100000 ≤ s.cfg.tDispon ∧
      ∀ e ∈ a ++ b ++ c, e ≠ Event.byte false 0x11 ∧ e ≠ Event.byte false 0x3A ∧ e ≠ Event.byte false 0x29

/-- After a complete `initialize()` the observer holds what 95_test_vectors.md TV-O1 lists (46_panel_observer.md R209): not
poisoned, awake, displaying, the parameter bytes sent and no other register, no window, no half pixel, every cell
unspecified, so that the picture (R215) claims no cell. -/
def Obligations.InitMakesThePanelReady : Prop :=
  ∀ s : State, CanRun s → s.fault = false → s.initState = .uninit → s.cfg.WithinBounds → s.panel.settle = 0 →
    ∃ t, exec .init s = .next t ∧ PanelReady t.panel ∧ t.panel.ok = true ∧ t.panel.sleepOut = true ∧
      t.panel.displayOn = true ∧ t.panel.cmd = some 0x29 ∧ t.panel.regOf 0xB0 = some s.cfg.ifmodeParams ∧
      t.panel.regOf 0x3A = some [0x55] ∧ t.panel.regOf 0x36 = some [0x28] ∧ t.panel.regOf 0xC2 = some [0x44] ∧
      t.panel.regOf 0xC5 = some [0, 0, 0, 0] ∧ t.panel.regOf 0xE0 = some s.cfg.gammaPos.toList ∧
      t.panel.regOf 0xE1 = some s.cfg.gammaNeg.toList ∧
      (∀ o : Byte, o ∉ ([0xB0, 0x3A, 0x36, 0xC2, 0xC5, 0xE0, 0xE1] : List Byte) → t.panel.regOf o = none) ∧
      t.panel.half = none ∧ t.panel.npar = 0 ∧ t.panel.sel = false ∧ t.panel.sc = none ∧ t.panel.ec = none ∧ t.panel.sp = none ∧
      t.panel.ep = none ∧ t.panel.ptr = .unspecified ∧ (∀ c r, t.panel.gram.read c r = none) ∧
      ∀ c r, t.panel.picture c r = none

-- # The window

/-- `setWindow` in service (43_window.md R170, R175): the eleven bytes of one bracket for any four coordinates, unchecked. -/
def Obligations.SetwinSendsTheWindowBracket : Prop :=
  ∀ (s : State) (x0 y0 x1 y1 : U16), InService s →
    ∃ t, exec (.setwin x0 y0 x1 y1) s = .next t ∧
      Served s t { s.regs with x0 := x0, y0 := y0, x1 := x1, y1 := y1 } false
        [.sel false, .byte false 0x2A, .byte true (hi x0), .byte true (lo x0), .byte true (hi x1), .byte true (lo x1),
          .byte false 0x2B, .byte true (hi y0), .byte true (lo y0), .byte true (hi y1), .byte true (lo y1),
          .byte false 0x2C, .sel true]
        (windowCalls x0 y0 x1 y1)

/-- The postcondition of `setWindow` (43_window.md R174): with the preconditions met, the observer's window is the one
given, it is armed at the window's first cell, no half pixel is pending, and no cell of the frame memory changed. With a
precondition violated the block still completes, and the observer claims nothing any more (R175, 46_panel_observer.md
R210). -/
def Obligations.SetwinArmsThePanelOrPoisonsIt : Prop :=
  ∀ (s : State) (x0 y0 x1 y1 : U16), InService s → PanelReady s.panel →
    ∃ t, exec (.setwin x0 y0 x1 y1) s = .next t ∧ t.status = STATUS_OK ∧
      (x0.toNat ≤ x1.toNat ∧ x1.toNat ≤ 319 ∧ y0.toNat ≤ y1.toNat ∧ y1.toNat ≤ 479 →
        t.panel.armedAt x0 y0 x1 y1 x0 y0 ∧ PanelReady t.panel ∧
          ∀ c r, t.panel.gram.read c r = s.panel.gram.read c r) ∧
      (¬(x0.toNat ≤ x1.toNat ∧ x1.toNat ≤ 319 ∧ y0.toNat ≤ y1.toNat ∧ y1.toNat ≤ 479) → t.panel.ok = false)

-- # Streams

/-- `streamFill` in service (44_streaming.md R180): one bracket, one `DCSET(1)`, `count` times the colour high byte first,
one `IDLE`; a count of zero gives an empty bracket (R185). -/
def Obligations.StreamfillRepeatsTheColour : Prop :=
  ∀ (s : State) (n : U32) (c : U16), InService s →
    ∃ t, exec (.streamfill n c) s = .next t ∧
      Served s t { s.regs with count := n, color := c, idx := n } true
        ([Event.sel false] ++ (List.replicate n.toNat [Event.byte true (hi c), Event.byte true (lo c)]).flatten ++
          [Event.sel true])
        ([Event.sel false, Event.dcset true] ++ (List.replicate n.toNat [Event.tx (hi c), Event.tx (lo c)]).flatten ++
          [Event.idle, Event.sel true])

/-- `streamBuffer` in service (44_streaming.md R181): one bracket, one `DCSET(1)`, every pixel of the sequence in order,
high byte first, one `IDLE`. -/
def Obligations.StreambufSendsTheSequence : Prop :=
  ∀ (s : State) (px : List U16), InService s → px.length < 2 ^ 32 →
    ∃ t, exec (.streambuf px) s = .next t ∧
      Served s t { s.regs with src := px, count := BitVec.ofNat 32 px.length, idx := BitVec.ofNat 32 px.length } true
        ([Event.sel false] ++ px.flatMap (fun c => [Event.byte true (hi c), Event.byte true (lo c)]) ++ [Event.sel true])
        ([Event.sel false, Event.dcset true] ++ px.flatMap (fun c => [Event.tx (hi c), Event.tx (lo c)]) ++
          [Event.idle, Event.sel true])

/-- Pixels after `setWindow` land left to right, then top to bottom (20_memory.md R69, 46_panel_observer.md R217 (c)): with
no more pixels than the window's area, pixel `n` is at column `x0 + n mod w`, page `y0 + n div w`, and no other cell
changed. With more, and `PANEL_WRAP` = `UNSPECIFIED`, the block still sends them all and the observer claims nothing any
more (R213 (c)). -/
def Obligations.StreamedPixelsLandInScanOrder : Prop :=
  ∀ (s : State) (x0 y0 x1 y1 : U16) (px : List U16), InService s → PanelReady s.panel →
    x0.toNat ≤ x1.toNat → x1.toNat ≤ 319 → y0.toNat ≤ y1.toNat → y1.toNat ≤ 479 → px.length < 2 ^ 32 →
    ∃ t u, exec (.setwin x0 y0 x1 y1) s = .next t ∧ exec (.streambuf px) t = .next u ∧ u.status = STATUS_OK ∧
      (px.length ≤ (x1.toNat - x0.toNat + 1) * (y1.toNat - y0.toNat + 1) →
        u.panel.ok = true ∧
        (∀ n v, px[n]? = some v →
          u.panel.gram.read (x0.toNat + n % (x1.toNat - x0.toNat + 1)) (y0.toNat + n / (x1.toNat - x0.toNat + 1)) =
            some v) ∧
        (∀ c r, c < WIDTH → r < HEIGHT →
          (∀ n, n < px.length →
            c ≠ x0.toNat + n % (x1.toNat - x0.toNat + 1) ∨ r ≠ y0.toNat + n / (x1.toNat - x0.toNat + 1)) →
          u.panel.gram.read c r = s.panel.gram.read c r)) ∧
      ((x1.toNat - x0.toNat + 1) * (y1.toNat - y0.toNat + 1) < px.length → s.cfg.panelWrap = .unspecified →
        u.panel.ok = false)

/-- Two streams one after the other are, for the panel, one stream of all their pixels (44_streaming.md R186 (a),
20_memory.md R73), whatever the panel was waiting for. -/
def Obligations.StreamingInTwoPartsIsOneStream : Prop :=
  ∀ (s : State) (a b : List U16), InService s → s.panel.pulse = .quiet → (a ++ b).length < 2 ^ 32 →
    ∃ t u v, exec (.streambuf a) s = .next t ∧ exec (.streambuf b) t = .next u ∧ exec (.streambuf (a ++ b)) s = .next v ∧
      u.panel = v.panel

-- # Raster primitives

/-- `drawPixel` in service, in bounds (45_raster.md R190): a window of one pixel and a stream of one pixel. -/
def Obligations.DrawpixelSendsOnePixel : Prop :=
  ∀ (s : State) (x y c : U16), InService s → x.toNat < 320 → y.toNat < 480 →
    ∃ t, exec (.drawpixel x y c) s = .next t ∧
      Served s t { s.regs with px := x, py := y, color := c, x0 := x, y0 := y, x1 := x, y1 := y, count := 1, idx := 1 } true
        (windowWire x y x y ++ [Event.sel false, Event.byte true (hi c), Event.byte true (lo c), Event.sel true])
        (windowCalls x y x y ++ [.sel false, .dcset true, .tx (hi c), .tx (lo c), .idle, .sel true])

/-- `fillRect` in service, anchored on the panel, of non-zero size (45_raster.md R191): the window of the clipped region and
its area in pixels of the colour. -/
def Obligations.FillrectFillsTheClippedRegion : Prop :=
  ∀ (s : State) (x y w h c : U16), InService s → x.toNat < 320 → y.toNat < 480 → w ≠ 0 → h ≠ 0 →
    ∃ t, exec (.fillrect x y w h c) s = .next t ∧
      Served s t { regionRegs s.regs x y w h with color := c } true
        (windowWire x y (lastOf x (clipWidth x w)) (lastOf y (clipHeight y h)) ++
          streamWire (List.replicate ((clipWidth x w).toNat * (clipHeight y h).toNat) c))
        (windowCalls x y (lastOf x (clipWidth x w)) (lastOf y (clipHeight y h)) ++
          streamCalls (List.replicate ((clipWidth x w).toNat * (clipHeight y h).toNat) c))

/-- `drawImage` in service, anchored on the panel, of non-zero size, its source long enough, and not a clipped blit in mode
`REJECT` (45_raster.md R192, R195): the window of the clipped region and the gathered pixels; `SRC` ends as the gathered
sequence (log 27). -/
def Obligations.DrawimageStreamsTheGatheredPixels : Prop :=
  ∀ (s : State) (x y w h : U16) (px : List U16), InService s → x.toNat < 320 → y.toNat < 480 → w ≠ 0 → h ≠ 0 →
    w.toNat * h.toNat ≤ px.length →
    (s.cfg.blitClipMode = .reject → clipWidth x w = w ∧ clipHeight y h = h) →
    ∃ t g, exec (.drawimage x y w h px) s = .next t ∧ g = gather s.cfg.blitClipMode px w (clipWidth x w) (clipHeight y h) ∧
      Served s t { regionRegs s.regs x y w h with src := g } true
        (windowWire x y (lastOf x (clipWidth x w)) (lastOf y (clipHeight y h)) ++ streamWire g)
        (windowCalls x y (lastOf x (clipWidth x w)) (lastOf y (clipHeight y h)) ++ streamCalls g)

/-- Clipping (45_raster.md R193): for an anchor on the panel and non-zero size the clipped size is the least of the size and
what is left of the panel, at least 1, the far corner stays on the panel, and the pixel count is at most 153 600. -/
def Obligations.ClippedRegionStaysOnThePanel : Prop :=
  ∀ x y w h : U16, x.toNat < 320 → y.toNat < 480 → w ≠ 0 → h ≠ 0 →
    (clipWidth x w).toNat = min w.toNat (320 - x.toNat) ∧ (clipHeight y h).toNat = min h.toNat (480 - y.toNat) ∧
    1 ≤ (clipWidth x w).toNat ∧ 1 ≤ (clipHeight y h).toNat ∧
    (lastOf x (clipWidth x w)).toNat = x.toNat + (clipWidth x w).toNat - 1 ∧
    (lastOf y (clipHeight y h)).toNat = y.toNat + (clipHeight y h).toNat - 1 ∧
    (lastOf x (clipWidth x w)).toNat ≤ 319 ∧ (lastOf y (clipHeight y h)).toNat ≤ 479 ∧
    (mul32 (clipWidth x w) (clipHeight y h)).toNat = (clipWidth x w).toNat * (clipHeight y h).toNat ∧
    (mul32 (clipWidth x w) (clipHeight y h)).toNat ≤ 153600 ∧
    (x.toNat + w.toNat ≤ 320 → clipWidth x w = w) ∧ (y.toNat + h.toNat ≤ 480 → clipHeight y h = h)

/-- Clipping is idempotent (45_raster.md R198): a rectangle and its clipped self have the same trace of calls, the same wire
trace and the same status, from any state in service. -/
def Obligations.FillrectClippingIsIdempotent : Prop :=
  ∀ (s : State) (x y w h c : U16), InService s →
    ∃ t u, exec (.fillrect x y w h c) s = .next t ∧
      exec (.fillrect x y (clipWidth x w) (clipHeight y h) c) s = .next u ∧
      wire u = wire t ∧ calls u = calls t ∧ u.status = t.status ∧ u.panel = t.panel

/-- The gather of 45_raster.md R195: in modes `STRIDE_CROP` and `REJECT`, pixel `(c, r)` of the clipped part is source entry
`r × pw + c`; in mode `REFERENCE_CONTIGUOUS`, pixel `i` is source entry `i`; there are `cw × ch` of them; the modes agree
when no column is clipped or at most one row is left. -/
def Obligations.GatherPicksByMode : Prop :=
  ∀ (src : List U16) (pw ph cw ch : U16), cw.toNat ≤ pw.toNat → ch.toNat ≤ ph.toNat → pw.toNat * ph.toNat ≤ src.length →
    (∀ m, (gather m src pw cw ch).length = cw.toNat * ch.toNat) ∧
    (∀ m r c, m ≠ .referenceContiguous → r < ch.toNat → c < cw.toNat →
      (gather m src pw cw ch)[r * cw.toNat + c]? = src[r * pw.toNat + c]?) ∧
    (∀ i, i < cw.toNat * ch.toNat → (gather .referenceContiguous src pw cw ch)[i]? = src[i]?) ∧
    (cw = pw ∨ ch.toNat ≤ 1 → ∀ m n, gather m src pw cw ch = gather n src pw cw ch)

-- # Early ends

/-- An anchor off the panel ends a raster primitive with `OUT_OF_BOUNDS` and no event at all (45_raster.md R197,
60_exceptions.md R235): only the operand latches already written and `STATUS` differ, whatever the other operands are
(R234). -/
def Obligations.OffPanelAnchorSendsNothing : Prop :=
  ∀ (s : State) (x y : U16), s.busy = false → s.fault = false → s.initState = .initialized →
    (320 ≤ x.toNat ∨ 480 ≤ y.toNat) →
    (∀ c, exec (.drawpixel x y c) s =
      .next (rejected STATUS_OUT_OF_BOUNDS { s.regs with px := x, py := y, color := c } s)) ∧
    (∀ w h c, exec (.fillrect x y w h c) s =
      .next (rejected STATUS_OUT_OF_BOUNDS { s.regs with px := x, py := y, pw := w, ph := h, color := c } s)) ∧
    (∀ w h px, exec (.drawimage x y w h px) s =
      .next (rejected STATUS_OUT_OF_BOUNDS { s.regs with px := x, py := y, pw := w, ph := h, src := px } s))

/-- With the anchor on the panel: a zero width or height ends with `EMPTY_REGION` (45_raster.md R194); else a clipped blit
in mode `REJECT` ends with `OUT_OF_BOUNDS` (R195); else a source shorter than the unclipped area ends with `SHORT_BUFFER`
(R196); all with no event, in the order of 60_exceptions.md R234 checks 5 to 7. -/
def Obligations.BadRegionSendsNothing : Prop :=
  ∀ (s : State) (x y w h : U16), s.busy = false → s.fault = false → s.initState = .initialized →
    x.toNat < 320 → y.toNat < 480 →
    (w = 0 ∨ h = 0 →
      (∀ c, exec (.fillrect x y w h c) s =
        .next (rejected STATUS_EMPTY_REGION { s.regs with px := x, py := y, pw := w, ph := h, color := c } s)) ∧
      (∀ px, exec (.drawimage x y w h px) s =
        .next (rejected STATUS_EMPTY_REGION { s.regs with px := x, py := y, pw := w, ph := h, src := px } s))) ∧
    (¬(w = 0 ∨ h = 0) → ∀ px,
      (s.cfg.blitClipMode = .reject → (clipWidth x w ≠ w ∨ clipHeight y h ≠ h) →
        exec (.drawimage x y w h px) s =
          .next (rejected STATUS_OUT_OF_BOUNDS
            { s.regs with
              px := x, py := y, pw := w, ph := h, src := px, cw := clipWidth x w, ch := clipHeight y h } s)) ∧
      ((s.cfg.blitClipMode = .reject → clipWidth x w = w ∧ clipHeight y h = h) → px.length < w.toNat * h.toNat →
        exec (.drawimage x y w h px) s =
          .next (rejected STATUS_SHORT_BUFFER
            { s.regs with
              px := x, py := y, pw := w, ph := h, src := px, cw := clipWidth x w, ch := clipHeight y h } s)))

/-- Before `initialize()` has completed every other operation ends with `NOT_INITIALIZED`, nothing latched and no event
(60_exceptions.md R232). That nothing is latched is the model's reading (log 28). -/
def Obligations.UninitializedOperationsEndAtOnce : Prop :=
  ∀ (s : State) (i : Instr), s.busy = false → s.fault = false → s.initState = .uninit → i.layer = .host → i ≠ .init →
    exec i s = .next (rejected STATUS_NOT_INITIALIZED s.regs s)

/-- With `FAULT` latched every request ends at once with `BUS_TIMEOUT`, nothing latched and no event
(60_exceptions.md R237). That nothing is latched is the model's reading (log 28). -/
def Obligations.LatchedFaultEndsEveryRequest : Prop :=
  ∀ (s : State) (i : Instr), s.busy = false → s.fault = true → i.layer = .host →
    exec i s = .next (rejected STATUS_BUS_TIMEOUT s.regs s)

-- # The observer

/-- After `fillRect` the clipped rectangle holds the colour, no other cell changed, and the write pointer is past the end
(46_panel_observer.md R217 (b)); after `drawPixel` in bounds that one cell holds the colour and no other changed
(R217 (a)). In both cases the picture is the content of the frame memory (R215). -/
def Obligations.FilledRectangleHoldsTheColour : Prop :=
  ∀ (s : State) (x y c : U16), InService s → PanelReady s.panel → x.toNat < 320 → y.toNat < 480 →
    (∀ w h : U16, w ≠ 0 → h ≠ 0 →
      ∃ t, exec (.fillrect x y w h c) s = .next t ∧ t.panel.ok = true ∧ t.panel.ptr = .pastEnd ∧
        (∀ i j, i < 320 → j < 480 → t.panel.picture i j = t.panel.gram.read i j) ∧
        ∀ i j, i < 320 → j < 480 →
          t.panel.gram.read i j =
            if x.toNat ≤ i ∧ i < x.toNat + (clipWidth x w).toNat ∧ y.toNat ≤ j ∧
              j < y.toNat + (clipHeight y h).toNat then some c
            else s.panel.gram.read i j) ∧
    (∃ t, exec (.drawpixel x y c) s = .next t ∧ t.panel.ok = true ∧
      (∀ i j, i < 320 → j < 480 → t.panel.picture i j = t.panel.gram.read i j) ∧
      ∀ i j, i < 320 → j < 480 →
        t.panel.gram.read i j = if i = x.toNat ∧ j = y.toNat then some c else s.panel.gram.read i j)

/-- After `drawImage`, unclipped in any mode or clipped in mode `STRIDE_CROP`, cell `(x+c, y+r)` of the clipped region holds
source pixel `r × w + c` and no other cell changed (46_panel_observer.md R217 (d)); the picture is the content of
the frame memory (R215). -/
def Obligations.DrawimagePaintsItsPicture : Prop :=
  ∀ (s : State) (x y w h : U16) (px : List U16), InService s → PanelReady s.panel → x.toNat < 320 → y.toNat < 480 →
    w ≠ 0 → h ≠ 0 → w.toNat * h.toNat ≤ px.length →
    (s.cfg.blitClipMode = .strideCrop ∨ (clipWidth x w = w ∧ clipHeight y h = h)) →
    ∃ t, exec (.drawimage x y w h px) s = .next t ∧ t.panel.ok = true ∧
      (∀ i j, i < 320 → j < 480 → t.panel.picture i j = t.panel.gram.read i j) ∧
      (∀ c r, c < (clipWidth x w).toNat → r < (clipHeight y h).toNat →
        t.panel.gram.read (x.toNat + c) (y.toNat + r) = px[r * w.toNat + c]?) ∧
      (∀ i j, i < 320 → j < 480 →
        ¬(x.toNat ≤ i ∧ i < x.toNat + (clipWidth x w).toNat ∧ y.toNat ≤ j ∧ j < y.toNat + (clipHeight y h).toNat) →
        t.panel.gram.read i j = s.panel.gram.read i j)

/-- A poisoned observer stays so over any events that hold no hardware reset (46_panel_observer.md R216), and a byte it
hears leaves every element unspecified that has such a value; of the others nothing is said, they are free values
(log 21). It shows nothing (R215). -/
def Obligations.PoisonLastsUntilAHardwareReset : Prop :=
  ∀ (wrap : PanelWrap) (p : Panel) (es : List Event), p.ok = false → p.pulse = .quiet → .rst false ∉ es →
    (p.feed wrap es).ok = false ∧
      (∀ c r, (p.feed wrap es).picture c r = none) ∧
      ∀ d v q, q = (p.feed wrap es).onByte wrap d v →
        q.ok = false ∧ (∀ o, q.regOf o = none) ∧ q.sc = none ∧ q.ec = none ∧ q.sp = none ∧ q.ep = none ∧
          q.ptr = .unspecified ∧ ∀ c r, q.gram.read c r = none

-- # What every step keeps

/-- The observer is a function of the wire trace alone: every step keeps it so (46_panel_observer.md R200,
00_scope.md R11 (d)). -/
def Obligations.StepKeepsObserverOnWire : Prop :=
  ∀ s t : State, ObserverFollowsWire s → step s = .next t → ObserverFollowsWire t

/-- Every step keeps the observer's window and write pointer inside the panel and the frame memory in canonical form
(46_panel_observer.md R200, R210, R211). -/
def Obligations.StepKeepsPanelInside : Prop :=
  ∀ s t : State, PanelInside s.panel → step s = .next t → PanelInside t.panel

/-- Every step keeps the line discipline (70_reset_and_hazards.md R266, 10_state.md R26): the byte being shifted has the
class `DC` still shows, and `SCK` rests low. And every step keeps the books of the transport (20_memory.md R70,
30_encoding.md R91): the bytes enqueued are, value by value and in order, those on the wire and then those inside, never
more than two inside, every bit of them is sampled or still to go, and none is inside exactly when `BSY` = 0. -/
def Obligations.StepKeepsLinesAndBytes : Prop :=
  ∀ s t : State, step s = .next t →
    (LinesDisciplined s → LinesDisciplined t) ∧
      (BytesAccountedFor s →
        BytesAccountedFor t ∧ (inflight t).length ≤ 2 ∧ ((inflight t).length = 0 ↔ bsy t = false))

/-- Every step keeps the control state legal (60_exceptions.md R231, 10_state.md R29): `STATUS` is one of the eight codes,
and with `BUSY` = 0 the sequencer is idle. After the block's reset R34 leaves `STATUS` unspecified; that it is legal there
rests on the model's zero (log 10). -/
def Obligations.StepKeepsControlLegal : Prop :=
  ∀ s t : State, ControlLegal s → step s = .next t → ControlLegal t

/-- The five invariants hold right after reset. That `STATUS` is legal there rests on the model's zero (log 10). -/
def Obligations.InvariantsHoldAtReset : Prop :=
  ObserverFollowsWire State.reset ∧ PanelInside State.reset.panel ∧ LinesDisciplined State.reset ∧
    BytesAccountedFor State.reset ∧ ControlLegal State.reset

/-- No step leads back from `INITIALIZED` or clears `FAULT`, but the block's reset (10_state.md R24, R25). No instruction
but `INIT` drives `RST_n` or changes `INIT_STATE` (R24, R26). -/
def Obligations.OnlyResetUndoesInitAndFault : Prop :=
  (∀ s t : State, step s = .next t → s.inputs.head? ≠ some .reset →
    (s.initState = .initialized → t.initState = .initialized) ∧ (s.fault = true → t.fault = true)) ∧
  (∀ (i : Instr) (s t : State), exec i s = .next t → i ≠ .init →
    t.lines.rstN = s.lines.rstN ∧ t.initState = s.initState)

/-- The block's reset, at any time (10_state.md R34, 70_reset_and_hazards.md R260, R261): the listed values, whatever the
state was, and no event; the observer is back at R201 (46_panel_observer.md). That the parameters and the inputs to come stay is the model's choice (log 25). -/
def Obligations.ResetGivesTheListedValues : Prop :=
  ∀ (s : State) (rest : List Input),
    ∃ t, step { s with inputs := .reset :: rest } = .next t ∧ t.initState = .uninit ∧ t.busy = false ∧ t.fault = false ∧
      t.seq = Seq.idle ∧ t.bus = Transport.empty ∧ txe t = true ∧ bsy t = false ∧ t.lines.csN = true ∧ t.lines.sck = false ∧
      t.trace = [] ∧ (∃ k, t.panel = { Panel.initial with poisons := k }) ∧ t.cfg = s.cfg ∧ t.inputs = rest

/-- A host operation that begins between operations and latches no fault ends between operations (10_state.md R38):
deselected, transport idle, sequencer idle, clock low. -/
def Obligations.HostOperationsEndBetween : Prop :=
  ∀ (i : Instr) (s t : State), i.layer = .host → Between s → exec i s = .next t → t.fault = false → Between t

/-- No host operation puts a command byte on the wire other than the twelve opcodes (30_encoding.md R102 (b)), whether it
completes, ends early or times out; and none but `INIT` makes an event of the reset line or a delay (10_state.md R26,
60_exceptions.md R239). -/
def Obligations.HostOperationsSendOnlyTheTwelveOpcodes : Prop :=
  ∀ (i : Instr) (s t : State), i.layer = .host → s.bus = Transport.empty → exec i s = .next t →
    ∃ w, wire t ++ inflight t = wire s ++ w ∧
      (∀ o, .byte false o ∈ w →
        o ∈ ([0xB0, 0x11, 0x3A, 0x36, 0xC2, 0xC5, 0xE0, 0xE1, 0x29, 0x2A, 0x2B, 0x2C] : List Byte)) ∧
      (i ≠ .init → ∀ e ∈ w, (∀ b, e ≠ .rst b) ∧ ∀ d, e ≠ .wait d)

-- # The two views of a request

/-- A call is a run of the block's own moves (10_state.md R20, R23, R29; log 1): for a host operation started with the
transport idle there is a script of sequencer and transport moves that, after acceptance, leads to the very state the call
answers, up to the schedule only the call reads. -/
def Obligations.CallIsARunOfMoves : Prop :=
  ∀ (s t : State) (i : Instr) (e : Encoded) (rest : List Input), i.layer = .host → decode e = .ok i →
    s.busy = false → s.bus = Transport.empty → exec i { s with inputs := rest } = .next t →
    ∃ script : List Input, (∀ m ∈ script, m.isMove = true) ∧
      steps (script.length + 1) { s with inputs := .submit e :: script ++ rest } = .next { t with sched := s.sched }

/-- However the moves of sequencer and transport interleave, none of them stops, waits bounded or not: a request begun with
the transport idle reads no source pixel past the end (20_memory.md R68), and changes `DC` and deselects with `BSY` = 0 only
(70_reset_and_hazards.md R266, R267). With waits unbounded, a request that has ended left the wire, the registers, the
flags, the status, the three control lines and the observer that the call leaves (00_scope.md R11). -/
def Obligations.InterleavingDoesNotReachTheWire : Prop :=
  ∀ (s : State) (i : Instr) (e : Encoded) (script : List Input), i.layer = .host → decode e = .ok i →
    s.busy = false → s.bus = Transport.empty → (∀ m ∈ script, m.isMove = true) →
    ∃ u, steps (script.length + 1) { s with inputs := .submit e :: script } = .next u ∧
      ∀ t, s.cfg.busTimeout = none → exec i { s with inputs := [] } = .next t → u.busy = false →
        wire u = wire t ∧ calls u = calls t ∧ u.regs = t.regs ∧ u.status = t.status ∧ u.panel = t.panel ∧
          u.initState = t.initState ∧ u.bus = t.bus ∧ u.fault = t.fault ∧ u.busy = t.busy ∧ u.lines.csN = t.lines.csN ∧
          u.lines.dc = t.lines.dc ∧ u.lines.rstN = t.lines.rstN

/-- A submitted request left to itself ends (40_transport.md R135, 10_state.md R23; log 4 on who moves): with no further input
some number of steps takes the request and leads to `BUSY` = 0, with the call's wire and status. -/
def Obligations.SubmittedRequestEndsByItself : Prop :=
  ∀ (s t : State) (i : Instr) (e : Encoded), i.layer = .host → decode e = .ok i → CanRun s →
    exec i { s with inputs := [] } = .next t →
    ∃ n u, steps n { s with inputs := [.submit e] } = .next u ∧ u.inputs = [] ∧ u.busy = false ∧ wire u = wire t ∧
      u.status = t.status
end

