-- ==== Sys2Proof/Laws/State.lean ====
section
/-! SUPPORT. One lemma per field per update of State: what each shared update leaves alone, and the few fields whose new
value is worth a rewrite. -/

namespace Sys2Proof.Machine

@[simp] theorem emit_cfg (e : Event) (s : State) : (emit e s).cfg = s.cfg := rfl
@[simp] theorem emit_regs (e : Event) (s : State) : (emit e s).regs = s.regs := rfl
@[simp] theorem emit_seq (e : Event) (s : State) : (emit e s).seq = s.seq := rfl
@[simp] theorem emit_initState (e : Event) (s : State) : (emit e s).initState = s.initState := rfl
@[simp] theorem emit_busy (e : Event) (s : State) : (emit e s).busy = s.busy := rfl
@[simp] theorem emit_fault (e : Event) (s : State) : (emit e s).fault = s.fault := rfl
@[simp] theorem emit_status (e : Event) (s : State) : (emit e s).status = s.status := rfl
@[simp] theorem emit_lines (e : Event) (s : State) : (emit e s).lines = s.lines := rfl
@[simp] theorem emit_bus (e : Event) (s : State) : (emit e s).bus = s.bus := rfl
@[simp] theorem emit_waits (e : Event) (s : State) : (emit e s).waits = s.waits := rfl
@[simp] theorem emit_trace (e : Event) (s : State) : (emit e s).trace = s.trace ++ [e] := rfl
@[simp] theorem emit_panel (e : Event) (s : State) : (emit e s).panel = s.panel.onEvent s.cfg.panelWrap e := rfl
@[simp] theorem emit_inputs (e : Event) (s : State) : (emit e s).inputs = s.inputs := rfl
@[simp] theorem emit_sched (e : Event) (s : State) : (emit e s).sched = s.sched := rfl
@[simp] theorem emit_samples (e : Event) (s : State) : (emit e s).samples = s.samples := rfl

@[simp] theorem loadStep_cfg (v : Byte) (s : State) : (loadStep v s).cfg = s.cfg := rfl
@[simp] theorem loadStep_regs (v : Byte) (s : State) : (loadStep v s).regs = s.regs := rfl
@[simp] theorem loadStep_seq (v : Byte) (s : State) : (loadStep v s).seq = s.seq := rfl
@[simp] theorem loadStep_initState (v : Byte) (s : State) : (loadStep v s).initState = s.initState := rfl
@[simp] theorem loadStep_busy (v : Byte) (s : State) : (loadStep v s).busy = s.busy := rfl
@[simp] theorem loadStep_fault (v : Byte) (s : State) : (loadStep v s).fault = s.fault := rfl
@[simp] theorem loadStep_status (v : Byte) (s : State) : (loadStep v s).status = s.status := rfl
@[simp] theorem loadStep_lines (v : Byte) (s : State) : (loadStep v s).lines = s.lines := rfl
@[simp] theorem loadStep_bus (v : Byte) (s : State) : (loadStep v s).bus = { txbuf := none, shreg := some { value := v, bit := 7, dc := s.lines.dc } } := rfl
@[simp] theorem loadStep_waits (v : Byte) (s : State) : (loadStep v s).waits = s.waits := rfl
@[simp] theorem loadStep_trace (v : Byte) (s : State) : (loadStep v s).trace = s.trace := rfl
@[simp] theorem loadStep_panel (v : Byte) (s : State) : (loadStep v s).panel = s.panel := rfl
@[simp] theorem loadStep_inputs (v : Byte) (s : State) : (loadStep v s).inputs = s.inputs := rfl
@[simp] theorem loadStep_sched (v : Byte) (s : State) : (loadStep v s).sched = s.sched := rfl
@[simp] theorem loadStep_samples (v : Byte) (s : State) : (loadStep v s).samples = s.samples := rfl

@[simp] theorem clockPulse_cfg (b : Bool) (s : State) : (clockPulse b s).cfg = s.cfg := rfl
@[simp] theorem clockPulse_regs (b : Bool) (s : State) : (clockPulse b s).regs = s.regs := rfl
@[simp] theorem clockPulse_seq (b : Bool) (s : State) : (clockPulse b s).seq = s.seq := rfl
@[simp] theorem clockPulse_initState (b : Bool) (s : State) : (clockPulse b s).initState = s.initState := rfl
@[simp] theorem clockPulse_busy (b : Bool) (s : State) : (clockPulse b s).busy = s.busy := rfl
@[simp] theorem clockPulse_fault (b : Bool) (s : State) : (clockPulse b s).fault = s.fault := rfl
@[simp] theorem clockPulse_status (b : Bool) (s : State) : (clockPulse b s).status = s.status := rfl
@[simp] theorem clockPulse_lines (b : Bool) (s : State) : (clockPulse b s).lines = { s.lines with sck := false, mosi := b } := rfl
@[simp] theorem clockPulse_bus (b : Bool) (s : State) : (clockPulse b s).bus = s.bus := rfl
@[simp] theorem clockPulse_waits (b : Bool) (s : State) : (clockPulse b s).waits = s.waits := rfl
@[simp] theorem clockPulse_trace (b : Bool) (s : State) : (clockPulse b s).trace = s.trace := rfl
@[simp] theorem clockPulse_panel (b : Bool) (s : State) : (clockPulse b s).panel = s.panel := rfl
@[simp] theorem clockPulse_inputs (b : Bool) (s : State) : (clockPulse b s).inputs = s.inputs := rfl
@[simp] theorem clockPulse_sched (b : Bool) (s : State) : (clockPulse b s).sched = s.sched := rfl
@[simp] theorem clockPulse_samples (b : Bool) (s : State) : (clockPulse b s).samples = s.samples ++ [b] := rfl

@[simp] theorem driveSelect_cfg (b : Bool) (s : State) : (driveSelect b s).cfg = s.cfg := rfl
@[simp] theorem driveSelect_regs (b : Bool) (s : State) : (driveSelect b s).regs = s.regs := rfl
@[simp] theorem driveSelect_seq (b : Bool) (s : State) : (driveSelect b s).seq = s.seq := rfl
@[simp] theorem driveSelect_initState (b : Bool) (s : State) : (driveSelect b s).initState = s.initState := rfl
@[simp] theorem driveSelect_busy (b : Bool) (s : State) : (driveSelect b s).busy = s.busy := rfl
@[simp] theorem driveSelect_fault (b : Bool) (s : State) : (driveSelect b s).fault = s.fault := rfl
@[simp] theorem driveSelect_status (b : Bool) (s : State) : (driveSelect b s).status = s.status := rfl
@[simp] theorem driveSelect_lines (b : Bool) (s : State) : (driveSelect b s).lines = { s.lines with csN := b } := rfl
@[simp] theorem driveSelect_bus (b : Bool) (s : State) : (driveSelect b s).bus = s.bus := rfl
@[simp] theorem driveSelect_waits (b : Bool) (s : State) : (driveSelect b s).waits = s.waits := rfl
@[simp] theorem driveSelect_trace (b : Bool) (s : State) : (driveSelect b s).trace = s.trace ++ [.sel b] := rfl
@[simp] theorem driveSelect_panel (b : Bool) (s : State) : (driveSelect b s).panel = s.panel.onSel b := rfl
@[simp] theorem driveSelect_inputs (b : Bool) (s : State) : (driveSelect b s).inputs = s.inputs := rfl
@[simp] theorem driveSelect_sched (b : Bool) (s : State) : (driveSelect b s).sched = s.sched := rfl
@[simp] theorem driveSelect_samples (b : Bool) (s : State) : (driveSelect b s).samples = s.samples := rfl

@[simp] theorem driveDc_cfg (b : Bool) (s : State) : (driveDc b s).cfg = s.cfg := rfl
@[simp] theorem driveDc_regs (b : Bool) (s : State) : (driveDc b s).regs = s.regs := rfl
@[simp] theorem driveDc_seq (b : Bool) (s : State) : (driveDc b s).seq = s.seq := rfl
@[simp] theorem driveDc_initState (b : Bool) (s : State) : (driveDc b s).initState = s.initState := rfl
@[simp] theorem driveDc_busy (b : Bool) (s : State) : (driveDc b s).busy = s.busy := rfl
@[simp] theorem driveDc_fault (b : Bool) (s : State) : (driveDc b s).fault = s.fault := rfl
@[simp] theorem driveDc_status (b : Bool) (s : State) : (driveDc b s).status = s.status := rfl
@[simp] theorem driveDc_lines (b : Bool) (s : State) : (driveDc b s).lines = { s.lines with dc := b } := rfl
@[simp] theorem driveDc_bus (b : Bool) (s : State) : (driveDc b s).bus = s.bus := rfl
@[simp] theorem driveDc_waits (b : Bool) (s : State) : (driveDc b s).waits = s.waits := rfl
@[simp] theorem driveDc_trace (b : Bool) (s : State) : (driveDc b s).trace = s.trace ++ [.dcset b] := rfl
@[simp] theorem driveDc_panel (b : Bool) (s : State) : (driveDc b s).panel = s.panel := rfl
@[simp] theorem driveDc_inputs (b : Bool) (s : State) : (driveDc b s).inputs = s.inputs := rfl
@[simp] theorem driveDc_sched (b : Bool) (s : State) : (driveDc b s).sched = s.sched := rfl
@[simp] theorem driveDc_samples (b : Bool) (s : State) : (driveDc b s).samples = s.samples := rfl

@[simp] theorem driveReset_cfg (b : Bool) (s : State) : (driveReset b s).cfg = s.cfg := rfl
@[simp] theorem driveReset_regs (b : Bool) (s : State) : (driveReset b s).regs = s.regs := rfl
@[simp] theorem driveReset_seq (b : Bool) (s : State) : (driveReset b s).seq = s.seq := rfl
@[simp] theorem driveReset_initState (b : Bool) (s : State) : (driveReset b s).initState = s.initState := rfl
@[simp] theorem driveReset_busy (b : Bool) (s : State) : (driveReset b s).busy = s.busy := rfl
@[simp] theorem driveReset_fault (b : Bool) (s : State) : (driveReset b s).fault = s.fault := rfl
@[simp] theorem driveReset_status (b : Bool) (s : State) : (driveReset b s).status = s.status := rfl
@[simp] theorem driveReset_lines (b : Bool) (s : State) : (driveReset b s).lines = { s.lines with rstN := b } := rfl
@[simp] theorem driveReset_bus (b : Bool) (s : State) : (driveReset b s).bus = s.bus := rfl
@[simp] theorem driveReset_waits (b : Bool) (s : State) : (driveReset b s).waits = s.waits := rfl
@[simp] theorem driveReset_trace (b : Bool) (s : State) : (driveReset b s).trace = s.trace ++ [.rst b] := rfl
@[simp] theorem driveReset_panel (b : Bool) (s : State) : (driveReset b s).panel = s.panel.onRst b := rfl
@[simp] theorem driveReset_inputs (b : Bool) (s : State) : (driveReset b s).inputs = s.inputs := rfl
@[simp] theorem driveReset_sched (b : Bool) (s : State) : (driveReset b s).sched = s.sched := rfl
@[simp] theorem driveReset_samples (b : Bool) (s : State) : (driveReset b s).samples = s.samples := rfl

@[simp] theorem enqueue_cfg (v : Byte) (s : State) : (enqueue v s).cfg = s.cfg := rfl
@[simp] theorem enqueue_regs (v : Byte) (s : State) : (enqueue v s).regs = s.regs := rfl
@[simp] theorem enqueue_seq (v : Byte) (s : State) : (enqueue v s).seq = s.seq := rfl
@[simp] theorem enqueue_initState (v : Byte) (s : State) : (enqueue v s).initState = s.initState := rfl
@[simp] theorem enqueue_busy (v : Byte) (s : State) : (enqueue v s).busy = s.busy := rfl
@[simp] theorem enqueue_fault (v : Byte) (s : State) : (enqueue v s).fault = s.fault := rfl
@[simp] theorem enqueue_status (v : Byte) (s : State) : (enqueue v s).status = s.status := rfl
@[simp] theorem enqueue_lines (v : Byte) (s : State) : (enqueue v s).lines = s.lines := rfl
@[simp] theorem enqueue_bus (v : Byte) (s : State) : (enqueue v s).bus = { s.bus with txbuf := some v } := rfl
@[simp] theorem enqueue_waits (v : Byte) (s : State) : (enqueue v s).waits = s.waits := rfl
@[simp] theorem enqueue_trace (v : Byte) (s : State) : (enqueue v s).trace = s.trace ++ [.tx v] := rfl
@[simp] theorem enqueue_panel (v : Byte) (s : State) : (enqueue v s).panel = s.panel := rfl
@[simp] theorem enqueue_inputs (v : Byte) (s : State) : (enqueue v s).inputs = s.inputs := rfl
@[simp] theorem enqueue_sched (v : Byte) (s : State) : (enqueue v s).sched = s.sched := rfl
@[simp] theorem enqueue_samples (v : Byte) (s : State) : (enqueue v s).samples = s.samples := rfl

@[simp] theorem holdFor_cfg (t : DelayTime) (s : State) : (holdFor t s).cfg = s.cfg := rfl
@[simp] theorem holdFor_regs (t : DelayTime) (s : State) : (holdFor t s).regs = s.regs := rfl
@[simp] theorem holdFor_seq (t : DelayTime) (s : State) : (holdFor t s).seq = s.seq := rfl
@[simp] theorem holdFor_initState (t : DelayTime) (s : State) : (holdFor t s).initState = s.initState := rfl
@[simp] theorem holdFor_busy (t : DelayTime) (s : State) : (holdFor t s).busy = s.busy := rfl
@[simp] theorem holdFor_fault (t : DelayTime) (s : State) : (holdFor t s).fault = s.fault := rfl
@[simp] theorem holdFor_status (t : DelayTime) (s : State) : (holdFor t s).status = s.status := rfl
@[simp] theorem holdFor_lines (t : DelayTime) (s : State) : (holdFor t s).lines = s.lines := rfl
@[simp] theorem holdFor_bus (t : DelayTime) (s : State) : (holdFor t s).bus = s.bus := rfl
@[simp] theorem holdFor_waits (t : DelayTime) (s : State) : (holdFor t s).waits = s.waits := rfl
@[simp] theorem holdFor_trace (t : DelayTime) (s : State) : (holdFor t s).trace = s.trace ++ [.wait (delayMicros s.cfg t)] := rfl
@[simp] theorem holdFor_panel (t : DelayTime) (s : State) : (holdFor t s).panel = s.panel.onWait (delayMicros s.cfg t) := rfl
@[simp] theorem holdFor_inputs (t : DelayTime) (s : State) : (holdFor t s).inputs = s.inputs := rfl
@[simp] theorem holdFor_sched (t : DelayTime) (s : State) : (holdFor t s).sched = s.sched := rfl
@[simp] theorem holdFor_samples (t : DelayTime) (s : State) : (holdFor t s).samples = s.samples := rfl

@[simp] theorem startBurst_cfg (n : U32) (s : State) : (startBurst n s).cfg = s.cfg := rfl
@[simp] theorem startBurst_regs (n : U32) (s : State) : (startBurst n s).regs = { s.regs with count := n, idx := 0 } := rfl
@[simp] theorem startBurst_seq (n : U32) (s : State) : (startBurst n s).seq = s.seq := rfl
@[simp] theorem startBurst_initState (n : U32) (s : State) : (startBurst n s).initState = s.initState := rfl
@[simp] theorem startBurst_busy (n : U32) (s : State) : (startBurst n s).busy = s.busy := rfl
@[simp] theorem startBurst_fault (n : U32) (s : State) : (startBurst n s).fault = s.fault := rfl
@[simp] theorem startBurst_status (n : U32) (s : State) : (startBurst n s).status = s.status := rfl
@[simp] theorem startBurst_lines (n : U32) (s : State) : (startBurst n s).lines = s.lines := rfl
@[simp] theorem startBurst_bus (n : U32) (s : State) : (startBurst n s).bus = s.bus := rfl
@[simp] theorem startBurst_waits (n : U32) (s : State) : (startBurst n s).waits = s.waits := rfl
@[simp] theorem startBurst_trace (n : U32) (s : State) : (startBurst n s).trace = s.trace := rfl
@[simp] theorem startBurst_panel (n : U32) (s : State) : (startBurst n s).panel = s.panel := rfl
@[simp] theorem startBurst_inputs (n : U32) (s : State) : (startBurst n s).inputs = s.inputs := rfl
@[simp] theorem startBurst_sched (n : U32) (s : State) : (startBurst n s).sched = s.sched := rfl
@[simp] theorem startBurst_samples (n : U32) (s : State) : (startBurst n s).samples = s.samples := rfl

@[simp] theorem raise_cfg (c : BitVec 4) (s : State) : (raise c s).cfg = s.cfg := rfl
@[simp] theorem raise_regs (c : BitVec 4) (s : State) : (raise c s).regs = s.regs := rfl
@[simp] theorem raise_seq (c : BitVec 4) (s : State) : (raise c s).seq = Seq.idle := rfl
@[simp] theorem raise_initState (c : BitVec 4) (s : State) : (raise c s).initState = s.initState := rfl
@[simp] theorem raise_busy (c : BitVec 4) (s : State) : (raise c s).busy = false := rfl
@[simp] theorem raise_fault (c : BitVec 4) (s : State) : (raise c s).fault = s.fault := rfl
@[simp] theorem raise_status (c : BitVec 4) (s : State) : (raise c s).status = c := rfl
@[simp] theorem raise_lines (c : BitVec 4) (s : State) : (raise c s).lines = s.lines := rfl
@[simp] theorem raise_bus (c : BitVec 4) (s : State) : (raise c s).bus = s.bus := rfl
@[simp] theorem raise_waits (c : BitVec 4) (s : State) : (raise c s).waits = 0 := rfl
@[simp] theorem raise_trace (c : BitVec 4) (s : State) : (raise c s).trace = s.trace := rfl
@[simp] theorem raise_panel (c : BitVec 4) (s : State) : (raise c s).panel = s.panel := rfl
@[simp] theorem raise_inputs (c : BitVec 4) (s : State) : (raise c s).inputs = s.inputs := rfl
@[simp] theorem raise_sched (c : BitVec 4) (s : State) : (raise c s).sched = s.sched := rfl
@[simp] theorem raise_samples (c : BitVec 4) (s : State) : (raise c s).samples = s.samples := rfl

@[simp] theorem timeOut_cfg (s : State) : (timeOut s).cfg = s.cfg := rfl
@[simp] theorem timeOut_regs (s : State) : (timeOut s).regs = s.regs := rfl
@[simp] theorem timeOut_seq (s : State) : (timeOut s).seq = Seq.idle := rfl
@[simp] theorem timeOut_initState (s : State) : (timeOut s).initState = s.initState := rfl
@[simp] theorem timeOut_busy (s : State) : (timeOut s).busy = false := rfl
@[simp] theorem timeOut_fault (s : State) : (timeOut s).fault = true := rfl
@[simp] theorem timeOut_status (s : State) : (timeOut s).status = STATUS_BUS_TIMEOUT := rfl
@[simp] theorem timeOut_lines (s : State) : (timeOut s).lines = s.lines := rfl
@[simp] theorem timeOut_bus (s : State) : (timeOut s).bus = s.bus := rfl
@[simp] theorem timeOut_waits (s : State) : (timeOut s).waits = 0 := rfl
@[simp] theorem timeOut_trace (s : State) : (timeOut s).trace = s.trace := rfl
@[simp] theorem timeOut_panel (s : State) : (timeOut s).panel = s.panel := rfl
@[simp] theorem timeOut_inputs (s : State) : (timeOut s).inputs = s.inputs := rfl
@[simp] theorem timeOut_sched (s : State) : (timeOut s).sched = s.sched := rfl
@[simp] theorem timeOut_samples (s : State) : (timeOut s).samples = s.samples := rfl

@[simp] theorem complete_cfg (s : State) : (complete s).cfg = s.cfg := rfl
@[simp] theorem complete_regs (s : State) : (complete s).regs = s.regs := rfl
@[simp] theorem complete_seq (s : State) : (complete s).seq = Seq.idle := rfl
@[simp] theorem complete_initState (s : State) : (complete s).initState = s.initState := rfl
@[simp] theorem complete_busy (s : State) : (complete s).busy = false := rfl
@[simp] theorem complete_fault (s : State) : (complete s).fault = s.fault := rfl
@[simp] theorem complete_status (s : State) : (complete s).status = STATUS_OK := rfl
@[simp] theorem complete_lines (s : State) : (complete s).lines = s.lines := rfl
@[simp] theorem complete_bus (s : State) : (complete s).bus = s.bus := rfl
@[simp] theorem complete_waits (s : State) : (complete s).waits = 0 := rfl
@[simp] theorem complete_trace (s : State) : (complete s).trace = s.trace := rfl
@[simp] theorem complete_panel (s : State) : (complete s).panel = s.panel := rfl
@[simp] theorem complete_inputs (s : State) : (complete s).inputs = s.inputs := rfl
@[simp] theorem complete_sched (s : State) : (complete s).sched = s.sched := rfl
@[simp] theorem complete_samples (s : State) : (complete s).samples = s.samples := rfl

@[simp] theorem accept_cfg (op : HostOp) (l : List Atom) (s : State) : (accept op l s).cfg = s.cfg := rfl
@[simp] theorem accept_regs (op : HostOp) (l : List Atom) (s : State) : (accept op l s).regs = s.regs := rfl
@[simp] theorem accept_seq (op : HostOp) (l : List Atom) (s : State) : (accept op l s).seq = { op := some op, todo := l } := rfl
@[simp] theorem accept_initState (op : HostOp) (l : List Atom) (s : State) : (accept op l s).initState = s.initState := rfl
@[simp] theorem accept_busy (op : HostOp) (l : List Atom) (s : State) : (accept op l s).busy = true := rfl
@[simp] theorem accept_fault (op : HostOp) (l : List Atom) (s : State) : (accept op l s).fault = s.fault := rfl
@[simp] theorem accept_status (op : HostOp) (l : List Atom) (s : State) : (accept op l s).status = s.status := rfl
@[simp] theorem accept_lines (op : HostOp) (l : List Atom) (s : State) : (accept op l s).lines = s.lines := rfl
@[simp] theorem accept_bus (op : HostOp) (l : List Atom) (s : State) : (accept op l s).bus = s.bus := rfl
@[simp] theorem accept_waits (op : HostOp) (l : List Atom) (s : State) : (accept op l s).waits = s.waits := rfl
@[simp] theorem accept_trace (op : HostOp) (l : List Atom) (s : State) : (accept op l s).trace = s.trace := rfl
@[simp] theorem accept_panel (op : HostOp) (l : List Atom) (s : State) : (accept op l s).panel = s.panel := rfl
@[simp] theorem accept_inputs (op : HostOp) (l : List Atom) (s : State) : (accept op l s).inputs = s.inputs := rfl
@[simp] theorem accept_sched (op : HostOp) (l : List Atom) (s : State) : (accept op l s).sched = s.sched := rfl
@[simp] theorem accept_samples (op : HostOp) (l : List Atom) (s : State) : (accept op l s).samples = s.samples := rfl

@[simp] theorem latchWindow_cfg (x0 y0 x1 y1 : U16) (s : State) : (latchWindow x0 y0 x1 y1 s).cfg = s.cfg := rfl
@[simp] theorem latchWindow_seq (x0 y0 x1 y1 : U16) (s : State) : (latchWindow x0 y0 x1 y1 s).seq = s.seq := rfl
@[simp] theorem latchWindow_initState (x0 y0 x1 y1 : U16) (s : State) : (latchWindow x0 y0 x1 y1 s).initState = s.initState := rfl
@[simp] theorem latchWindow_busy (x0 y0 x1 y1 : U16) (s : State) : (latchWindow x0 y0 x1 y1 s).busy = s.busy := rfl
@[simp] theorem latchWindow_fault (x0 y0 x1 y1 : U16) (s : State) : (latchWindow x0 y0 x1 y1 s).fault = s.fault := rfl
@[simp] theorem latchWindow_status (x0 y0 x1 y1 : U16) (s : State) : (latchWindow x0 y0 x1 y1 s).status = s.status := rfl
@[simp] theorem latchWindow_lines (x0 y0 x1 y1 : U16) (s : State) : (latchWindow x0 y0 x1 y1 s).lines = s.lines := rfl
@[simp] theorem latchWindow_bus (x0 y0 x1 y1 : U16) (s : State) : (latchWindow x0 y0 x1 y1 s).bus = s.bus := rfl
@[simp] theorem latchWindow_waits (x0 y0 x1 y1 : U16) (s : State) : (latchWindow x0 y0 x1 y1 s).waits = s.waits := rfl
@[simp] theorem latchWindow_trace (x0 y0 x1 y1 : U16) (s : State) : (latchWindow x0 y0 x1 y1 s).trace = s.trace := rfl
@[simp] theorem latchWindow_panel (x0 y0 x1 y1 : U16) (s : State) : (latchWindow x0 y0 x1 y1 s).panel = s.panel := rfl
@[simp] theorem latchWindow_inputs (x0 y0 x1 y1 : U16) (s : State) : (latchWindow x0 y0 x1 y1 s).inputs = s.inputs := rfl
@[simp] theorem latchWindow_sched (x0 y0 x1 y1 : U16) (s : State) : (latchWindow x0 y0 x1 y1 s).sched = s.sched := rfl
@[simp] theorem latchWindow_samples (x0 y0 x1 y1 : U16) (s : State) : (latchWindow x0 y0 x1 y1 s).samples = s.samples := rfl

@[simp] theorem latchAnchor_cfg (x y : U16) (s : State) : (latchAnchor x y s).cfg = s.cfg := rfl
@[simp] theorem latchAnchor_seq (x y : U16) (s : State) : (latchAnchor x y s).seq = s.seq := rfl
@[simp] theorem latchAnchor_initState (x y : U16) (s : State) : (latchAnchor x y s).initState = s.initState := rfl
@[simp] theorem latchAnchor_busy (x y : U16) (s : State) : (latchAnchor x y s).busy = s.busy := rfl
@[simp] theorem latchAnchor_fault (x y : U16) (s : State) : (latchAnchor x y s).fault = s.fault := rfl
@[simp] theorem latchAnchor_status (x y : U16) (s : State) : (latchAnchor x y s).status = s.status := rfl
@[simp] theorem latchAnchor_lines (x y : U16) (s : State) : (latchAnchor x y s).lines = s.lines := rfl
@[simp] theorem latchAnchor_bus (x y : U16) (s : State) : (latchAnchor x y s).bus = s.bus := rfl
@[simp] theorem latchAnchor_waits (x y : U16) (s : State) : (latchAnchor x y s).waits = s.waits := rfl
@[simp] theorem latchAnchor_trace (x y : U16) (s : State) : (latchAnchor x y s).trace = s.trace := rfl
@[simp] theorem latchAnchor_panel (x y : U16) (s : State) : (latchAnchor x y s).panel = s.panel := rfl
@[simp] theorem latchAnchor_inputs (x y : U16) (s : State) : (latchAnchor x y s).inputs = s.inputs := rfl
@[simp] theorem latchAnchor_sched (x y : U16) (s : State) : (latchAnchor x y s).sched = s.sched := rfl
@[simp] theorem latchAnchor_samples (x y : U16) (s : State) : (latchAnchor x y s).samples = s.samples := rfl

@[simp] theorem latchSize_cfg (w h : U16) (s : State) : (latchSize w h s).cfg = s.cfg := rfl
@[simp] theorem latchSize_seq (w h : U16) (s : State) : (latchSize w h s).seq = s.seq := rfl
@[simp] theorem latchSize_initState (w h : U16) (s : State) : (latchSize w h s).initState = s.initState := rfl
@[simp] theorem latchSize_busy (w h : U16) (s : State) : (latchSize w h s).busy = s.busy := rfl
@[simp] theorem latchSize_fault (w h : U16) (s : State) : (latchSize w h s).fault = s.fault := rfl
@[simp] theorem latchSize_status (w h : U16) (s : State) : (latchSize w h s).status = s.status := rfl
@[simp] theorem latchSize_lines (w h : U16) (s : State) : (latchSize w h s).lines = s.lines := rfl
@[simp] theorem latchSize_bus (w h : U16) (s : State) : (latchSize w h s).bus = s.bus := rfl
@[simp] theorem latchSize_waits (w h : U16) (s : State) : (latchSize w h s).waits = s.waits := rfl
@[simp] theorem latchSize_trace (w h : U16) (s : State) : (latchSize w h s).trace = s.trace := rfl
@[simp] theorem latchSize_panel (w h : U16) (s : State) : (latchSize w h s).panel = s.panel := rfl
@[simp] theorem latchSize_inputs (w h : U16) (s : State) : (latchSize w h s).inputs = s.inputs := rfl
@[simp] theorem latchSize_sched (w h : U16) (s : State) : (latchSize w h s).sched = s.sched := rfl
@[simp] theorem latchSize_samples (w h : U16) (s : State) : (latchSize w h s).samples = s.samples := rfl

@[simp] theorem latchColor_cfg (c : U16) (s : State) : (latchColor c s).cfg = s.cfg := rfl
@[simp] theorem latchColor_seq (c : U16) (s : State) : (latchColor c s).seq = s.seq := rfl
@[simp] theorem latchColor_initState (c : U16) (s : State) : (latchColor c s).initState = s.initState := rfl
@[simp] theorem latchColor_busy (c : U16) (s : State) : (latchColor c s).busy = s.busy := rfl
@[simp] theorem latchColor_fault (c : U16) (s : State) : (latchColor c s).fault = s.fault := rfl
@[simp] theorem latchColor_status (c : U16) (s : State) : (latchColor c s).status = s.status := rfl
@[simp] theorem latchColor_lines (c : U16) (s : State) : (latchColor c s).lines = s.lines := rfl
@[simp] theorem latchColor_bus (c : U16) (s : State) : (latchColor c s).bus = s.bus := rfl
@[simp] theorem latchColor_waits (c : U16) (s : State) : (latchColor c s).waits = s.waits := rfl
@[simp] theorem latchColor_trace (c : U16) (s : State) : (latchColor c s).trace = s.trace := rfl
@[simp] theorem latchColor_panel (c : U16) (s : State) : (latchColor c s).panel = s.panel := rfl
@[simp] theorem latchColor_inputs (c : U16) (s : State) : (latchColor c s).inputs = s.inputs := rfl
@[simp] theorem latchColor_sched (c : U16) (s : State) : (latchColor c s).sched = s.sched := rfl
@[simp] theorem latchColor_samples (c : U16) (s : State) : (latchColor c s).samples = s.samples := rfl

@[simp] theorem latchSource_cfg (px : List U16) (s : State) : (latchSource px s).cfg = s.cfg := rfl
@[simp] theorem latchSource_seq (px : List U16) (s : State) : (latchSource px s).seq = s.seq := rfl
@[simp] theorem latchSource_initState (px : List U16) (s : State) : (latchSource px s).initState = s.initState := rfl
@[simp] theorem latchSource_busy (px : List U16) (s : State) : (latchSource px s).busy = s.busy := rfl
@[simp] theorem latchSource_fault (px : List U16) (s : State) : (latchSource px s).fault = s.fault := rfl
@[simp] theorem latchSource_status (px : List U16) (s : State) : (latchSource px s).status = s.status := rfl
@[simp] theorem latchSource_lines (px : List U16) (s : State) : (latchSource px s).lines = s.lines := rfl
@[simp] theorem latchSource_bus (px : List U16) (s : State) : (latchSource px s).bus = s.bus := rfl
@[simp] theorem latchSource_waits (px : List U16) (s : State) : (latchSource px s).waits = s.waits := rfl
@[simp] theorem latchSource_trace (px : List U16) (s : State) : (latchSource px s).trace = s.trace := rfl
@[simp] theorem latchSource_panel (px : List U16) (s : State) : (latchSource px s).panel = s.panel := rfl
@[simp] theorem latchSource_inputs (px : List U16) (s : State) : (latchSource px s).inputs = s.inputs := rfl
@[simp] theorem latchSource_sched (px : List U16) (s : State) : (latchSource px s).sched = s.sched := rfl
@[simp] theorem latchSource_samples (px : List U16) (s : State) : (latchSource px s).samples = s.samples := rfl

@[simp] theorem latchClip_cfg (s : State) : (latchClip s).cfg = s.cfg := rfl
@[simp] theorem latchClip_seq (s : State) : (latchClip s).seq = s.seq := rfl
@[simp] theorem latchClip_initState (s : State) : (latchClip s).initState = s.initState := rfl
@[simp] theorem latchClip_busy (s : State) : (latchClip s).busy = s.busy := rfl
@[simp] theorem latchClip_fault (s : State) : (latchClip s).fault = s.fault := rfl
@[simp] theorem latchClip_status (s : State) : (latchClip s).status = s.status := rfl
@[simp] theorem latchClip_lines (s : State) : (latchClip s).lines = s.lines := rfl
@[simp] theorem latchClip_bus (s : State) : (latchClip s).bus = s.bus := rfl
@[simp] theorem latchClip_waits (s : State) : (latchClip s).waits = s.waits := rfl
@[simp] theorem latchClip_trace (s : State) : (latchClip s).trace = s.trace := rfl
@[simp] theorem latchClip_panel (s : State) : (latchClip s).panel = s.panel := rfl
@[simp] theorem latchClip_inputs (s : State) : (latchClip s).inputs = s.inputs := rfl
@[simp] theorem latchClip_sched (s : State) : (latchClip s).sched = s.sched := rfl
@[simp] theorem latchClip_samples (s : State) : (latchClip s).samples = s.samples := rfl

@[simp] theorem latchRegion_cfg (s : State) : (latchRegion s).cfg = s.cfg := rfl
@[simp] theorem latchRegion_seq (s : State) : (latchRegion s).seq = s.seq := rfl
@[simp] theorem latchRegion_initState (s : State) : (latchRegion s).initState = s.initState := rfl
@[simp] theorem latchRegion_busy (s : State) : (latchRegion s).busy = s.busy := rfl
@[simp] theorem latchRegion_fault (s : State) : (latchRegion s).fault = s.fault := rfl
@[simp] theorem latchRegion_status (s : State) : (latchRegion s).status = s.status := rfl
@[simp] theorem latchRegion_lines (s : State) : (latchRegion s).lines = s.lines := rfl
@[simp] theorem latchRegion_bus (s : State) : (latchRegion s).bus = s.bus := rfl
@[simp] theorem latchRegion_waits (s : State) : (latchRegion s).waits = s.waits := rfl
@[simp] theorem latchRegion_trace (s : State) : (latchRegion s).trace = s.trace := rfl
@[simp] theorem latchRegion_panel (s : State) : (latchRegion s).panel = s.panel := rfl
@[simp] theorem latchRegion_inputs (s : State) : (latchRegion s).inputs = s.inputs := rfl
@[simp] theorem latchRegion_sched (s : State) : (latchRegion s).sched = s.sched := rfl
@[simp] theorem latchRegion_samples (s : State) : (latchRegion s).samples = s.samples := rfl

end Sys2Proof.Machine
end

