-- ==== Sys2Proof/Laws/Transport.lean ====
section
/-! SUPPORT. What one move of the transport can do: its frame, what it keeps (the order and the class of bytes, their
bits, the observer's future), and that it uses up the transport's work. -/

namespace Sys2Proof.Machine

/-- Everything a transport's move leaves alone, the schedule included. -/
structure TxFrame (s t : State) : Prop extends SameControl s t where
  sched_eq : t.sched = s.sched

theorem SameControl.refl (s : State) : SameControl s s := by constructor <;> simp

theorem SameControl.trans {s t u : State} (h : SameControl s t) (k : SameControl t u) : SameControl s u where
  cfg_eq := k.cfg_eq.trans h.cfg_eq
  regs_eq := k.regs_eq.trans h.regs_eq
  seq_eq := k.seq_eq.trans h.seq_eq
  initState_eq := k.initState_eq.trans h.initState_eq
  busy_eq := k.busy_eq.trans h.busy_eq
  fault_eq := k.fault_eq.trans h.fault_eq
  status_eq := k.status_eq.trans h.status_eq
  waits_eq := k.waits_eq.trans h.waits_eq
  inputs_eq := k.inputs_eq.trans h.inputs_eq
  csN_eq := k.csN_eq.trans h.csN_eq
  dc_eq := k.dc_eq.trans h.dc_eq
  rstN_eq := k.rstN_eq.trans h.rstN_eq
  sck_eq := fun hs => k.sck_eq (h.sck_eq hs)

theorem TxFrame.refl (s : State) : TxFrame s s := { toSameControl := SameControl.refl s, sched_eq := rfl }

/-- The cases of a transport's move. -/
theorem txMove_cases (s : State) :
    (∃ r, s.bus.shreg = some r ∧ txMove s = shiftStep r s) ∨
    (∃ v, s.bus.shreg = none ∧ s.bus.txbuf = some v ∧ txMove s = loadStep v s) ∨
    (s.bus.shreg = none ∧ s.bus.txbuf = none ∧ txMove s = s) := by
  unfold txMove
  rcases h : s.bus.shreg with _ | r
  · rcases h' : s.bus.txbuf with _ | v
    · exact .inr (.inr ⟨rfl, rfl, rfl⟩)
    · exact .inr (.inl ⟨v, rfl, rfl, rfl⟩)
  · exact .inl ⟨r, rfl, rfl⟩

/-- A shift step that is not the last: one bit goes out. -/
theorem shiftStep_more {r : ShiftReg} (h : r.bit ≠ 0) (s : State) :
    shiftStep r s =
      { s with
        lines := { s.lines with sck := false, mosi := r.value.getLsbD r.bit }
        samples := s.samples ++ [r.value.getLsbD r.bit]
        bus := { s.bus with shreg := some (shifted r) } } := by
  simp [shiftStep, h, clockPulse]

/-- The last shift step: the last bit goes out and the byte is complete. -/
theorem shiftStep_last {r : ShiftReg} (h : r.bit = 0) (s : State) :
    shiftStep r s =
      { s with
        lines := { s.lines with sck := false, mosi := r.value.getLsbD 0 }
        samples := s.samples ++ [r.value.getLsbD 0]
        bus := { s.bus with shreg := none }
        trace := s.trace ++ [.byte r.dc r.value]
        panel := s.panel.onByte s.cfg.panelWrap r.dc r.value } := by
  simp [shiftStep, h, clockPulse, emit, Panel.onEvent]

theorem txMove_frame (s : State) : TxFrame s (txMove s) := by
  rcases txMove_cases s with ⟨r, hr, h⟩ | ⟨v, h1, h2, h⟩ | ⟨h1, h2, h⟩
  · rw [h]
    by_cases hb : r.bit = 0
    · rw [shiftStep_last hb]; exact { toSameControl := by constructor <;> simp, sched_eq := rfl }
    · rw [shiftStep_more hb]; exact { toSameControl := by constructor <;> simp, sched_eq := rfl }
  · rw [h]; exact { toSameControl := by constructor <;> simp, sched_eq := rfl }
  · rw [h]; exact TxFrame.refl s

/-- The bits of a register are its next bit and the bits after it. -/
theorem bitsLeft_cons {r : ShiftReg} (h : r.bit ≠ 0) :
    r.bitsLeft = r.value.getLsbD r.bit :: (shifted r).bitsLeft := by
  obtain ⟨v, b, d⟩ := r
  fin_cases b <;> simp_all [ShiftReg.bitsLeft, shifted, msbFirst]

theorem bitsLeft_last {r : ShiftReg} (h : r.bit = 0) : r.bitsLeft = [r.value.getLsbD 0] := by
  obtain ⟨v, b, d⟩ := r
  fin_cases b <;> simp_all [ShiftReg.bitsLeft, msbFirst]

theorem bitsLeft_loaded (v : Byte) (d : Bool) : ({ value := v, bit := 7, dc := d } : ShiftReg).bitsLeft = msbFirst v := by
  simp [ShiftReg.bitsLeft, msbFirst]

/-- The trace and the bytes inside the transport together do not change with a transport's move (20_memory.md R70). -/
theorem txMove_trace (s : State) : (txMove s).trace ++ inflight (txMove s) = s.trace ++ inflight s := by
  rcases txMove_cases s with ⟨r, hr, h⟩ | ⟨v, h1, h2, h⟩ | ⟨h1, h2, h⟩
  · rw [h]
    by_cases hb : r.bit = 0
    · rw [shiftStep_last hb]; simp [inflight, hr]
    · rw [shiftStep_more hb]; simp [inflight, hr, shifted]
  · rw [h]; simp [inflight, h1, h2]
  · rw [h]

/-- The bits sampled and the bits still inside the transport together do not change (30_encoding.md R91). -/
theorem txMove_samples (s : State) : (txMove s).samples ++ pendingBits (txMove s) = s.samples ++ pendingBits s := by
  rcases txMove_cases s with ⟨r, hr, h⟩ | ⟨v, h1, h2, h⟩ | ⟨h1, h2, h⟩
  · rw [h]
    by_cases hb : r.bit = 0
    · rw [shiftStep_last hb]; simp [pendingBits, hr, bitsLeft_last hb]
    · rw [shiftStep_more hb]; simp [pendingBits, hr, bitsLeft_cons hb]
  · rw [h]; simp [pendingBits, h1, h2, bitsLeft_loaded]
  · rw [h]

/-- What the observer will be once the transport is empty does not change. -/
theorem txMove_panel (s : State) :
    (txMove s).panel.feed s.cfg.panelWrap (inflight (txMove s)) = s.panel.feed s.cfg.panelWrap (inflight s) := by
  rcases txMove_cases s with ⟨r, hr, h⟩ | ⟨v, h1, h2, h⟩ | ⟨h1, h2, h⟩
  · rw [h]
    by_cases hb : r.bit = 0
    · rw [shiftStep_last hb]; simp [inflight, hr, Panel.feed, Panel.onEvent]
    · rw [shiftStep_more hb]; simp [inflight, hr, shifted, Panel.feed]
  · rw [h]; simp [inflight, h1, h2, Panel.feed]
  · rw [h]

theorem filter_fromSequencer_inflight (s : State) : (inflight s).filter Event.fromSequencer = [] := by
  unfold inflight
  rcases s.bus.shreg with _ | r <;> rcases s.bus.txbuf with _ | v <;> simp [Event.fromSequencer]

theorem filter_onWire_inflight (s : State) : (inflight s).filter Event.onWire = inflight s := by
  unfold inflight
  rcases s.bus.shreg with _ | r <;> rcases s.bus.txbuf with _ | v <;> simp [Event.onWire]

/-- The sequencer's own events do not change with a transport's move. -/
theorem txMove_calls (s : State) : calls (txMove s) = calls s := by
  have h := congrArg (List.filter Event.fromSequencer) (txMove_trace s)
  simpa [calls, List.filter_append, filter_fromSequencer_inflight] using h

/-- The wire and the bytes inside the transport together do not change with a transport's move. -/
theorem txMove_wire (s : State) : wire (txMove s) ++ inflight (txMove s) = wire s ++ inflight s := by
  have h := congrArg (List.filter Event.onWire) (txMove_trace s)
  simpa [wire, List.filter_append, filter_onWire_inflight] using h

/-- A move uses up one unit of the transport's work. -/
theorem txMove_work (s : State) : (txMove s).bus.work = s.bus.work - 1 := by
  rcases txMove_cases s with ⟨r, hr, h⟩ | ⟨v, h1, h2, h⟩ | ⟨h1, h2, h⟩
  · rw [h]
    by_cases hb : r.bit = 0
    · rw [shiftStep_last hb]; simp [Transport.work, hr, hb]
    · rw [shiftStep_more hb]
      obtain ⟨v, b, d⟩ := r
      have : (b - 1).val = b.val - 1 := by
        fin_cases b <;> simp_all
      have hb' : 0 < b.val := by
        rcases Nat.eq_zero_or_pos b.val with h0 | h0
        · exact absurd (Fin.ext h0) hb
        · exact h0
      simp [Transport.work, hr, shifted, this]
      omega
  · rw [h]; simp [Transport.work, h1, h2]
  · rw [h]; simp [Transport.work, h1, h2]

/-- No work left means nothing inside the transport. -/
theorem work_zero {b : Transport} : b.work = 0 ↔ b = Transport.empty := by
  obtain ⟨t, r⟩ := b
  rcases t with _ | v <;> rcases r with _ | r <;> simp [Transport.work, Transport.empty]

theorem bsy_eq_false {s : State} : bsy s = false ↔ s.bus = Transport.empty := by
  rcases h : s.bus with ⟨t, r⟩
  rcases t with _ | v <;> rcases r with _ | r <;> simp [bsy, h, Transport.empty]

theorem inflight_empty {s : State} (h : s.bus = Transport.empty) : inflight s = [] := by
  simp [inflight, h, Transport.empty]

theorem pendingBits_empty {s : State} (h : s.bus = Transport.empty) : pendingBits s = [] := by
  simp [pendingBits, h, Transport.empty]

/-- At most two bytes are inside the transport (10_state.md R28). -/
theorem inflight_length (s : State) : (inflight s).length ≤ 2 := by
  unfold inflight
  rcases s.bus.shreg with _ | r <;> rcases s.bus.txbuf with _ | v <;> simp

/-- Anything one move keeps, any number of moves keeps. -/
theorem txMoves_keeps {P : State → Prop} (hP : ∀ s, P s → P (txMove s)) (n : Nat) : ∀ s, P s → P (txMoves n s) := by
  induction n with
  | zero => intro s h; exact h
  | succ n ih => intro s h; exact ih _ (hP s h)

/-- A transport's move does not look at what is to come from outside, nor at the schedule. -/
theorem txMove_outside (s : State) (is : List Input) (ks : List Nat) :
    txMove { s with inputs := is, sched := ks } = { txMove s with inputs := is, sched := ks } := by
  rcases txMove_cases s with ⟨r, hr, h⟩ | ⟨v, h1, h2, h⟩ | ⟨h1, h2, h⟩
  · have e : txMove { s with inputs := is, sched := ks } = shiftStep r { s with inputs := is, sched := ks } := by
      simp [txMove, hr]
    rw [e, h]
    by_cases hb : r.bit = 0
    · rw [shiftStep_last hb, shiftStep_last hb]
    · rw [shiftStep_more hb, shiftStep_more hb]
  · have e : txMove { s with inputs := is, sched := ks } = loadStep v { s with inputs := is, sched := ks } := by
      simp [txMove, h1, h2]
    rw [e, h]
    rfl
  · rw [h]
    simp [txMove, h1, h2]

theorem txMove_inputs (s : State) (is : List Input) :
    txMove { s with inputs := is } = { txMove s with inputs := is } := by
  have h := txMove_outside s is s.sched
  have hs := (txMove_frame s).sched_eq
  exact h.trans (by rw [← hs])

theorem txMoves_outside (n : Nat) :
    ∀ (s : State) (is : List Input) (ks : List Nat),
      txMoves n { s with inputs := is, sched := ks } = { txMoves n s with inputs := is, sched := ks } := by
  induction n with
  | zero => intro s is ks; rfl
  | succ n ih => intro s is ks; rw [txMoves, txMove_outside, ih]; rfl

theorem txMoves_add (m n : Nat) (s : State) : txMoves (m + n) s = txMoves n (txMoves m s) := by
  induction m generalizing s with
  | zero => simp [txMoves]
  | succ m ih => rw [Nat.succ_add]; exact ih (txMove s)

end Sys2Proof.Machine
end

