-- ==== Sys2Proof/Laws/Wait.lean ====
section
/-! SUPPORT. What a wait can do: on the way only the transport moves and the schedule is used up; at its end the
condition holds or the wait has expired; without a bound it never expires. -/

namespace Sys2Proof.Machine

/-- What the transport's moves and the use of the schedule keep. -/
structure KeptByTransport (P : State → Prop) : Prop where
  move : ∀ s, P s → P (txMove s)
  sched : ∀ s ks, P s → P { s with sched := ks }

variable {P : State → Prop}

theorem KeptByTransport.interleave (h : KeptByTransport P) {s : State} (hs : P s) : P (interleave s) := by
  unfold Machine.interleave
  split
  · exact hs
  · exact txMoves_keeps h.move _ _ (h.sched _ _ hs)

theorem KeptByTransport.fairMove (h : KeptByTransport P) {s : State} (hs : P s) : P (fairMove s) := by
  unfold Machine.fairMove
  split
  · exact h.move _ hs
  · exact hs

/-- The end of a wait: the condition holds, or the wait has expired and the request is over. -/
theorem await_cases (h : KeptByTransport P) (c : WaitFor) (n : Nat) :
    ∀ s, P s → (∃ t, await c n s = .ok t ∧ P t ∧ c.met t = true) ∨
      (∃ t, await c n s = .expired (timeOut t) ∧ P t ∧ c.met t = false) := by
  induction n with
  | zero =>
    intro s hs
    simp only [await]
    by_cases hm : c.met (Machine.interleave s) = true
    · exact .inl ⟨_, by simp [hm], h.interleave hs, hm⟩
    · exact .inr ⟨_, by simp [hm], h.interleave hs, by simpa using hm⟩
  | succ n ih =>
    intro s hs
    simp only [await]
    by_cases hm : c.met (Machine.interleave s) = true
    · exact .inl ⟨_, by simp [hm], h.interleave hs, hm⟩
    · simp only [hm]
      exact ih _ (h.fairMove (h.interleave hs))

theorem txMoves_work_le (n : Nat) (s : State) : (txMoves n s).bus.work ≤ s.bus.work := by
  induction n generalizing s with
  | zero => simp [txMoves]
  | succ n ih => exact Nat.le_trans (ih _) (by rw [txMove_work]; omega)

theorem interleave_work_le (s : State) : (interleave s).bus.work ≤ s.bus.work := by
  unfold interleave
  split
  · exact Nat.le_refl _
  · exact txMoves_work_le _ _

theorem met_of_work_zero {s : State} (h : s.bus.work = 0) (c : WaitFor) : c.met s = true := by
  have h := work_zero.1 h
  cases c
  · simp [WaitFor.met, txe, h, Transport.empty]
  · simp [WaitFor.met, bsy, h, Transport.empty]

theorem txMoves_cfg (n : Nat) (s : State) : (txMoves n s).cfg = s.cfg :=
  txMoves_keeps (P := fun t => t.cfg = s.cfg) (fun t h => by rw [(txMove_frame t).cfg_eq, h]) n s rfl

theorem interleave_cfg (s : State) : (interleave s).cfg = s.cfg := by
  unfold interleave
  split
  · rfl
  · exact txMoves_cfg _ _

/-- Without a bound a wait never expires (40_transport.md R135). -/
theorem await_completes (c : WaitFor) (n : Nat) :
    ∀ s, s.cfg.busTimeout = none → s.bus.work ≤ n → ∃ t, await c n s = .ok t := by
  induction n with
  | zero =>
    intro s _ hw
    have : (interleave s).bus.work = 0 := Nat.le_zero.1 (Nat.le_trans (interleave_work_le s) hw)
    exact ⟨interleave s, by simp [await, met_of_work_zero this c]⟩
  | succ n ih =>
    intro s hc hw
    simp only [await]
    split
    · exact ⟨_, rfl⟩
    · apply ih
      · unfold fairMove
        split <;> simp [(txMove_frame _).cfg_eq, interleave_cfg, hc]
      · have h1 := interleave_work_le s
        have h2 : fairMove (interleave s) = txMove (interleave s) := by
          simp [fairMove, interleave_cfg, hc]
        rw [h2, txMove_work]
        omega

/-- An unbounded wait ends with its condition, everything the transport keeps kept. -/
theorem await_unbounded (h : KeptByTransport P) (c : WaitFor) {s : State} (hc : s.cfg.busTimeout = none) (hs : P s) :
    ∃ t, await c (waitBudget s) s = .ok t ∧ P t ∧ c.met t = true := by
  have hw : waitBudget s = s.bus.work := by simp [waitBudget, hc]
  obtain ⟨t, ht⟩ := await_completes c (waitBudget s) s hc (by simp [hw])
  rcases await_cases h c (waitBudget s) s hs with ⟨u, hu, hp, hm⟩ | ⟨u, hu, _⟩
  · exact ⟨u, hu, hp, hm⟩
  · rw [ht] at hu; cases hu

theorem met_idle {s : State} : WaitFor.idle.met s = true ↔ s.bus = Transport.empty := by
  simp only [WaitFor.met, Bool.not_eq_true']
  exact bsy_eq_false

theorem met_ready {s : State} : WaitFor.ready.met s = true ↔ s.bus.txbuf = none := by
  simp [WaitFor.met, txe]

end Sys2Proof.Machine
end

