-- ==== Sys2Proof/Laws/Run.lean ====
section
/-! SUPPORT. A list of entries run with the transport beside it does to the wire, the observer, the registers and the
lines what it would do with a transport that sends every byte at once. -/

namespace Sys2Proof.Machine

-- ## The same run with a transport that sends at once

/-- A byte is enqueued and is on the wire at once. -/
def sendAtOnce (v : Byte) (u : State) : State :=
  emit (.byte u.lines.dc v) (emit (.tx v) { u with samples := u.samples ++ msbFirst v })

/-- An entry, its bytes sent at once. -/
def idealEntry (a : Atom) (u : State) : State :=
  match a with
  | .send src => sendAtOnce (src.read u.regs) u
  | .config => a.effect u
  | .resetLine _ => a.effect u
  | .hold _ => a.effect u
  | .select _ => a.effect u
  | .discriminate _ => a.effect u
  | .awaitIdle => a.effect u
  | .fillLoop => a.effect u
  | .bufLoop => a.effect u
  | .nextPixel => a.effect u
  | .loadOne => a.effect u
  | .loadRect => a.effect u
  | .loadGather => a.effect u
  | .setInitialized => a.effect u

def idealEntries (l : List Atom) (u : State) : State := l.foldl (fun u a => idealEntry a u) u

def idealRounds (body : List Atom) : Nat → State → State
  | 0, u => u
  | n + 1, u => idealRounds body n (idealEntries body u)

/-- An entry, a pixel loop with all its rounds, its bytes sent at once. -/
def idealAtom (a : Atom) (u : State) : State :=
  match loopBody a with
  | [] => idealEntry a u
  | b :: body => idealRounds (b :: body) (loopRounds u) u

/-- A list, its bytes sent at once. -/
def idealList (l : List Atom) (u : State) : State := l.foldl (fun u a => idealAtom a u) u

-- ## Lists that change lines only when the transport is idle

/-- Entries that change a line the panel reads, or time: they want the transport idle (70_reset_and_hazards.md R266,
R267). -/
def Atom.needsIdle : Atom → Bool
  | .resetLine _ => true
  | .hold _ => true
  | .select _ => true
  | .discriminate _ => true
  | .config => false
  | .send _ => false
  | .awaitIdle => false
  | .fillLoop => false
  | .bufLoop => false
  | .nextPixel => false
  | .loadOne => false
  | .loadRect => false
  | .loadGather => false
  | .setInitialized => false

/-- Whether the transport is known idle after an entry, given whether it was known idle before. -/
def Atom.idleAfter (a : Atom) (q : Bool) : Bool :=
  match a with
  | .send _ => false
  | .fillLoop => false
  | .bufLoop => false
  | .awaitIdle => true
  | .config => q
  | .resetLine _ => q
  | .hold _ => q
  | .select _ => q
  | .discriminate _ => q
  | .nextPixel => q
  | .loadOne => q
  | .loadRect => q
  | .loadGather => q
  | .setInitialized => q

/-- Every entry that wants the transport idle finds it known idle. -/
def disciplined : List Atom → Bool → Bool
  | [], _ => true
  | a :: rest, q => (!a.needsIdle || q) && disciplined rest (a.idleAfter q)

/-- Whether the transport is known idle after a list. -/
def idleAtEnd (l : List Atom) (q : Bool) : Bool := l.foldl (fun q a => a.idleAfter q) q

theorem disciplined_append (l m : List Atom) (q : Bool) :
    disciplined (l ++ m) q = (disciplined l q && disciplined m (idleAtEnd l q)) := by
  induction l generalizing q with
  | nil => simp [disciplined, idleAtEnd]
  | cons a l ih =>
    simp only [List.cons_append, disciplined, ih, idleAtEnd, List.foldl_cons, Bool.and_assoc]

theorem idleAtEnd_append (l m : List Atom) (q : Bool) : idleAtEnd (l ++ m) q = idleAtEnd m (idleAtEnd l q) := by
  simp [idleAtEnd]

theorem idealList_append (l m : List Atom) (u : State) : idealList (l ++ m) u = idealList m (idealList l u) := by
  simp [idealList]

@[simp] theorem idealList_nil (u : State) : idealList [] u = u := rfl

@[simp] theorem idealList_cons (a : Atom) (l : List Atom) (u : State) :
    idealList (a :: l) u = idealList l (idealAtom a u) := rfl

-- ## The two runs side by side

/-- `u` is `s` once the transport has sent what it holds, up to what nothing may depend on: the order of `BYTE` events
among the sequencer's own, the level of `MOSI` and the schedule. -/
structure Sim (s u : State) : Prop where
  wire_eq : wire s ++ inflight s = wire u
  calls_eq : calls s = calls u
  panel_eq : s.panel.feed s.cfg.panelWrap (inflight s) = u.panel
  samples_eq : s.samples ++ pendingBits s = u.samples
  idle : u.bus = Transport.empty
  cfg_eq : s.cfg = u.cfg
  regs_eq : s.regs = u.regs
  seq_eq : s.seq = u.seq
  initState_eq : s.initState = u.initState
  busy_eq : s.busy = u.busy
  fault_eq : s.fault = u.fault
  status_eq : s.status = u.status
  waits_eq : s.waits = u.waits
  inputs_eq : s.inputs = u.inputs
  csN_eq : s.lines.csN = u.lines.csN
  dc_eq : s.lines.dc = u.lines.dc
  rstN_eq : s.lines.rstN = u.lines.rstN
  sck_eq : u.lines.sck = false → s.lines.sck = false

theorem Sim.refl {s : State} (h : s.bus = Transport.empty) : Sim s s := by
  constructor <;> simp [inflight_empty h, pendingBits_empty h, Panel.feed, h]

theorem Sim.kept (u : State) : KeptByTransport (fun s => Sim s u) where
  move s h := by
    have f := txMove_frame s
    constructor
    · rw [txMove_wire, h.wire_eq]
    · rw [txMove_calls, h.calls_eq]
    · rw [f.cfg_eq, txMove_panel, h.panel_eq]
    · rw [txMove_samples, h.samples_eq]
    · exact h.idle
    · rw [f.cfg_eq, h.cfg_eq]
    · rw [f.regs_eq, h.regs_eq]
    · rw [f.seq_eq, h.seq_eq]
    · rw [f.initState_eq, h.initState_eq]
    · rw [f.busy_eq, h.busy_eq]
    · rw [f.fault_eq, h.fault_eq]
    · rw [f.status_eq, h.status_eq]
    · rw [f.waits_eq, h.waits_eq]
    · rw [f.inputs_eq, h.inputs_eq]
    · rw [f.csN_eq, h.csN_eq]
    · rw [f.dc_eq, h.dc_eq]
    · rw [f.rstN_eq, h.rstN_eq]
    · exact fun hu => f.sck_eq (h.sck_eq hu)
  sched s ks h := by
    obtain ⟨h1, h2, h3, h4, h5, h6, h7, h8, h9, h10, h11, h12, h13, h14, h15, h16, h17, h18⟩ := h
    exact ⟨h1, h2, h3, h4, h5, h6, h7, h8, h9, h10, h11, h12, h13, h14, h15, h16, h17, h18⟩

theorem Panel.feed_append (w : PanelWrap) (p : Panel) (a b : List Event) :
    p.feed w (a ++ b) = (p.feed w a).feed w b := by
  simp [Panel.feed]

/-- Enqueueing into an empty buffer is sending at once, as far as `Sim` sees. -/
theorem Sim.enqueue {s u : State} (h : Sim s u) (hr : s.bus.txbuf = none) (v : Byte) :
    Sim (enqueue v s) (sendAtOnce v u) := by
  have hi : inflight (Machine.enqueue v s) = inflight s ++ [.byte s.lines.dc v] := by
    simp [inflight, hr]
  have hp : pendingBits (Machine.enqueue v s) = pendingBits s ++ msbFirst v := by
    simp [pendingBits, hr]
  constructor
  · rw [hi]
    have := h.wire_eq
    simp only [wire] at this
    simp [wire, sendAtOnce, List.filter_append, List.filter_cons, Event.onWire, ← this, h.dc_eq]
  · have := h.calls_eq
    simp only [calls] at this
    simp [calls, sendAtOnce, List.filter_append, List.filter_cons, Event.fromSequencer, this]
  · rw [hi, Panel.feed_append]
    have := h.panel_eq
    simp only [Panel.feed, h.cfg_eq] at this
    simp [sendAtOnce, Panel.feed, Panel.onEvent, h.dc_eq, h.cfg_eq, this]
  · rw [hp]
    simp [sendAtOnce, ← h.samples_eq]
  · simp [sendAtOnce, h.idle]
  all_goals first
    | (simpa [sendAtOnce] using h.cfg_eq)
    | (simpa [sendAtOnce] using h.regs_eq)
    | (simpa [sendAtOnce] using h.seq_eq)
    | (simpa [sendAtOnce] using h.initState_eq)
    | (simpa [sendAtOnce] using h.busy_eq)
    | (simpa [sendAtOnce] using h.fault_eq)
    | (simpa [sendAtOnce] using h.status_eq)
    | (simpa [sendAtOnce] using h.waits_eq)
    | (simpa [sendAtOnce] using h.inputs_eq)
    | (simpa [sendAtOnce] using h.csN_eq)
    | (simpa [sendAtOnce] using h.dc_eq)
    | (simpa [sendAtOnce] using h.rstN_eq)
    | (simpa [sendAtOnce] using h.sck_eq)

/-- A wire event with the transport idle happens to both alike. -/
theorem Sim.emit_idle {s u : State} (h : Sim s u) (hs : s.bus = Transport.empty) (e : Event) : Sim (emit e s) (emit e u) := by
  have hi : inflight (emit e s) = [] := inflight_empty (by simpa using hs)
  have hi' := inflight_empty hs
  have hp : pendingBits (emit e s) = [] := pendingBits_empty (by simpa using hs)
  have hp' := pendingBits_empty hs
  have h1 := h.wire_eq
  have h2 := h.calls_eq
  have h3 := h.panel_eq
  have h4 := h.samples_eq
  rw [hi', List.append_nil] at h1
  rw [hp', List.append_nil] at h4
  rw [hi'] at h3
  simp only [Panel.feed, List.foldl_nil] at h3
  constructor
  · rw [hi]; simp only [wire] at h1; simp [wire, List.filter_append, h1]
  · simp only [calls] at h2; simp [calls, List.filter_append, h2]
  · rw [hi]; simp [Panel.feed, h3, h.cfg_eq]
  · rw [hp]; simp [h4]
  · simpa using h.idle
  · simpa using h.cfg_eq
  · simpa using h.regs_eq
  · simpa using h.seq_eq
  · simpa using h.initState_eq
  · simpa using h.busy_eq
  · simpa using h.fault_eq
  · simpa using h.status_eq
  · simpa using h.waits_eq
  · simpa using h.inputs_eq
  · simpa using h.csN_eq
  · simpa using h.dc_eq
  · simpa using h.rstN_eq
  · simpa using h.sck_eq

/-- An event off the wire happens to both alike. -/
theorem Sim.emit_off {s u : State} (h : Sim s u) (e : Event) (he : e.onWire = false) : Sim (emit e s) (emit e u) := by
  have hi : inflight (emit e s) = inflight s := by simp [inflight]
  have hp : pendingBits (emit e s) = pendingBits s := by simp [pendingBits]
  have hk : ∀ p w, Panel.onEvent w p e = p := by
    intro p w; cases e <;> simp_all [Panel.onEvent, Event.onWire]
  have h1 := h.wire_eq
  have h2 := h.calls_eq
  simp only [wire] at h1
  simp only [calls] at h2
  constructor
  · rw [hi]; simp [wire, List.filter_append, he, h1]
  · simp [calls, List.filter_append, h2]
  · rw [hi]; simp [hk, h.panel_eq]
  · rw [hp]; simp [h.samples_eq]
  · simpa using h.idle
  · simpa using h.cfg_eq
  · simpa using h.regs_eq
  · simpa using h.seq_eq
  · simpa using h.initState_eq
  · simpa using h.busy_eq
  · simpa using h.fault_eq
  · simpa using h.status_eq
  · simpa using h.waits_eq
  · simpa using h.inputs_eq
  · simpa using h.csN_eq
  · simpa using h.dc_eq
  · simpa using h.rstN_eq
  · simpa using h.sck_eq

/-- A change of a line with the transport idle. -/
theorem Sim.lines_idle {s u : State} (h : Sim s u) (hs : s.bus = Transport.empty) (f : Lines → Lines)
    (hc : ∀ l m : Lines, l.csN = m.csN → (f l).csN = (f m).csN) (hd : ∀ l m : Lines, l.dc = m.dc → (f l).dc = (f m).dc)
    (hr : ∀ l m : Lines, l.rstN = m.rstN → (f l).rstN = (f m).rstN) (hk : ∀ l : Lines, (f l).sck = l.sck) :
    Sim { s with lines := f s.lines } { u with lines := f u.lines } := by
  have hi : inflight { s with lines := f s.lines } = [] := inflight_empty hs
  have hi' := inflight_empty hs
  obtain ⟨h1, h2, h3, h4, h5, h6, h7, h8, h9, h10, h11, h12, h13, h14, h15, h16, h17, h18⟩ := h
  rw [hi'] at h1 h3
  exact ⟨by rw [hi]; exact h1, h2, by rw [hi]; exact h3, h4, h5, h6, h7, h8, h9, h10, h11, h12, h13, h14, hc _ _ h15,
    hd _ _ h16, hr _ _ h17, fun hu => by
      show (f s.lines).sck = false
      rw [hk]
      apply h18
      rw [← hk]
      exact hu⟩

/-- A change of the registers. -/
theorem Sim.regs {s u : State} (h : Sim s u) (r : Regs) : Sim { s with regs := r } { u with regs := r } := by
  obtain ⟨h1, h2, h3, h4, h5, h6, h7, h8, h9, h10, h11, h12, h13, h14, h15, h16, h17, h18⟩ := h
  exact ⟨h1, h2, h3, h4, h5, h6, rfl, h8, h9, h10, h11, h12, h13, h14, h15, h16, h17, h18⟩

theorem Sim.initState {s u : State} (h : Sim s u) (i : InitState) :
    Sim { s with initState := i } { u with initState := i } := by
  obtain ⟨h1, h2, h3, h4, h5, h6, h7, h8, h9, h10, h11, h12, h13, h14, h15, h16, h17, h18⟩ := h
  exact ⟨h1, h2, h3, h4, h5, h6, h7, h8, rfl, h10, h11, h12, h13, h14, h15, h16, h17, h18⟩

/-- The effect of an entry that sends nothing happens to both alike, if lines change only with the transport idle. -/
theorem Sim.effect {s u : State} (h : Sim s u) (a : Atom) (hn : ∀ src, a ≠ .send src)
    (hi : a.needsIdle = true → s.bus = Transport.empty) : Sim (a.effect s) (a.effect u) := by
  cases a with
  | config => exact h.emit_off _ rfl
  | resetLine b =>
    have hs := hi rfl
    exact (h.lines_idle hs (fun l => { l with rstN := b }) (fun _ _ h => h) (fun _ _ h => h) (fun _ _ _ => rfl)
      (fun _ => rfl)).emit_idle hs _
  | hold t =>
    have hs := hi rfl
    simp only [Atom.effect, holdFor, h.cfg_eq]
    exact h.emit_idle hs _
  | select b =>
    have hs := hi rfl
    exact (h.lines_idle hs (fun l => { l with csN := b }) (fun _ _ _ => rfl) (fun _ _ h => h) (fun _ _ h => h)
      (fun _ => rfl)).emit_idle hs _
  | discriminate b =>
    have hs := hi rfl
    exact (h.lines_idle hs (fun l => { l with dc := b }) (fun _ _ h => h) (fun _ _ _ => rfl) (fun _ _ h => h)
      (fun _ => rfl)).emit_idle hs _
  | send src => exact absurd rfl (hn src)
  | awaitIdle => exact h.emit_off _ rfl
  | fillLoop => exact h
  | bufLoop => exact h
  | nextPixel => simp only [Atom.effect, h.regs_eq]; exact h.regs _
  | loadOne => simp only [Atom.effect, startBurst, h.regs_eq]; exact h.regs _
  | loadRect => simp only [Atom.effect, startBurst, h.regs_eq]; exact h.regs _
  | loadGather =>
    have hg : gather s.cfg.blitClipMode s.regs.src s.regs.pw s.regs.cw s.regs.ch =
        gather u.cfg.blitClipMode u.regs.src u.regs.pw u.regs.cw u.regs.ch := by rw [h.cfg_eq, h.regs_eq]
    simp only [Atom.effect, startBurst, hg]
    rw [h.regs_eq]
    exact h.regs _
  | setInitialized => exact h.initState _

/-- One entry that is no loop. -/
theorem runEntry_ideal {s u : State} (h : Sim s u) (hc : s.cfg.busTimeout = none) (a : Atom) (q : Bool)
    (hl : loopBody a = []) (hq : q = true → s.bus = Transport.empty) (hd : (!a.needsIdle || q) = true) :
    ∃ t, runEntry a s = .ok t ∧ Sim t (idealEntry a u) ∧ (a.idleAfter q = true → t.bus = Transport.empty) := by
  have hn : a.needsIdle = true → s.bus = Transport.empty := by
    intro hn
    simp only [hn, Bool.not_true, Bool.false_or] at hd
    exact hq hd
  cases a with
  | send src =>
    obtain ⟨t, ht, hs, hm⟩ := await_unbounded (Sim.kept u) .ready hc h
    refine ⟨_, by simp [runEntry, Atom.waitsFor, ht, Flow.andThen]; rfl, ?_, by simp [Atom.idleAfter]⟩
    have := hs.enqueue (met_ready.1 hm) (src.read u.regs)
    simp only [Atom.effect, idealEntry, hs.regs_eq]
    exact this
  | awaitIdle =>
    obtain ⟨t, ht, hs, hm⟩ := await_unbounded (Sim.kept u) .idle hc h
    have hb := met_idle.1 hm
    refine ⟨_, by simp [runEntry, Atom.waitsFor, ht, Flow.andThen]; rfl, ?_, fun _ => by simp [Atom.effect, hb]⟩
    exact hs.effect .awaitIdle (by simp) (by simp [Atom.needsIdle])
  | config => exact ⟨_, rfl, h.effect .config (by simp) hn, fun hq' => by simp [Atom.effect, hq hq']⟩
  | resetLine b =>
    exact ⟨_, rfl, h.effect (.resetLine b) (by simp) hn, fun hq' => by simp [Atom.effect, hq hq']⟩
  | hold b => exact ⟨_, rfl, h.effect (.hold b) (by simp) hn, fun hq' => by simp [Atom.effect, hq hq']⟩
  | select b => exact ⟨_, rfl, h.effect (.select b) (by simp) hn, fun hq' => by simp [Atom.effect, hq hq']⟩
  | discriminate b =>
    exact ⟨_, rfl, h.effect (.discriminate b) (by simp) hn, fun hq' => by simp [Atom.effect, hq hq']⟩
  | fillLoop => simp [loopBody] at hl
  | bufLoop => simp [loopBody] at hl
  | nextPixel => exact ⟨_, rfl, h.effect .nextPixel (by simp) hn, fun hq' => by simp [Atom.effect, hq hq']⟩
  | loadOne => exact ⟨_, rfl, h.effect .loadOne (by simp) hn, fun hq' => by simp [Atom.effect, hq hq']⟩
  | loadRect => exact ⟨_, rfl, h.effect .loadRect (by simp) hn, fun hq' => by simp [Atom.effect, hq hq']⟩
  | loadGather => exact ⟨_, rfl, h.effect .loadGather (by simp) hn, fun hq' => by simp [Atom.effect, hq hq']⟩
  | setInitialized =>
    exact ⟨_, rfl, h.effect .setInitialized (by simp) hn, fun hq' => by simp [Atom.effect, hq hq']⟩

/-- Entries that are no loops. -/
theorem runEntries_ideal (l : List Atom) (hl : ∀ a ∈ l, loopBody a = []) :
    ∀ {s u : State} (q : Bool), Sim s u → s.cfg.busTimeout = none → (q = true → s.bus = Transport.empty) →
      disciplined l q = true →
      ∃ t, runEntries l s = .ok t ∧ Sim t (idealEntries l u) ∧ (idleAtEnd l q = true → t.bus = Transport.empty) ∧
        t.cfg = s.cfg := by
  induction l with
  | nil => intro s u q h hc hq _; exact ⟨s, rfl, h, hq, rfl⟩
  | cons a l ih =>
    intro s u q h hc hq hd
    simp only [disciplined, Bool.and_eq_true] at hd
    obtain ⟨t, ht, hs, hb⟩ := runEntry_ideal h hc a q (hl a (by simp)) hq hd.1
    have hcfg : t.cfg = s.cfg := by
      rw [hs.cfg_eq, h.cfg_eq]
      cases a <;> rfl
    obtain ⟨t', ht', hs', hb', hc'⟩ := ih (fun b hb => hl b (by simp [hb])) _ hs (by rw [hcfg, hc]) hb hd.2
    exact ⟨t', by simp [runEntries, ht, Flow.andThen, ht'], hs', hb', by rw [hc', hcfg]⟩

/-- The rounds of a loop whose body starts and ends with the transport in any state. -/
theorem runRounds_ideal (l : List Atom) (hl : ∀ a ∈ l, loopBody a = []) (hd : disciplined l false = true) (n : Nat) :
    ∀ {s u : State}, Sim s u → s.cfg.busTimeout = none →
      ∃ t, runRounds l n s = .ok t ∧ Sim t (idealRounds l n u) ∧ t.cfg = s.cfg := by
  induction n with
  | zero => intro s u h hc; exact ⟨s, rfl, h, rfl⟩
  | succ n ih =>
    intro s u h hc
    obtain ⟨t, ht, hs, _, hcfg⟩ := runEntries_ideal l hl false h hc (by simp) hd
    obtain ⟨t', ht', hs', hc'⟩ := ih hs (by rw [hcfg, hc])
    exact ⟨t', by simp [runRounds, ht, Flow.andThen, ht'], hs', by rw [hc', hcfg]⟩

theorem loopBody_cases (a : Atom) :
    (loopBody a = []) ∨
    (a = .fillLoop ∧ loopBody a = [.send .colorHi, .send .colorLo, .nextPixel]) ∨
    (a = .bufLoop ∧ loopBody a = [.send .pixelHi, .send .pixelLo, .nextPixel]) := by
  cases a <;> simp [loopBody]

/-- One entry, loops included. -/
theorem runAtom_ideal {s u : State} (h : Sim s u) (hc : s.cfg.busTimeout = none) (a : Atom) (q : Bool)
    (hq : q = true → s.bus = Transport.empty) (hd : (!a.needsIdle || q) = true) :
    ∃ t, runAtom a s = .ok t ∧ Sim t (idealAtom a u) ∧ (a.idleAfter q = true → t.bus = Transport.empty) ∧
      t.cfg = s.cfg := by
  rcases loopBody_cases a with hl | ⟨rfl, hl⟩ | ⟨rfl, hl⟩
  · obtain ⟨t, ht, hs, hb⟩ := runEntry_ideal h hc a q hl hq hd
    refine ⟨t, by simp [runAtom, hl, ht], by simpa [idealAtom, hl] using hs, hb, ?_⟩
    rw [hs.cfg_eq, h.cfg_eq]
    cases a <;> rfl
  · obtain ⟨t, ht, hs, hcfg⟩ := runRounds_ideal [.send .colorHi, .send .colorLo, .nextPixel]
      (by simp [loopBody]) rfl (loopRounds s) h hc
    refine ⟨t, by simpa [runAtom, hl] using ht, ?_, by simp [Atom.idleAfter], hcfg⟩
    simpa [idealAtom, hl, loopRounds, h.regs_eq] using hs
  · obtain ⟨t, ht, hs, hcfg⟩ := runRounds_ideal [.send .pixelHi, .send .pixelLo, .nextPixel]
      (by simp [loopBody]) rfl (loopRounds s) h hc
    refine ⟨t, by simpa [runAtom, hl] using ht, ?_, by simp [Atom.idleAfter], hcfg⟩
    simpa [idealAtom, hl, loopRounds, h.regs_eq] using hs

/-- A disciplined list, run with the transport beside it, does what it does with bytes sent at once. -/
theorem runList_ideal (l : List Atom) :
    ∀ {s u : State} (q : Bool), Sim s u → s.cfg.busTimeout = none → (q = true → s.bus = Transport.empty) →
      disciplined l q = true →
      ∃ t, runList l s = .ok t ∧ Sim t (idealList l u) ∧ (idleAtEnd l q = true → t.bus = Transport.empty) ∧
        t.cfg = s.cfg := by
  induction l with
  | nil => intro s u q h hc hq _; exact ⟨s, rfl, h, hq, rfl⟩
  | cons a l ih =>
    intro s u q h hc hq hd
    simp only [disciplined, Bool.and_eq_true] at hd
    obtain ⟨t, ht, hs, hb, hcfg⟩ := runAtom_ideal h hc a q hq hd.1
    obtain ⟨t', ht', hs', hb', hc'⟩ := ih _ hs (by rw [hcfg, hc]) hb hd.2
    exact ⟨t', by simp [runList, ht, Flow.andThen, ht'], hs', hb', by rw [hc', hcfg]⟩

end Sys2Proof.Machine
end

