-- ==== Sys2Proof/Laws/Lists.lean ====
section
/-! SUPPORT. What each fixed list does: the wire events and the sequencer's events it makes, the registers and lines it
leaves. One lemma per list; lists compose by `Ran.trans`. -/

namespace Sys2Proof.Machine

/-- `t` is `s` after a run that sent `w`, made the calls `c`, and left the registers, the select, discriminator and reset
lines and `INIT_STATE` as given; the rest of the control state is as before. -/
structure Ran (s t : State) (w c : List Event) (r : Regs) (cs d rs : Bool) (i : InitState) : Prop
    extends Sent s t w c where
  regs_eq : t.regs = r
  csN_eq : t.lines.csN = cs
  dc_eq : t.lines.dc = d
  rstN_eq : t.lines.rstN = rs
  initState_eq : t.initState = i
  seq_eq : t.seq = s.seq
  busy_eq : t.busy = s.busy
  status_eq : t.status = s.status
  waits_eq : t.waits = s.waits

theorem bitsOf_append (a b : List Event) : bitsOf (a ++ b) = bitsOf a ++ bitsOf b := by simp [bitsOf]

theorem Sent.refl {s : State} (h : s.bus = Transport.empty) : Sent s s [] [] := by
  constructor <;> simp [Panel.feed, bitsOf, h]

theorem Sent.trans {s t u : State} {w c w' c' : List Event} (h : Sent s t w c) (k : Sent t u w' c') :
    Sent s u (w ++ w') (c ++ c') where
  wire_eq := by rw [k.wire_eq, h.wire_eq, List.append_assoc]
  calls_eq := by rw [k.calls_eq, h.calls_eq, List.append_assoc]
  panel_eq := by rw [k.panel_eq, h.panel_eq, h.cfg_eq, Panel.feed_append]
  samples_eq := by rw [k.samples_eq, h.samples_eq, bitsOf_append, List.append_assoc]
  bus_eq := k.bus_eq
  sck_eq := fun hs => k.sck_eq (h.sck_eq hs)
  cfg_eq := by rw [k.cfg_eq, h.cfg_eq]
  inputs_eq := by rw [k.inputs_eq, h.inputs_eq]
  fault_eq := by rw [k.fault_eq, h.fault_eq]

theorem Ran.trans {s t u : State} {w c w' c' : List Event} {r r' : Regs} {cs d rs cs' d' rs' : Bool}
    {i i' : InitState} (h : Ran s t w c r cs d rs i) (k : Ran t u w' c' r' cs' d' rs' i') :
    Ran s u (w ++ w') (c ++ c') r' cs' d' rs' i' where
  toSent := h.toSent.trans k.toSent
  regs_eq := k.regs_eq
  csN_eq := k.csN_eq
  dc_eq := k.dc_eq
  rstN_eq := k.rstN_eq
  initState_eq := k.initState_eq
  seq_eq := by rw [k.seq_eq, h.seq_eq]
  busy_eq := by rw [k.busy_eq, h.busy_eq]
  status_eq := by rw [k.status_eq, h.status_eq]
  waits_eq := by rw [k.waits_eq, h.waits_eq]

theorem Ran.refl {s : State} (h : s.bus = Transport.empty) :
    Ran s s [] [] s.regs s.lines.csN s.lines.dc s.lines.rstN s.initState :=
  { toSent := Sent.refl h, regs_eq := rfl, csN_eq := rfl, dc_eq := rfl, rstN_eq := rfl, initState_eq := rfl,
    seq_eq := rfl, busy_eq := rfl, status_eq := rfl, waits_eq := rfl }

/-- A simulated state with its transport idle ran what its ideal ran. -/
theorem Ran.of_sim {s t u : State} {w c : List Event} {r : Regs} {cs d rs : Bool} {i : InitState} (h : Sim t u)
    (hb : t.bus = Transport.empty) (k : Ran s u w c r cs d rs i) : Ran s t w c r cs d rs i where
  wire_eq := by
    have := h.wire_eq
    rw [inflight_empty hb, List.append_nil] at this
    rw [this, k.wire_eq]
  calls_eq := by rw [h.calls_eq, k.calls_eq]
  panel_eq := by
    have := h.panel_eq
    rw [inflight_empty hb] at this
    rw [← k.panel_eq, ← this]
    rfl
  samples_eq := by
    have := h.samples_eq
    rw [pendingBits_empty hb, List.append_nil] at this
    rw [this, k.samples_eq]
  bus_eq := hb
  sck_eq := fun hs => h.sck_eq (k.sck_eq hs)
  cfg_eq := by rw [h.cfg_eq, k.cfg_eq]
  inputs_eq := by rw [h.inputs_eq, k.inputs_eq]
  fault_eq := by rw [h.fault_eq, k.fault_eq]
  regs_eq := by rw [h.regs_eq, k.regs_eq]
  csN_eq := by rw [h.csN_eq, k.csN_eq]
  dc_eq := by rw [h.dc_eq, k.dc_eq]
  rstN_eq := by rw [h.rstN_eq, k.rstN_eq]
  initState_eq := by rw [h.initState_eq, k.initState_eq]
  seq_eq := by rw [h.seq_eq, k.seq_eq]
  busy_eq := by rw [h.busy_eq, k.busy_eq]
  status_eq := by rw [h.status_eq, k.status_eq]
  waits_eq := by rw [h.waits_eq, k.waits_eq]

/-- The law every list is used through: a disciplined list that ends idle, started idle and with unbounded waits, ends
and does what its ideal run does. -/
theorem runList_ran {l : List Atom} {s : State} {w c : List Event} {r : Regs} {cs d rs : Bool} {i : InitState}
    (hb : s.bus = Transport.empty) (hc : s.cfg.busTimeout = none) (hd : disciplined l true = true)
    (he : idleAtEnd l true = true) (k : Ran s (idealList l s) w c r cs d rs i) :
    ∃ t, runList l s = .ok t ∧ Ran s t w c r cs d rs i := by
  obtain ⟨t, ht, hs, hbus, _⟩ := runList_ideal l true (Sim.refl hb) hc (fun _ => hb) hd
  exact ⟨t, ht, Ran.of_sim hs (hbus he) k⟩

-- ## Bytes, commands, words

theorem ran_byteList (d : Bool) (src : ByteSrc) {u : State} (hb : u.bus = Transport.empty) :
    Ran u (idealList (byteList d src) u) [.byte d (src.read u.regs)] (frameCalls d [src.read u.regs]) u.regs
      u.lines.csN d u.lines.rstN u.initState := by
  constructor
  · constructor <;>
      simp [byteList, idealAtom, loopBody, idealEntry, Atom.effect, sendAtOnce, wire, calls, List.filter_append,
        List.filter_cons, Event.onWire, Event.fromSequencer, frameCalls, Panel.feed, Panel.onEvent, bitsOf, Event.bits,
        hb]
  all_goals
    simp [byteList, idealAtom, loopBody, idealEntry, Atom.effect, sendAtOnce]

theorem ran_wordList (h l : ByteSrc) {u : State} (hb : u.bus = Transport.empty) :
    Ran u (idealList (wordList h l) u) (dataWire [h.read u.regs, l.read u.regs])
      (frameCalls true [h.read u.regs, l.read u.regs]) u.regs u.lines.csN true u.lines.rstN u.initState := by
  constructor
  · constructor <;>
      simp [wordList, idealAtom, loopBody, idealEntry, Atom.effect, sendAtOnce, wire, calls, List.filter_append,
        List.filter_cons, Event.onWire, Event.fromSequencer, frameCalls, dataWire, Panel.feed, Panel.onEvent, bitsOf,
        Event.bits, hb]
  all_goals
    simp [wordList, idealAtom, loopBody, idealEntry, Atom.effect, sendAtOnce]

theorem ran_select (b : Bool) {u : State} (hb : u.bus = Transport.empty) :
    Ran u (idealList [.select b] u) [.sel b] [.sel b] u.regs b u.lines.dc u.lines.rstN u.initState := by
  constructor
  · constructor <;>
      simp [idealAtom, loopBody, idealEntry, Atom.effect, driveSelect, wire, calls, List.filter_append,
        List.filter_cons, Event.onWire, Event.fromSequencer, Panel.feed, Panel.onEvent, bitsOf, Event.bits, hb]
  all_goals
    simp [idealAtom, loopBody, idealEntry, Atom.effect]

theorem ran_hold (t : DelayTime) {u : State} (hb : u.bus = Transport.empty) :
    Ran u (idealList [.hold t] u) [.wait (delayMicros u.cfg t)] [.wait (delayMicros u.cfg t)] u.regs u.lines.csN
      u.lines.dc u.lines.rstN u.initState := by
  constructor
  · constructor <;>
      simp [idealAtom, loopBody, idealEntry, Atom.effect, holdFor, wire, calls, List.filter_append,
        List.filter_cons, Event.onWire, Event.fromSequencer, Panel.feed, Panel.onEvent, bitsOf, Event.bits, hb]
  all_goals
    simp [idealAtom, loopBody, idealEntry, Atom.effect]

theorem ran_resetLine (b : Bool) {u : State} (hb : u.bus = Transport.empty) :
    Ran u (idealList [.resetLine b] u) [.rst b] [.rst b] u.regs u.lines.csN u.lines.dc b u.initState := by
  constructor
  · constructor <;>
      simp [idealAtom, loopBody, idealEntry, Atom.effect, driveReset, wire, calls, List.filter_append,
        List.filter_cons, Event.onWire, Event.fromSequencer, Panel.feed, Panel.onEvent, bitsOf, Event.bits, hb]
  all_goals
    simp [idealAtom, loopBody, idealEntry, Atom.effect]

theorem ran_config {u : State} (hb : u.bus = Transport.empty) :
    Ran u (idealList [.config] u) [] [.cfg] u.regs u.lines.csN u.lines.dc u.lines.rstN u.initState := by
  constructor
  · constructor <;>
      simp [idealAtom, loopBody, idealEntry, Atom.effect, wire, calls, List.filter_append,
        List.filter_cons, Event.onWire, Event.fromSequencer, Panel.feed, Panel.onEvent, bitsOf, hb]
  all_goals
    simp [idealAtom, loopBody, idealEntry, Atom.effect]

theorem ran_setInitialized {u : State} (hb : u.bus = Transport.empty) :
    Ran u (idealList [.setInitialized] u) [] [] u.regs u.lines.csN u.lines.dc u.lines.rstN .initialized := by
  constructor
  · constructor <;>
      simp [idealAtom, loopBody, idealEntry, Atom.effect, wire, calls, Panel.feed, bitsOf, hb]
  all_goals
    simp [idealAtom, loopBody, idealEntry, Atom.effect]

-- ## Transactions

theorem ran_dataBytes (vs : List Byte) :
    ∀ {u : State}, u.bus = Transport.empty →
      Ran u (idealList (vs.flatMap dataList) u) (dataWire vs) (vs.flatMap (fun v => frameCalls true [v])) u.regs
        u.lines.csN (if vs = [] then u.lines.dc else true) u.lines.rstN u.initState := by
  induction vs with
  | nil => intro u hb; exact Ran.refl hb
  | cons v vs ih =>
    intro u hb
    have h1 := ran_byteList true (.lit v) hb
    have h2 := ih h1.bus_eq
    rw [List.flatMap_cons, idealList_append]
    have h3 := h1.trans h2
    have hd : (if vs = [] then (idealList (byteList true (.lit v)) u).lines.dc else true) = true := by
      rw [h1.dc_eq]; simp
    rw [h1.regs_eq, h1.csN_eq, h1.rstN_eq, h1.initState_eq, hd] at h3
    simpa [dataList, dataWire, ByteSrc.read] using h3

theorem ran_parameterList (o : Byte) (vs : List Byte) {u : State} (hb : u.bus = Transport.empty) :
    Ran u (idealList (parameterList o vs) u) (parameterWire o vs) (parameterCalls o vs) u.regs u.lines.csN
      (if vs = [] then false else true) u.lines.rstN u.initState := by
  have h1 := ran_byteList false (.lit o) hb
  have h2 := ran_dataBytes vs h1.bus_eq
  have h3 := h1.trans h2
  rw [h1.regs_eq, h1.csN_eq, h1.rstN_eq, h1.initState_eq, h1.dc_eq] at h3
  rw [parameterList, idealList_append]
  simpa [parameterWire, parameterCalls, commandWire, commandList, ByteSrc.read] using h3

theorem ran_commandList (o : Byte) {u : State} (hb : u.bus = Transport.empty) :
    Ran u (idealList (commandList o) u) (commandWire o) (frameCalls false [o]) u.regs u.lines.csN false u.lines.rstN
      u.initState :=
  ran_byteList false (.lit o) hb

/-- An address command whose range is given by four byte sources. -/
theorem ran_rangeList (o : Byte) (a b c d : ByteSrc) {u : State} (hb : u.bus = Transport.empty) (x y : U16)
    (ha : a.read u.regs = hi x) (hb' : b.read u.regs = lo x) (hc : c.read u.regs = hi y) (hd : d.read u.regs = lo y) :
    Ran u (idealList (rangeList o a b c d) u) (rangeWire o x y) (rangeCalls o x y) u.regs u.lines.csN true
      u.lines.rstN u.initState := by
  have h1 := ran_commandList o hb
  have h2 := ran_wordList a b h1.bus_eq
  have h3 := ran_wordList c d h2.bus_eq
  have h4 := (h1.trans h2).trans h3
  rw [h2.regs_eq, h2.csN_eq, h2.rstN_eq, h2.initState_eq, h1.regs_eq, h1.csN_eq, h1.rstN_eq, h1.initState_eq, ha, hb',
    hc, hd] at h4
  rw [rangeList, idealList_append, idealList_append]
  simpa [rangeWire, rangeCalls, parameterWire, dataWire] using h4

theorem ran_windowList {u : State} (hb : u.bus = Transport.empty) :
    Ran u (idealList windowList u) (windowWire u.regs.x0 u.regs.y0 u.regs.x1 u.regs.y1)
      (windowCalls u.regs.x0 u.regs.y0 u.regs.x1 u.regs.y1) u.regs true false u.lines.rstN u.initState := by
  have h1 := ran_select false hb
  have h2 := ran_rangeList OPC_CASET (.winHi .x0) (.winLo .x0) (.winHi .x1) (.winLo .x1) h1.bus_eq u.regs.x0 u.regs.x1
    (by rw [h1.regs_eq]; rfl) (by rw [h1.regs_eq]; rfl) (by rw [h1.regs_eq]; rfl) (by rw [h1.regs_eq]; rfl)
  have h12 := h1.trans h2
  have h3 := ran_rangeList OPC_PASET (.winHi .y0) (.winLo .y0) (.winHi .y1) (.winLo .y1) h12.bus_eq u.regs.y0 u.regs.y1
    (by rw [h12.regs_eq, h1.regs_eq]; rfl) (by rw [h12.regs_eq, h1.regs_eq]; rfl)
    (by rw [h12.regs_eq, h1.regs_eq]; rfl) (by rw [h12.regs_eq, h1.regs_eq]; rfl)
  have h13 := h12.trans h3
  have h4 := ran_commandList OPC_RAMWR h13.bus_eq
  have h14 := h13.trans h4
  have h5 := ran_select true h14.bus_eq
  have h15 := h14.trans h5
  rw [h14.regs_eq, h14.dc_eq, h14.rstN_eq, h14.initState_eq, h13.regs_eq, h13.rstN_eq, h13.initState_eq, h12.regs_eq,
    h12.rstN_eq, h12.initState_eq, h1.regs_eq, h1.rstN_eq, h1.initState_eq] at h15
  rw [windowList, idealList_append, idealList_append, idealList_append, idealList_append]
  simpa [windowWire, windowCalls, ramwrList] using h15

-- ## Bursts

/-- The state after `px` was sent as pixels from index `k` on. -/
def afterPixels (px : List U16) (k : U32) (u : State) : State :=
  let vs := px.flatMap (fun c => [hi c, lo c])
  { u with
    regs := { u.regs with idx := k }
    trace := u.trace ++ vs.flatMap (fun v => [.tx v, .byte u.lines.dc v])
    panel := u.panel.feed u.cfg.panelWrap (vs.map (Event.byte u.lines.dc))
    samples := u.samples ++ vs.flatMap msbFirst }

/-- One round of a pixel loop whose two bytes are the halves of `c`. -/
theorem idealEntries_pixel (a b : ByteSrc) (c : U16) {u : State} (ha : a.read u.regs = hi c)
    (hb : b.read u.regs = lo c) :
    idealEntries [.send a, .send b, .nextPixel] u = afterPixels [c] (u.regs.idx + 1) u := by
  simp [idealEntries, idealEntry, sendAtOnce, Atom.effect, afterPixels, emit, Panel.feed, Panel.onEvent, ha, hb]

theorem afterPixels_cons (c : U16) (px : List U16) (k j : U32) (u : State) :
    afterPixels px j (afterPixels [c] k u) = afterPixels (c :: px) j u := by
  simp [afterPixels, Panel.feed]

theorem idealRounds_fill (n : Nat) :
    ∀ u : State, idealRounds [.send .colorHi, .send .colorLo, .nextPixel] n u =
      afterPixels (List.replicate n u.regs.color) (u.regs.idx + BitVec.ofNat 32 n) u := by
  induction n with
  | zero => intro u; simp [idealRounds, afterPixels, Panel.feed]
  | succ n ih =>
    intro u
    rw [idealRounds, idealEntries_pixel .colorHi .colorLo u.regs.color rfl rfl, ih]
    have h1 : (afterPixels [u.regs.color] (u.regs.idx + 1) u).regs.color = u.regs.color := rfl
    have h2 : (afterPixels [u.regs.color] (u.regs.idx + 1) u).regs.idx = u.regs.idx + 1 := rfl
    rw [h1, h2, afterPixels_cons, ← List.replicate_succ]
    congr 1
    rw [BitVec.add_assoc]
    congr 1
    apply BitVec.eq_of_toNat_eq
    simp
    omega

theorem idealRounds_buf (px : List U16) :
    ∀ (u : State), u.regs.src.drop u.regs.idx.toNat = px → u.regs.src.length < 2 ^ 32 →
      idealRounds [.send .pixelHi, .send .pixelLo, .nextPixel] px.length u =
        afterPixels px (u.regs.idx + BitVec.ofNat 32 px.length) u := by
  induction px with
  | nil => intro u _ _; simp [idealRounds, afterPixels, Panel.feed]
  | cons c px ih =>
    intro u hd hl
    have hlt : u.regs.idx.toNat < u.regs.src.length := by
      by_contra hge
      rw [List.drop_eq_nil_of_le (by omega)] at hd
      cases hd
    have hget : u.regs.src[u.regs.idx.toNat]? = some c := by
      rw [List.getElem?_eq_getElem hlt]
      rw [List.drop_eq_getElem_cons hlt] at hd
      exact congrArg some (List.cons.inj hd).1
    have hrest : u.regs.src.drop (u.regs.idx.toNat + 1) = px := by
      rw [List.drop_eq_getElem_cons hlt] at hd
      exact (List.cons.inj hd).2
    have hm : memRead u.regs.src u.regs.idx.toNat = c := by simp [memRead, hget]
    have hidx : (u.regs.idx + 1).toNat = u.regs.idx.toNat + 1 := by
      simp only [BitVec.toNat_add]
      have : (1 : U32).toNat = 1 := rfl
      rw [this]
      omega
    rw [List.length_cons, idealRounds,
      idealEntries_pixel .pixelHi .pixelLo c (by simp [ByteSrc.read, hm]) (by simp [ByteSrc.read, hm]),
      ih (afterPixels [c] (u.regs.idx + 1) u)
        (by show (u.regs.src).drop (u.regs.idx + 1).toNat = px; rw [hidx, hrest]) hl]
    have h2 : (afterPixels [c] (u.regs.idx + 1) u).regs.idx = u.regs.idx + 1 := rfl
    rw [h2, afterPixels_cons]
    congr 1
    rw [BitVec.add_assoc]
    congr 1
    apply BitVec.eq_of_toNat_eq
    simp
    omega

theorem txs_calls (d : Bool) (vs : List Byte) :
    (vs.flatMap (fun v => [Event.tx v, Event.byte d v])).filter Event.fromSequencer = vs.map Event.tx := by
  induction vs with
  | nil => rfl
  | cons v vs ih => simp [List.filter_cons, Event.fromSequencer, ih]

theorem txs_wire (d : Bool) (vs : List Byte) :
    (vs.flatMap (fun v => [Event.tx v, Event.byte d v])).filter Event.onWire = vs.map (Event.byte d) := by
  induction vs with
  | nil => rfl
  | cons v vs ih => simp [List.filter_cons, Event.onWire, ih]

theorem bits_bytes (d : Bool) (vs : List Byte) : bitsOf (vs.map (Event.byte d)) = vs.flatMap msbFirst := by
  simp [bitsOf, List.flatMap_map, Event.bits]

theorem pixels_wire (px : List U16) :
    (px.flatMap (fun c => [hi c, lo c])).map (Event.byte true) = px.flatMap pixelWire := by
  simp only [List.map_flatMap]
  rfl

/-- A streaming bracket whose loop sends `px` and leaves `IDX` at `k`. -/
theorem ran_streamList (loop : Atom) (px : List U16) (k : U32) {u : State} (hb : u.bus = Transport.empty)
    (hl : idealAtom loop (driveDc true (driveSelect false u)) =
      afterPixels px k (driveDc true (driveSelect false u))) :
    Ran u (idealList (streamList loop) u) (streamWire px) (streamCalls px) { u.regs with idx := k } true true
      u.lines.rstN u.initState := by
  have e : idealList (streamList loop) u =
      driveSelect true (emit .idle (afterPixels px k (driveDc true (driveSelect false u)))) := by
    simp only [streamList, idealList_cons, idealList_nil]
    have h1 : idealAtom (.select false) u = driveSelect false u := rfl
    have h2 : ∀ v, idealAtom (.discriminate true) v = driveDc true v := fun _ => rfl
    rw [h1, h2, hl]
    rfl
  rw [e]
  constructor
  · constructor
    · simp [wire, afterPixels, List.filter_append, List.filter_cons, Event.onWire, txs_wire, streamWire, ← pixels_wire]
    · simp [calls, afterPixels, List.filter_append, List.filter_cons, Event.fromSequencer, txs_calls, streamCalls,
        frameCalls]
    · simp [afterPixels, streamWire, Panel.feed, Panel.onEvent, ← pixels_wire]
    · simp only [streamWire, bitsOf_append, ← pixels_wire, bits_bytes]
      simp [afterPixels, bitsOf, Event.bits]
    · simp [afterPixels, hb]
    · simp [afterPixels]
    · simp [afterPixels]
    · simp [afterPixels]
    · simp [afterPixels]
  all_goals simp [afterPixels]

theorem idealAtom_fillLoop (u : State) (h : u.regs.idx = 0) :
    idealAtom .fillLoop u = afterPixels (List.replicate u.regs.count.toNat u.regs.color) u.regs.count u := by
  have : loopRounds u = u.regs.count.toNat := by simp [loopRounds, h]
  simp only [idealAtom, loopBody, this, idealRounds_fill, h]
  congr 1
  simp

theorem idealAtom_bufLoop (u : State) (h : u.regs.idx = 0) (hl : u.regs.src.length < 2 ^ 32)
    (hc : u.regs.count = BitVec.ofNat 32 u.regs.src.length) :
    idealAtom .bufLoop u = afterPixels u.regs.src u.regs.count u := by
  have : loopRounds u = u.regs.src.length := by
    simp [loopRounds, h, hc]
    omega
  simp only [idealAtom, loopBody, this]
  rw [idealRounds_buf u.regs.src u (by simp [h]) hl, h, hc]
  congr 1
  simp

-- ## INIT

theorem ran_resetPulseList {u : State} (hb : u.bus = Transport.empty) :
    Ran u (idealList resetPulseList u) (resetPulseWire u.cfg) (resetPulseWire u.cfg) u.regs u.lines.csN u.lines.dc true
      u.initState := by
  have h1 := ran_resetLine true hb
  have h2 := h1.trans (ran_hold .rstPre h1.bus_eq)
  have h3 := h2.trans (ran_resetLine false h2.bus_eq)
  have h4 := h3.trans (ran_hold .rstLow h3.bus_eq)
  have h5 := h4.trans (ran_resetLine true h4.bus_eq)
  have h6 := h5.trans (ran_hold .rstPost h5.bus_eq)
  have c1 := h1.cfg_eq
  have c3 := h3.cfg_eq
  have c5 := h5.cfg_eq
  rw [h5.regs_eq, h5.csN_eq, h5.dc_eq, h5.rstN_eq, h5.initState_eq, h4.regs_eq, h4.csN_eq, h4.dc_eq, h4.initState_eq,
    h3.regs_eq, h3.csN_eq, h3.dc_eq, h3.initState_eq, h2.regs_eq, h2.csN_eq, h2.dc_eq, h2.initState_eq, h1.regs_eq,
    h1.csN_eq, h1.dc_eq, h1.initState_eq, c1, c3, c5] at h6
  simpa only [resetPulseList, resetPulseWire, delayMicros, idealList_cons, idealList_nil, List.cons_append,
    List.nil_append] using h6

theorem commandWire_nil (o : Byte) : parameterWire o [] = commandWire o := by simp [parameterWire, dataWire]

/-- A command and the settling delay after it. -/
theorem ran_command_hold (o : Byte) (t : DelayTime) {u : State} (hb : u.bus = Transport.empty) :
    Ran u (idealList (commandList o ++ [.hold t]) u) (commandWire o ++ [.wait (delayMicros u.cfg t)])
      (frameCalls false [o] ++ [.wait (delayMicros u.cfg t)]) u.regs u.lines.csN false u.lines.rstN u.initState := by
  have h1 := ran_commandList o hb
  have h2 := h1.trans (ran_hold t h1.bus_eq)
  rw [h1.regs_eq, h1.csN_eq, h1.dc_eq, h1.rstN_eq, h1.initState_eq, h1.cfg_eq] at h2
  rw [idealList_append]
  exact h2

/-- The sequencer's events of the configuration commands. -/
def configurationCalls (c : Config) : List Event :=
  parameterCalls 0xB0 c.ifmodeParams ++ (frameCalls false [0x11] ++ [Event.wait c.tSlpout]) ++ parameterCalls 0x3A [0x55] ++
    parameterCalls 0x36 [0x28] ++ parameterCalls 0xC2 [0x44] ++ parameterCalls 0xC5 [0x00, 0x00, 0x00, 0x00] ++
    parameterCalls 0xE0 c.gammaPos.toList ++ parameterCalls 0xE1 c.gammaNeg.toList ++
    (frameCalls false [0x29] ++ [Event.wait c.tDispon])

theorem ran_configurationList {u : State} (hb : u.bus = Transport.empty) :
    Ran u (idealList (configurationList u.cfg) u) (configurationWire u.cfg) (configurationCalls u.cfg) u.regs
      u.lines.csN false u.lines.rstN u.initState := by
  have h1 := ran_parameterList OPC_IFMODE u.cfg.ifmodeParams hb
  have h2 := h1.trans (ran_command_hold OPC_SLPOUT .slpout h1.bus_eq)
  have h3 := h2.trans (ran_parameterList OPC_PIXFMT [PIXFMT_PARAM] h2.bus_eq)
  have h4 := h3.trans (ran_parameterList OPC_MADCTL [MADCTL_PARAM] h3.bus_eq)
  have h5 := h4.trans (ran_parameterList OPC_PWCTR3 [PWCTR3_PARAM] h4.bus_eq)
  have h6 := h5.trans (ran_parameterList OPC_VMCTR VMCTR_PARAMS h5.bus_eq)
  have h7 := h6.trans (ran_parameterList OPC_PGAMMA u.cfg.gammaPos.toList h6.bus_eq)
  have h8 := h7.trans (ran_parameterList OPC_NGAMMA u.cfg.gammaNeg.toList h7.bus_eq)
  have h9 := h8.trans (ran_command_hold OPC_DISPON .dispon h8.bus_eq)
  have c1 := h1.cfg_eq
  have c8 := h8.cfg_eq
  rw [h8.regs_eq, h8.csN_eq, h8.rstN_eq, h8.initState_eq, h7.regs_eq, h7.csN_eq, h7.rstN_eq, h7.initState_eq,
    h6.regs_eq, h6.csN_eq, h6.rstN_eq, h6.initState_eq, h5.regs_eq, h5.csN_eq, h5.rstN_eq, h5.initState_eq,
    h4.regs_eq, h4.csN_eq, h4.rstN_eq, h4.initState_eq, h3.regs_eq, h3.csN_eq, h3.rstN_eq, h3.initState_eq,
    h2.regs_eq, h2.csN_eq, h2.rstN_eq, h2.initState_eq, h1.regs_eq, h1.csN_eq, h1.rstN_eq, h1.initState_eq, c1,
    c8] at h9
  simp only [configurationList, idealList_append, ifmodeList, slpoutList, pixfmtList, madctlList, pwctr3List, vmctrList,
    pgammaList, ngammaList, disponList]
  simp only [idealList_append] at h9
  have hw : configurationWire u.cfg = _ := rfl
  simpa [configurationWire, configurationCalls, OPC_IFMODE, OPC_SLPOUT, OPC_PIXFMT, OPC_MADCTL, OPC_PWCTR3, OPC_VMCTR,
    OPC_PGAMMA, OPC_NGAMMA, OPC_DISPON, PIXFMT_PARAM, MADCTL_PARAM, PWCTR3_PARAM, VMCTR_PARAMS, delayMicros] using h9

theorem ran_initList {u : State} (hb : u.bus = Transport.empty) :
    Ran u (idealList (initList u.cfg) u) (initWire u.cfg) (initCalls u.cfg) u.regs true false true .initialized := by
  have h1 := ran_config hb
  have h2 := h1.trans (ran_resetPulseList h1.bus_eq)
  have h3 := h2.trans (ran_select false h2.bus_eq)
  have h4 := h3.trans (ran_configurationList h3.bus_eq)
  have h5 := h4.trans (ran_select true h4.bus_eq)
  have h6 := h5.trans (ran_setInitialized h5.bus_eq)
  have c1 := h1.cfg_eq
  have c3 := h3.cfg_eq
  rw [h5.regs_eq, h5.csN_eq, h5.dc_eq, h5.rstN_eq, h4.regs_eq, h4.dc_eq, h4.rstN_eq, h3.regs_eq, h3.rstN_eq,
    h2.regs_eq, h2.rstN_eq, h1.regs_eq, c1, c3] at h6
  simp only [initList, idealList_append]
  have e : idealList [.select true, .setInitialized] = fun v => idealList [.setInitialized] (idealList [.select true] v) := rfl
  rw [e]
  simpa [initWire, initCalls, configurationCalls] using h6

end Sys2Proof.Machine
end

