-- ==== Sys2Proof/Laws/Exec.lean ====
section
/-! SUPPORT. From a list to a meaning: what a framed run and a request leave once their list is known, and the checks a
request begins with. -/

namespace Sys2Proof.Machine

variable {s : State} {l : List Atom} {w c : List Event} {r : Regs} {cs d rs : Bool} {i : InitState}

/-- A run of framed bytes, by its ideal list. -/
theorem runFramed_ran (hs : BusFree s) (hd : disciplined l true = true) (he : idleAtEnd l true = true)
    (k : Ran s (idealList l s) w c r cs d rs i) : ∃ t, runFramed l s = .next t ∧ Ran s t w c r cs d rs i := by
  obtain ⟨t, ht, h⟩ := runList_ran hs.1 hs.2 hd he k
  exact ⟨t, by simp [runFramed, bsy_eq_false.2 hs.1, ht, Flow.state], h⟩

/-- A run that kept registers and lines only sent. -/
theorem Ran.sentOnly {t : State} (k : Ran s t w c s.regs s.lines.csN d s.lines.rstN s.initState) : SentOnly s t d w c :=
  { toSent := k.toSent, regs_eq := k.regs_eq, seq_eq := k.seq_eq, initState_eq := k.initState_eq, busy_eq := k.busy_eq,
    status_eq := k.status_eq, waits_eq := k.waits_eq, csN_eq := k.csN_eq, dc_eq := k.dc_eq, rstN_eq := k.rstN_eq }

/-- With the transport busy no framed run starts (93_implementation_defined.md U7). -/
theorem runFramed_busy (h : bsy s = true) : runFramed l s = .refused .discriminatorWhileShifting := by
  simp [runFramed, h]

/-- The machine just after a request with its operands latched as `r` was accepted. -/
abbrev accepted (op : HostOp) (l : List Atom) (r : Regs) (s : State) : State := accept op l { s with regs := r }

/-- A request that was accepted, by the ideal run of its list. -/
theorem runRequest_completed {start : State → State} {op : HostOp} {r₀ : Regs} (hs : CanRun s)
    (hst : start s = accepted op l r₀ s) (hd : disciplined l true = true) (he : idleAtEnd l true = true)
    (k : Ran (accepted op l r₀ s) (idealList l (accepted op l r₀ s)) w c r true d rs i) :
    ∃ t, runRequest start s = .next t ∧ Completed s t r d w c ∧ t.initState = i ∧ t.lines.rstN = rs := by
  obtain ⟨hbusy, hbus, hto⟩ := hs
  obtain ⟨t, ht, h⟩ := runList_ran (s := accepted op l r₀ s) hbus hto hd he k
  refine ⟨complete t, ?_, ?_, h.initState_eq, h.rstN_eq⟩
  · have hb : bsy (accepted op l r₀ s) = false := bsy_eq_false.2 hbus
    have hl : (accepted op l r₀ s).seq.todo = l := rfl
    have hy : (accepted op l r₀ s).busy = true := rfl
    simp only [runRequest, hbusy, hst, finish, hy, hb, hl, ht, Flow.ended]
    rfl
  · exact
      { wire_eq := h.wire_eq, calls_eq := h.calls_eq, panel_eq := h.panel_eq, samples_eq := h.samples_eq,
        bus_eq := h.bus_eq, sck_eq := h.sck_eq, cfg_eq := h.cfg_eq, inputs_eq := h.inputs_eq, fault_eq := h.fault_eq,
        regs_eq := h.regs_eq, seq_eq := rfl, busy_eq := rfl, status_eq := rfl, waits_eq := rfl, csN_eq := h.csN_eq,
        dc_eq := h.dc_eq }

/-- The same for an operation that leaves `INIT_STATE` and `RST_n` alone. -/
theorem runRequest_served {start : State → State} {op : HostOp} {r₀ : Regs} (hs : CanRun s)
    (hst : start s = accepted op l r₀ s) (hd : disciplined l true = true) (he : idleAtEnd l true = true)
    (k : Ran (accepted op l r₀ s) (idealList l (accepted op l r₀ s)) w c r true d s.lines.rstN s.initState) :
    ∃ t, runRequest start s = .next t ∧ Served s t r d w c := by
  obtain ⟨t, ht, h, hi, hr⟩ := runRequest_completed hs hst hd he k
  exact ⟨t, ht, { toCompleted := h, initState_eq := hi, rstN_eq := hr }⟩

/-- Between operations and with no fault latched, an initialized block goes on to the operation itself. -/
theorem whenInitialized_go {k : State → State} (hf : s.fault = false) (hi : s.initState = .initialized) :
    whenInitialized k s = k s := by
  simp [whenInitialized, hf, hi]

/-- Before `initialize()` has completed (60_exceptions.md R232). -/
theorem whenInitialized_uninit {k : State → State} (hf : s.fault = false) (hi : s.initState = .uninit) :
    whenInitialized k s = raise STATUS_NOT_INITIALIZED s := by
  simp [whenInitialized, hf, hi]

/-- With a fault latched (60_exceptions.md R237). -/
theorem whenInitialized_fault {k : State → State} (hf : s.fault = true) :
    whenInitialized k s = raise STATUS_BUS_TIMEOUT s := by
  simp [whenInitialized, hf]

/-- A request that ends early in a state whose operands are latched as `r`. -/
theorem runRequest_rejected {start : State → State} {code : BitVec 4} (hb : s.busy = false)
    (hst : start s = raise code { s with regs := r }) : runRequest start s = .next (rejected code r s) := by
  simp [runRequest, hb, hst, finish, raise, rejected]

theorem runRequest_busy {start : State → State} (h : s.busy = true) :
    runRequest start s = .refused .requestWhileBusy := by
  simp [runRequest, h]

-- ## The lists are disciplined and end idle

theorem disciplined_dataBytes (vs : List Byte) (q : Bool) (hq : q = true) :
    disciplined (vs.flatMap dataList) q = true ∧ idleAtEnd (vs.flatMap dataList) q = true := by
  subst hq
  induction vs with
  | nil => exact ⟨rfl, rfl⟩
  | cons v vs ih =>
    rw [List.flatMap_cons, disciplined_append, idleAtEnd_append]
    exact ⟨by rw [Bool.and_eq_true]; exact ⟨rfl, ih.1⟩, ih.2⟩

theorem disciplined_parameterList (o : Byte) (vs : List Byte) :
    disciplined (parameterList o vs) true = true ∧ idleAtEnd (parameterList o vs) true = true := by
  rw [parameterList, disciplined_append, idleAtEnd_append]
  obtain ⟨h1, h2⟩ := disciplined_dataBytes vs true rfl
  exact ⟨by rw [Bool.and_eq_true]; exact ⟨rfl, h1⟩, h2⟩

/-- Two disciplined lists that end idle make one. -/
theorem disciplined_both {l m : List Atom} (hl : disciplined l true = true ∧ idleAtEnd l true = true)
    (hm : disciplined m true = true ∧ idleAtEnd m true = true) :
    disciplined (l ++ m) true = true ∧ idleAtEnd (l ++ m) true = true := by
  rw [disciplined_append, idleAtEnd_append, hl.1, hl.2]
  exact ⟨by simpa using hm.1, hm.2⟩

theorem disciplined_initList (c : Config) :
    disciplined (initList c) true = true ∧ idleAtEnd (initList c) true = true := by
  unfold initList configurationList
  exact disciplined_both (disciplined_both (disciplined_both (disciplined_both ⟨rfl, rfl⟩ ⟨rfl, rfl⟩) ⟨rfl, rfl⟩)
    (disciplined_both (disciplined_both (disciplined_both (disciplined_both (disciplined_both (disciplined_both
      (disciplined_both (disciplined_both (disciplined_parameterList _ _) ⟨rfl, rfl⟩) ⟨rfl, rfl⟩) ⟨rfl, rfl⟩)
      ⟨rfl, rfl⟩) ⟨rfl, rfl⟩) (disciplined_parameterList _ _)) (disciplined_parameterList _ _)) ⟨rfl, rfl⟩)) ⟨rfl, rfl⟩

theorem disciplined_rangeList (o : Byte) (a b c d : ByteSrc) :
    disciplined (rangeList o a b c d) true = true ∧ idleAtEnd (rangeList o a b c d) true = true := ⟨rfl, rfl⟩

theorem disciplined_windowList : disciplined windowList true = true ∧ idleAtEnd windowList true = true := ⟨rfl, rfl⟩

theorem disciplined_fill : disciplined (streamList .fillLoop) true = true ∧ idleAtEnd (streamList .fillLoop) true = true :=
  ⟨rfl, rfl⟩

theorem disciplined_buf : disciplined (streamList .bufLoop) true = true ∧ idleAtEnd (streamList .bufLoop) true = true :=
  ⟨rfl, rfl⟩

end Sys2Proof.Machine
end

