-- ==== Sys2Proof/Laws/Cases.lean ====
section
/-! SUPPORT. The two ends of a list's run, whatever the bound on waits: it ended, or a wait expired on the way; in both the
properties its own entries keep are kept. -/

namespace Sys2Proof.Machine

variable {P : State → Prop}

/-- The entries a list runs: its own and those of its pixel loops. -/
def Atom.within (a : Atom) (l : List Atom) : Prop := a ∈ l ∨ ∃ b ∈ l, a ∈ loopBody b

/-- What the transport and the entries of a list keep; an entry takes effect only once its wait is over. -/
structure KeptByList (P : State → Prop) (l : List Atom) : Prop extends KeptByTransport P where
  effect : ∀ a s, Atom.within a l → a.ready s = true → P s → P (a.effect s)

/-- A run ended, or a wait that is bounded expired; `P` holds at its end, in the second case before the fault was latched. -/
def Flow.Ends (P : State → Prop) (f : Flow) : Prop :=
  (∃ t, f = .ok t ∧ P t) ∨ (∃ u, f = .expired (timeOut u) ∧ P u ∧ u.cfg.busTimeout ≠ none)

theorem Flow.Ends.andThen {f : Flow} {k : State → Flow} (h : f.Ends P) (hk : ∀ t, P t → (k t).Ends P) :
    (f.andThen k).Ends P := by
  rcases h with ⟨t, rfl, ht⟩ | ⟨u, rfl, hu⟩
  · exact hk t ht
  · exact .inr ⟨u, rfl, hu⟩

theorem await_ends (h : KeptByTransport P) (c : WaitFor) {s : State} (hs : P s) :
    (∃ t, await c (waitBudget s) s = .ok t ∧ P t ∧ c.met t = true) ∨
      ∃ u, await c (waitBudget s) s = .expired (timeOut u) ∧ P u ∧ u.cfg.busTimeout ≠ none := by
  have hk : KeptByTransport (fun t => P t ∧ t.cfg = s.cfg) :=
    ⟨fun t ht => ⟨h.move t ht.1, by rw [(txMove_frame t).cfg_eq, ht.2]⟩, fun t ks ht => ⟨h.sched t ks ht.1, ht.2⟩⟩
  rcases await_cases hk c (waitBudget s) s ⟨hs, rfl⟩ with ⟨t, ht, hp, hm⟩ | ⟨u, hu, hp, _⟩
  · exact .inl ⟨t, ht, hp.1, hm⟩
  · refine .inr ⟨u, hu, hp.1, fun hn => ?_⟩
    rw [hp.2] at hn
    obtain ⟨t, ht⟩ := await_completes c (waitBudget s) s hn (by simp [waitBudget, hn])
    rw [hu] at ht
    cases ht

variable {l : List Atom}

theorem runEntry_ends (h : KeptByTransport P) {a : Atom} (he : ∀ s, a.ready s = true → P s → P (a.effect s)) {s : State}
    (hs : P s) : (runEntry a s).Ends P := by
  cases hw : a.waitsFor with
  | none =>
    simp only [runEntry, hw]
    exact .inl ⟨_, rfl, he s (by simp [Atom.ready, hw]) hs⟩
  | some c =>
    simp only [runEntry, hw]
    rcases await_ends h c hs with ⟨t, ht, hp, hm⟩ | ⟨u, hu, hp⟩
    · rw [ht]
      exact .inl ⟨_, rfl, he t (by simp [Atom.ready, hw, hm]) hp⟩
    · rw [hu]
      exact .inr ⟨u, rfl, hp⟩

theorem runEntries_ends (h : KeptByTransport P) :
    ∀ (l : List Atom), (∀ a ∈ l, ∀ s, a.ready s = true → P s → P (a.effect s)) → ∀ s, P s → (runEntries l s).Ends P
  | [], _, s, hs => .inl ⟨s, rfl, hs⟩
  | a :: l, he, _, hs =>
    (runEntry_ends h (he a (by simp)) hs).andThen (runEntries_ends h l (fun b hb => he b (by simp [hb])))

theorem runRounds_ends (h : KeptByTransport P) (he : ∀ a ∈ l, ∀ s, a.ready s = true → P s → P (a.effect s)) :
    ∀ (n : Nat) s, P s → (runRounds l n s).Ends P
  | 0, s, hs => .inl ⟨s, rfl, hs⟩
  | n + 1, s, hs => (runEntries_ends h l he s hs).andThen (runRounds_ends h he n)

theorem runAtom_ends (h : KeptByList P l) {a : Atom} (ha : a ∈ l) {s : State} (hs : P s) : (runAtom a s).Ends P := by
  unfold runAtom
  split
  · exact runEntry_ends h.toKeptByTransport (fun s hr hp => h.effect a s (.inl ha) hr hp) hs
  · rename_i b body hb
    exact runRounds_ends h.toKeptByTransport (fun c hc s hr hp => h.effect c s (.inr ⟨a, ha, hb ▸ hc⟩) hr hp) _ _ hs

theorem KeptByList.tail {a : Atom} (h : KeptByList P (a :: l)) : KeptByList P l where
  toKeptByTransport := h.toKeptByTransport
  effect b s hb hr hp := h.effect b s
    (hb.elim (fun hm => .inl (by simp [hm])) (fun ⟨c, hc, hm⟩ => .inr ⟨c, by simp [hc], hm⟩)) hr hp

/-- The two ends of a list's run. -/
theorem runList_ends : ∀ {l : List Atom}, KeptByList P l → ∀ s, P s → (runList l s).Ends P
  | [], _, s, hs => .inl ⟨s, rfl, hs⟩
  | a :: _, h, _, hs => (runAtom_ends h (by simp) hs).andThen (runList_ends h.tail)

theorem runList_append (l m : List Atom) (s : State) : runList (l ++ m) s = (runList l s).andThen (runList m) := by
  induction l generalizing s with
  | nil => rfl
  | cons a l ih =>
    simp only [List.cons_append, runList]
    cases runAtom a s with
    | ok t => exact ih t
    | expired t => rfl

end Sys2Proof.Machine
end

