-- ==== Sys2Proof/Laws/Decode.lean ====
section
/-! SUPPORT. Byte order and the wire decoder: halves of a word and their join, a transaction and its opcode and data bytes,
and how a decoder that is a chain of tests is taken apart. -/

namespace Sys2Proof

@[simp] theorem joinBytes_hi_lo (w : U16) : joinBytes (hi w) (lo w) = w := by
  unfold joinBytes hi lo
  bv_normalize

@[simp] theorem hi_joinBytes (a b : Byte) : hi (joinBytes a b) = a := by
  unfold joinBytes hi
  apply BitVec.eq_of_getLsbD_eq
  intro i h
  rw [BitVec.getLsbD_extractLsb', BitVec.getLsbD_append]
  simp [h]

@[simp] theorem lo_joinBytes (a b : Byte) : lo (joinBytes a b) = b := by
  unfold joinBytes lo
  apply BitVec.eq_of_getLsbD_eq
  intro i h
  rw [BitVec.getLsbD_extractLsb', BitVec.getLsbD_append]
  simp [h]

@[simp] theorem decodeWire_wireBytes (o : Byte) (ps : List Byte) : decodeWire (wireBytes o ps) = decodeCommand o ps := by
  simp [decodeWire, wireBytes, Function.comp_def]

/-- A transaction that decodes is a command byte and data bytes. -/
theorem decodeWire_cases {b : List WireByte} {i : Instr} (h : decodeWire b = .ok i) :
    ∃ o ps, b = wireBytes o ps ∧ decodeCommand o ps = .ok i := by
  cases b with
  | nil => simp [decodeWire] at h
  | cons c rest =>
    simp only [decodeWire] at h
    split at h
    · simp at h
    · split at h
      · rename_i h1 h2
        refine ⟨c.value, rest.map (·.value), ?_, h⟩
        obtain ⟨d, v⟩ := c
        simp only [Bool.not_eq_true] at h1
        subst h1
        simp only [wireBytes, List.map_map]
        congr 1
        have h2 := List.all_eq_true.1 h2
        calc rest = rest.map id := (List.map_id _).symm
          _ = _ := List.map_congr_left (fun x hx => by
              obtain ⟨d, v⟩ := x
              have h3 : d = true := h2 _ hx
              simp [h3])
      · simp at h

/-- One test of a chain of tests. -/
theorem ite_eq_cases {α : Type} {c : Prop} [Decidable c] {a b r : α} (h : (if c then a else b) = r) :
    (c ∧ a = r) ∨ (¬c ∧ b = r) := by
  by_cases hc : c
  · exact .inl ⟨hc, by rwa [if_pos hc] at h⟩
  · exact .inr ⟨hc, by rwa [if_neg hc] at h⟩

end Sys2Proof
end

