-- ==== Sys2Proof/Laws/Step.lean ====
section
/-! SUPPORT. What an instruction and a step can do, said once; a property that the transport's moves, the entries' effects
and the control updates keep is kept by every step. -/

namespace Sys2Proof.Machine

-- ## What an instruction can do

/-- The entries of every operation but `INIT`: they leave the reset line and `INIT_STATE` alone and take no time. -/
def Atom.steady : Atom → Bool
  | .resetLine _ => false
  | .setInitialized => false
  | .hold _ => false
  | .config => false
  | .send _ => true
  | .awaitIdle => true
  | .select _ => true
  | .discriminate _ => true
  | .fillLoop => true
  | .bufLoop => true
  | .nextPixel => true
  | .loadOne => true
  | .loadRect => true
  | .loadGather => true

/-- How a request begins: it ends at once with a status, or it is accepted with a disciplined list that ends idle; of a
request that may not be `INIT` the list is steady. -/
inductive Starts (init : Bool) (s : State) : State → Prop where
  | ended (code : BitVec 4) (r : Regs) (h : code.toNat < 8) : Starts init s (raise code { s with regs := r })
  | accepted (op : HostOp) (l : List Atom) (r : Regs) (h : disciplined l true = true ∧ idleAtEnd l true = true)
      (hq : init = false → l.all Atom.steady = true) : Starts init s (accept op l { s with regs := r })

theorem Starts.raised {init : Bool} (s : State) (code : BitVec 4) (h : code.toNat < 8) : Starts init s (raise code s) :=
  Starts.ended code s.regs h

theorem startInit_starts (s : State) : Starts true s (startInit s) := by
  unfold startInit
  split
  · exact Starts.raised s _ (by decide)
  · split
    · exact Starts.raised s _ (by decide)
    · exact Starts.accepted .init _ s.regs (disciplined_initList _) (by simp)

theorem whenInitialized_starts {init : Bool} {k : State → State} {s : State} (h : Starts init s (k s)) :
    Starts init s (whenInitialized k s) := by
  unfold whenInitialized
  split
  · exact Starts.raised s _ (by decide)
  · split
    · exact Starts.raised s _ (by decide)
    · exact h

theorem startSetwin_starts (x0 y0 x1 y1 : U16) (s : State) : Starts false s (startSetwin x0 y0 x1 y1 s) :=
  whenInitialized_starts (Starts.accepted _ _ _ disciplined_windowList (fun _ => rfl))

theorem startStreamfill_starts (n : U32) (c : U16) (s : State) : Starts false s (startStreamfill n c s) :=
  whenInitialized_starts (Starts.accepted .streamfill _ { s.regs with color := c, count := n, idx := 0 } disciplined_fill
    (fun _ => rfl))

theorem startStreambuf_starts (px : List U16) (s : State) : Starts false s (startStreambuf px s) :=
  whenInitialized_starts
    (Starts.accepted .streambuf _ { s.regs with src := px, count := BitVec.ofNat 32 px.length, idx := 0 } disciplined_buf
      (fun _ => rfl))

theorem startDrawpixel_starts (x y c : U16) (s : State) : Starts false s (startDrawpixel x y c s) := by
  apply whenInitialized_starts
  dsimp only
  split
  · exact Starts.ended _ _ (by decide)
  · exact Starts.accepted .drawpixel _ { s.regs with px := x, py := y, color := c, x0 := x, y0 := y, x1 := x, y1 := y }
      ⟨rfl, rfl⟩ (fun _ => rfl)

theorem startFillrect_starts (x y w h c : U16) (s : State) : Starts false s (startFillrect x y w h c s) := by
  apply whenInitialized_starts
  dsimp only
  split
  · exact Starts.ended _ _ (by decide)
  · split
    · exact Starts.ended _ _ (by decide)
    · exact Starts.accepted .fillrect _ (latchRegion (latchClip (latchColor c (latchSize w h (latchAnchor x y s))))).regs
        ⟨rfl, rfl⟩ (fun _ => rfl)

theorem startDrawimage_starts (x y w h : U16) (px : List U16) (s : State) : Starts false s (startDrawimage x y w h px s) := by
  apply whenInitialized_starts
  dsimp only
  split
  · exact Starts.ended _ _ (by decide)
  · split
    · exact Starts.ended _ _ (by decide)
    · split
      · exact Starts.ended _ (latchClip (latchSource px (latchSize w h (latchAnchor x y s)))).regs (by decide)
      · split
        · exact Starts.ended _ (latchClip (latchSource px (latchSize w h (latchAnchor x y s)))).regs (by decide)
        · exact Starts.accepted .drawimage _
            (latchRegion (latchClip (latchSource px (latchSize w h (latchAnchor x y s))))).regs ⟨rfl, rfl⟩ (fun _ => rfl)

/-- The entries an instruction may consist of alone. -/
def Atom.alone : Atom → Bool
  | .send _ => true
  | .awaitIdle => true
  | .hold _ => true
  | .select _ => true
  | .config => false
  | .resetLine _ => false
  | .discriminate _ => false
  | .fillLoop => false
  | .bufLoop => false
  | .nextPixel => false
  | .loadOne => false
  | .loadRect => false
  | .loadGather => false
  | .setInitialized => false

/-- The entries of the framed runs: they leave the reset line, `INIT_STATE` and the registers alone. -/
def Atom.framing : Atom → Bool
  | .discriminate _ => true
  | .send _ => true
  | .awaitIdle => true
  | .hold _ => true
  | .config => false
  | .resetLine _ => false
  | .select _ => false
  | .fillLoop => false
  | .bufLoop => false
  | .nextPixel => false
  | .loadOne => false
  | .loadRect => false
  | .loadGather => false
  | .setInitialized => false

/-- What an instruction that answers a next state did: a single entry, a framed run from an idle transport, a request
that ended at once, or a request that was accepted with the transport idle and run to its end; of an instruction that may
not be `INIT` a request's list is steady. -/
inductive Did (init : Bool) (s : State) : State → Prop where
  | entry (a : Atom) (h : a.alone = true) : Did init s (runList [a] s).state
  | framed (l : List Atom) (hb : s.bus = Transport.empty) (hd : disciplined l true = true)
      (hf : l.all Atom.framing = true) : Did init s (runList l s).state
  | ended (code : BitVec 4) (r : Regs) (hy : s.busy = false) (h : code.toNat < 8) :
      Did init s (raise code { s with regs := r })
  | ran (op : HostOp) (l : List Atom) (r : Regs) (hy : s.busy = false) (hb : s.bus = Transport.empty)
      (hd : disciplined l true = true) (he : idleAtEnd l true = true) (hq : init = false → l.all Atom.steady = true) :
      Did init s (runList l (accept op l { s with regs := r })).ended

theorem framing_parameterList (o : Byte) (vs : List Byte) : (parameterList o vs).all Atom.framing = true := by
  simp [parameterList, commandList, dataList, byteList, Atom.framing]

theorem runFramed_did {init : Bool} {l : List Atom} {s t : State} (hd : disciplined l true = true)
    (hf : l.all Atom.framing = true) (h : runFramed l s = .next t) : Did init s t := by
  unfold runFramed at h
  split at h
  · cases h
  · rename_i hb
    cases h
    exact Did.framed l (bsy_eq_false.1 (by simpa using hb)) hd hf

theorem runRequest_did {init : Bool} {start : State → State} {s t : State} (hst : Starts init s (start s))
    (h : runRequest start s = .next t) : Did init s t := by
  unfold runRequest at h
  split at h
  · cases h
  · rename_i hy
    have hy : s.busy = false := by simpa using hy
    generalize start s = u at hst h
    cases hst with
    | ended code r hc =>
      have : t = raise code { s with regs := r } := by simpa [finish, raise] using h.symm
      exact this ▸ Did.ended code r hy hc
    | accepted op l r hl hq =>
      unfold finish at h
      split at h
      · split at h
        · cases h
        · rename_i hb
          cases h
          exact Did.ran op l r hy ((bsy_eq_false (s := accept op l { s with regs := r })).1 (by simpa using hb)) hl.1 hl.2
            hq
      · rename_i hn
        exact absurd rfl hn

/-- What an instruction can do. -/
theorem exec_did {i : Instr} {s t : State} (h : exec i s = .next t) : Did (decide (i = .init)) s t := by
  cases i with
  | ifmode ps => exact runFramed_did (disciplined_parameterList _ _).1 (framing_parameterList _ _) h
  | slpout => exact runFramed_did rfl rfl h
  | pixfmt p => exact runFramed_did rfl rfl h
  | madctl p => exact runFramed_did rfl rfl h
  | pwctr3 p => exact runFramed_did rfl rfl h
  | vmctr p q r u => exact runFramed_did rfl rfl h
  | pgamma ps => exact runFramed_did (disciplined_parameterList _ _).1 (framing_parameterList _ _) h
  | ngamma ps => exact runFramed_did (disciplined_parameterList _ _).1 (framing_parameterList _ _) h
  | dispon => exact runFramed_did rfl rfl h
  | caset a b => exact runFramed_did rfl rfl h
  | paset a b => exact runFramed_did rfl rfl h
  | ramwr => exact runFramed_did rfl rfl h
  | init => exact runRequest_did (startInit_starts s) h
  | setwin x0 y0 x1 y1 => exact runRequest_did (startSetwin_starts _ _ _ _ s) h
  | streamfill n c => exact runRequest_did (startStreamfill_starts _ _ s) h
  | streambuf px => exact runRequest_did (startStreambuf_starts _ s) h
  | drawpixel x y c => exact runRequest_did (startDrawpixel_starts _ _ _ s) h
  | fillrect x y w ht c => exact runRequest_did (startFillrect_starts _ _ _ _ _ s) h
  | drawimage x y w ht px => exact runRequest_did (startDrawimage_starts _ _ _ _ _ s) h
  | sendbyte v => cases h; exact Did.entry (.send (.lit v)) rfl
  | waitidle => cases h; exact Did.entry .awaitIdle rfl
  | selstart => cases h; exact Did.entry (.select false) rfl
  | selend =>
    simp only [exec, execSelend] at h
    split at h
    · cases h
    · cases h; exact Did.entry (.select true) rfl
  | wrcmd o => exact runFramed_did rfl rfl h
  | wrdata8 v => exact runFramed_did rfl rfl h
  | wrdata16 w => exact runFramed_did rfl rfl h
  | delay t => cases h; exact Did.entry (.hold t) rfl

-- ## What every step keeps

/-- What the block's own updates keep; an entry takes effect only once its wait is over, and `DC` changes only with the
transport idle. -/
structure KeptByMoves (P : State → Prop) : Prop extends KeptByTransport P where
  effect : ∀ (a : Atom) s, P s → a.ready s = true → (∀ b, a = .discriminate b → s.bus = Transport.empty) → P (a.effect s)
  registers : ∀ s r, P s → P { s with regs := r }
  raised : ∀ (code : BitVec 4) s, code.toNat < 8 → P s → P (raise code s)
  faulted : ∀ s, P s → P { s with fault := true }
  accepted : ∀ op l s, P s → P (accept op l s)
  waits : ∀ s n, P s → P { s with waits := n }
  advanced : ∀ (s : State) l, s.busy = true → P s → P { s with seq := { s.seq with todo := l }, waits := 0 }
  inputs : ∀ s is, P s → P { s with inputs := is }

section
variable {P : State → Prop} (hP : KeptByMoves P)
include hP

theorem KeptByMoves.timeOut {s : State} (h : P s) : P (timeOut s) := hP.raised _ _ (by decide) (hP.faulted _ h)

theorem KeptByMoves.runEntry {a : Atom} {s : State} (h : P s) (q : Bool) (hq : q = true → s.bus = Transport.empty)
    (hd : ∀ b, a = .discriminate b → q = true) (hl : loopBody a = []) :
    P (runEntry a s).state ∧ ∀ t, runEntry a s = .ok t → a.idleAfter q = true → t.bus = Transport.empty := by
  have hlines : a.waitsFor = none → P (a.effect s) := fun hn =>
    hP.effect a s h (by simp [Atom.ready, hn]) (fun b hb => hq (hd b hb))
  cases hw : a.waitsFor with
  | none =>
    refine ⟨by simp only [Machine.runEntry, hw]; exact hlines hw, fun t ht hi => ?_⟩
    simp only [Machine.runEntry, hw] at ht
    cases ht
    cases a <;> simp_all [Atom.waitsFor, Atom.idleAfter, loopBody, Atom.effect]
  | some c =>
    rcases await_cases hP.toKeptByTransport c (waitBudget s) s h with ⟨t, ht, hp, hm⟩ | ⟨t, ht, hp, _⟩
    · have e : Machine.runEntry a s = .ok (a.effect t) := by simp [Machine.runEntry, hw, ht, Flow.andThen]
      have hdisc : ∀ b, a ≠ .discriminate b := by
        intro b hb; subst hb; simp [Atom.waitsFor] at hw
      rw [e]
      refine ⟨hP.effect a t hp (by simp [Atom.ready, hw, hm]) (fun b hb => absurd hb (hdisc b)), fun u hu hi => ?_⟩
      cases hu
      cases a <;> simp_all [Atom.waitsFor, Atom.idleAfter]
      subst hw
      simpa [Atom.effect] using met_idle.1 hm
    · have e : Machine.runEntry a s = .expired (Machine.timeOut t) := by simp [Machine.runEntry, hw, ht, Flow.andThen]
      rw [e]
      exact ⟨KeptByMoves.timeOut hP hp, fun u hu => by cases hu⟩

theorem KeptByMoves.runEntries (l : List Atom) (hl : ∀ a ∈ l, loopBody a = []) :
    ∀ {s : State} (q : Bool), P s → (q = true → s.bus = Transport.empty) → disciplined l q = true →
      P (runEntries l s).state ∧ ∀ t, runEntries l s = .ok t → idleAtEnd l q = true → t.bus = Transport.empty := by
  induction l with
  | nil => intro s q h hq _; exact ⟨h, fun t ht hi => by cases ht; exact hq hi⟩
  | cons a l ih =>
    intro s q h hq hd
    simp only [disciplined, Bool.and_eq_true] at hd
    obtain ⟨h1, h2⟩ := KeptByMoves.runEntry hP h q hq
      (fun b hb => by subst hb; simpa [Atom.needsIdle] using hd.1) (hl a (by simp))
    cases hr : Machine.runEntry a s with
    | ok t =>
      rw [hr] at h1
      simp only [Machine.runEntries, hr, Flow.andThen]
      exact ih (fun b hb => hl b (by simp [hb])) _ h1 (h2 t hr) hd.2
    | expired t =>
      rw [hr] at h1
      simp only [Machine.runEntries, hr, Flow.andThen]
      exact ⟨h1, fun u hu => by cases hu⟩

theorem KeptByMoves.runRounds (l : List Atom) (hl : ∀ a ∈ l, loopBody a = []) (hd : disciplined l false = true)
    (n : Nat) : ∀ {s : State}, P s → P (runRounds l n s).state := by
  induction n with
  | zero => intro s h; exact h
  | succ n ih =>
    intro s h
    obtain ⟨h1, _⟩ := KeptByMoves.runEntries hP l hl false h (by simp) hd
    cases hr : Machine.runEntries l s with
    | ok t => rw [hr] at h1; simp only [Machine.runRounds, hr, Flow.andThen]; exact ih h1
    | expired t => rw [hr] at h1; simp only [Machine.runRounds, hr, Flow.andThen]; exact h1

theorem KeptByMoves.runAtom {a : Atom} {s : State} (h : P s) (q : Bool) (hq : q = true → s.bus = Transport.empty)
    (hd : ∀ b, a = .discriminate b → q = true) :
    P (runAtom a s).state ∧ ∀ t, runAtom a s = .ok t → a.idleAfter q = true → t.bus = Transport.empty := by
  rcases loopBody_cases a with hl | ⟨rfl, hl⟩ | ⟨rfl, hl⟩
  · have e : Machine.runAtom a s = Machine.runEntry a s := by simp [Machine.runAtom, hl]
    rw [e]
    exact KeptByMoves.runEntry hP h q hq hd hl
  · simp only [Machine.runAtom, hl]
    exact ⟨KeptByMoves.runRounds hP _ (by simp [loopBody]) rfl _ h, fun _ _ hi => by simp [Atom.idleAfter] at hi⟩
  · simp only [Machine.runAtom, hl]
    exact ⟨KeptByMoves.runRounds hP _ (by simp [loopBody]) rfl _ h, fun _ _ hi => by simp [Atom.idleAfter] at hi⟩

theorem KeptByMoves.runList (l : List Atom) :
    ∀ {s : State} (q : Bool), P s → (q = true → s.bus = Transport.empty) → disciplined l q = true →
      P (runList l s).state ∧ ∀ t, runList l s = .ok t → idleAtEnd l q = true → t.bus = Transport.empty := by
  induction l with
  | nil => intro s q h hq _; exact ⟨h, fun t ht hi => by cases ht; exact hq hi⟩
  | cons a l ih =>
    intro s q h hq hd
    simp only [disciplined, Bool.and_eq_true] at hd
    obtain ⟨h1, h2⟩ := KeptByMoves.runAtom hP (a := a) h q hq (fun b hb => by subst hb; simpa [Atom.needsIdle] using hd.1)
    cases hr : Machine.runAtom a s with
    | ok t =>
      rw [hr] at h1
      simp only [Machine.runList, hr, Flow.andThen]
      exact ih _ h1 (h2 t hr) hd.2
    | expired t =>
      rw [hr] at h1
      simp only [Machine.runList, hr, Flow.andThen]
      exact ⟨h1, fun u hu => by cases hu⟩

theorem KeptByMoves.alone {a : Atom} (ha : a.alone = true) {s : State} (h : P s) : P (Machine.runList [a] s).state := by
  obtain ⟨h1, _⟩ := KeptByMoves.runAtom hP (a := a) h false (by simp) (fun b hb => by subst hb; simp [Atom.alone] at ha)
  cases hr : Machine.runAtom a s with
  | ok t => rw [hr] at h1; simpa [Machine.runList, hr, Flow.andThen] using h1
  | expired t => rw [hr] at h1; simpa [Machine.runList, hr, Flow.andThen] using h1

theorem KeptByMoves.did {init : Bool} {s t : State} (h : P s) (hd : Did init s t) : P t := by
  cases hd with
  | entry a ha => exact KeptByMoves.alone hP ha h
  | framed l hb hd _ => exact (KeptByMoves.runList hP l true h (fun _ => hb) hd).1
  | ended code r _ hc => exact hP.raised _ _ hc (hP.registers _ _ h)
  | ran op l r _ hb hd _ _ =>
    have h1 := (KeptByMoves.runList hP l true (hP.accepted op l _ (hP.registers s r h)) (fun _ => hb) hd).1
    cases hr : Machine.runList l (accept op l { s with regs := r }) with
    | ok t => rw [hr] at h1; exact hP.raised _ _ (by decide) h1
    | expired t => rw [hr] at h1; exact h1

theorem KeptByMoves.exec {i : Instr} {s t : State} (h : P s) (he : exec i s = .next t) : P t :=
  KeptByMoves.did hP h (exec_did he)

theorem KeptByMoves.starts {init : Bool} {s t : State} (h : P s) (hs : Starts init s t) : P t := by
  cases hs with
  | ended code r hc => exact hP.raised _ _ hc (hP.registers _ _ h)
  | accepted op l r _ _ => exact hP.accepted _ _ _ (hP.registers _ _ h)

theorem KeptByMoves.submit {i : Instr} {s t : State} (h : P s) (he : submit i s = .next t) : P t := by
  cases i <;> simp only [Machine.submit, reduceCtorEq, Host.Outcome.next.injEq] at he <;> subst he
  · exact KeptByMoves.starts hP h (startInit_starts s)
  · exact KeptByMoves.starts hP h (startSetwin_starts _ _ _ _ s)
  · exact KeptByMoves.starts hP h (startStreamfill_starts _ _ s)
  · exact KeptByMoves.starts hP h (startStreambuf_starts _ s)
  · exact KeptByMoves.starts hP h (startDrawpixel_starts _ _ _ s)
  · exact KeptByMoves.starts hP h (startFillrect_starts _ _ _ _ _ s)
  · exact KeptByMoves.starts hP h (startDrawimage_starts _ _ _ _ _ s)

theorem KeptByMoves.seqMove {s t : State} (h : P s) (he : seqMove s = .next t) : P t := by
  unfold Machine.seqMove at he
  split at he
  · rename_i hy
    split at he
    · cases he; exact hP.raised _ _ (by decide) h
    · rename_i a rest _
      split at he
      · rename_i hr
        split at he
        · rename_i o ho
          subst he
          cases a <;> simp [Atom.stop] at ho
        · rename_i ho
          cases he
          refine hP.effect a _ (hP.advanced s _ hy h) ?_ ?_
          · cases hw : a.waitsFor with
            | none => simp [Atom.ready, hw]
            | some c => cases c <;> simpa [Atom.ready, hw, WaitFor.met, txe, bsy] using hr
          · intro b hb
            subst hb
            simp only [Atom.stop] at ho
            split at ho
            · cases ho
            · rename_i hb
              exact (bsy_eq_false (s := s)).1 (by simpa using hb)
      · cases he
        unfold failedTest
        split
        · exact hP.waits _ _ h
        · split
          · exact KeptByMoves.timeOut hP h
          · exact hP.waits _ _ h
  · cases he; exact h

/-- Every step but the block's reset keeps what the block's updates keep. -/
theorem KeptByMoves.step {s t : State} (hr : s.inputs.head? ≠ some .reset) (h : P s) (he : step s = .next t) : P t := by
  unfold Machine.step at he
  split at he
  · unfold autoMove at he
    split at he
    · cases he; exact hP.move _ h
    · exact KeptByMoves.seqMove hP h he
  · unfold stepCall at he
    split at he
    · cases he
    · split at he
      · exact KeptByMoves.exec hP (hP.inputs _ _ h) he
      · cases he; exact hP.raised _ _ (by decide) (hP.inputs _ _ h)
      · cases he
  · unfold stepSubmit at he
    split at he
    · cases he
    · split at he
      · exact KeptByMoves.submit hP (hP.inputs _ _ h) he
      · cases he; exact hP.raised _ _ (by decide) (hP.inputs _ _ h)
      · cases he
  · exact KeptByMoves.seqMove hP (hP.inputs _ _ h) he
  · cases he; exact hP.move _ (hP.inputs _ _ h)
  · rename_i hi
    exact absurd (by rw [hi]; rfl) hr

/-- Every step keeps what the block's updates and its reset keep. -/
theorem KeptByMoves.step_all (hreset : ∀ s, P (blockReset s)) {s t : State} (h : P s) (he : Machine.step s = .next t) : P t := by
  by_cases hr : s.inputs.head? = some .reset
  · unfold Machine.step at he
    split at he <;> simp_all only [List.head?_nil, List.head?_cons, reduceCtorEq, Option.some.injEq]
    cases he
    exact hreset _
  · exact KeptByMoves.step hP hr h he

end

end Sys2Proof.Machine
end

