-- ==== Sys2Proof/Laws/Moves.lean ====
section
/-! SUPPORT. A request taken move by move never stops: the sequencer's lists keep the transport idle where an entry needs
it so, and read the source sequence inside its length only. -/

namespace Sys2Proof.Machine

-- ## Lists that read the source where it exists

/-- What is known of the counters before the entry after this one: `IDX` lies inside `SRC`; `COUNT` is at most its
length. -/
def Atom.knownAfter : Atom → Bool × Bool → Bool × Bool
  | .fillLoop, k => (false, k.2)
  | .bufLoop, k => (false, k.2)
  | .nextPixel, k => (false, k.2)
  | .loadOne, _ => (false, false)
  | .loadRect, _ => (false, false)
  | .loadGather, _ => (false, true)
  | .config, k => k
  | .resetLine _, k => k
  | .hold _, k => k
  | .select _, k => k
  | .discriminate _, k => k
  | .send _, k => k
  | .awaitIdle, k => k
  | .setInitialized, k => k

/-- What must be known for the entry to read no source pixel past the end. -/
def Atom.readsInside : Atom → Bool × Bool → Bool
  | .send src, k => !src.readsSource || k.1
  | .bufLoop, k => k.2
  | .config, _ => true
  | .resetLine _, _ => true
  | .hold _, _ => true
  | .select _, _ => true
  | .discriminate _, _ => true
  | .awaitIdle, _ => true
  | .fillLoop, _ => true
  | .nextPixel, _ => true
  | .loadOne, _ => true
  | .loadRect, _ => true
  | .loadGather, _ => true
  | .setInitialized, _ => true

/-- The list reads the source inside its length only (20_memory.md R68), whatever moves come between. -/
def sourced : List Atom → Bool × Bool → Bool
  | [], _ => true
  | a :: rest, k => a.readsInside k && sourced rest (a.knownAfter k)

theorem sourced_append (l m : List Atom) (k : Bool × Bool) :
    sourced (l ++ m) k = (sourced l k && sourced m (l.foldl (fun k a => a.knownAfter k) k)) := by
  induction l generalizing k with
  | nil => simp [sourced]
  | cons a l ih => simp only [List.cons_append, sourced, ih, List.foldl_cons, Bool.and_assoc]

/-- A command with its parameters reads no source pixel and moves no counter. -/
theorem sourced_parameterList (o : Byte) (vs : List Byte) (m : List Atom) (k : Bool × Bool) :
    sourced (parameterList o vs ++ m) k = sourced m k := by
  have h : ∀ vs : List Byte, sourced (vs.flatMap dataList ++ m) k = sourced m k := by
    intro vs
    induction vs with
    | nil => rfl
    | cons v vs ih => rw [List.flatMap_cons, List.append_assoc, sourced_append]; exact ih
  rw [parameterList, List.append_assoc, sourced_append]
  exact h vs

theorem sourced_initList (c : Config) : sourced (initList c) (false, false) = true := by
  simp [initList, configurationList, ifmodeList, pixfmtList, madctlList, pwctr3List, vmctrList, pgammaList, ngammaList,
    resetPulseList, slpoutList, disponList, commandList, byteList, sourced_parameterList, sourced, Atom.readsInside,
    Atom.knownAfter, ByteSrc.readsSource]

-- ## The invariant of a request in progress

/-- The request in progress can go on: what `q` and `k` claim of the transport and of the counters holds, and with it what
is left of the list needs nothing that could fail. -/
def MovesOn (s : State) : Prop :=
  s.busy = true → ∃ q k, (q = true → s.bus = Transport.empty) ∧ (k.1 = true → s.regs.idx.toNat < s.regs.src.length) ∧
    (k.2 = true → s.regs.count.toNat ≤ s.regs.src.length) ∧ disciplined s.seq.todo q = true ∧ sourced s.seq.todo k = true

theorem MovesOn.raise (code : BitVec 4) (s : State) : MovesOn (raise code s) := fun h => by cases h

theorem MovesOn.accepted {op : HostOp} {l : List Atom} {s : State} (k : Bool) (hb : s.bus = Transport.empty)
    (hc : k = true → s.regs.count.toNat ≤ s.regs.src.length) (hd : disciplined l true = true)
    (hs : sourced l (false, k) = true) : MovesOn (accept op l s) :=
  fun _ => ⟨true, (false, k), fun _ => hb, by simp, hc, hd, hs⟩

theorem MovesOn.whenInitialized {k : State → State} {s : State} (h : MovesOn (k s)) : MovesOn (whenInitialized k s) := by
  unfold Machine.whenInitialized
  split
  · exact MovesOn.raise _ _
  · split
    · exact MovesOn.raise _ _
    · exact h

/-- A host request started with the transport idle is taken, and can go on. -/
theorem submit_movesOn {i : Instr} {s : State} (hi : i.layer = .host) (hb : s.bus = Transport.empty) :
    ∃ t, submit i s = .next t ∧ MovesOn t := by
  cases i with
  | init =>
    refine ⟨_, rfl, ?_⟩
    unfold startInit
    split
    · exact MovesOn.raise _ _
    · split
      · exact MovesOn.raise _ _
      · exact MovesOn.accepted false hb (by simp) (disciplined_initList _).1 (sourced_initList _)
  | setwin x0 y0 x1 y1 => exact ⟨_, rfl, .whenInitialized (.accepted false hb (by simp) rfl rfl)⟩
  | streamfill n c => exact ⟨_, rfl, .whenInitialized (.accepted false hb (by simp) rfl rfl)⟩
  | streambuf px =>
    exact ⟨_, rfl, .whenInitialized (.accepted true hb (fun _ => by simpa [startBurst] using Nat.mod_le _ _) rfl rfl)⟩
  | drawpixel x y c =>
    refine ⟨_, rfl, .whenInitialized ?_⟩
    dsimp only
    split
    · exact MovesOn.raise _ _
    · exact .accepted false hb (by simp) rfl rfl
  | fillrect x y w h c =>
    refine ⟨_, rfl, .whenInitialized ?_⟩
    dsimp only
    split
    · exact MovesOn.raise _ _
    · split
      · exact MovesOn.raise _ _
      · exact .accepted false hb (by simp) rfl rfl
  | drawimage x y w h px =>
    refine ⟨_, rfl, .whenInitialized ?_⟩
    dsimp only
    split
    · exact MovesOn.raise _ _
    · split
      · exact MovesOn.raise _ _
      · split
        · exact MovesOn.raise _ _
        · split
          · exact MovesOn.raise _ _
          · exact .accepted false hb (by simp) rfl rfl
  | _ => simp [Instr.layer] at hi

/-- A wait's failed test lets the request go on, or ends it. -/
theorem failedTest_movesOn {s : State} (h : MovesOn s) : MovesOn (failedTest s) := by
  unfold failedTest
  split
  · exact h
  · split
    · exact MovesOn.raise _ _
    · exact h

/-- A move of the transport lets the request go on. -/
theorem txMove_movesOn {s : State} (h : MovesOn s) : MovesOn (txMove s) := by
  have f := txMove_frame s
  intro hy
  obtain ⟨q, k, hq, h1, h2, hd, hs⟩ := h (by rw [← f.busy_eq]; exact hy)
  refine ⟨q, k, fun hq' => ?_, by rw [f.regs_eq]; exact h1, by rw [f.regs_eq]; exact h2, by rw [f.seq_eq]; exact hd,
    by rw [f.seq_eq]; exact hs⟩
  have := hq hq'
  simp [txMove, this, Transport.empty]

/-- A round of a pixel loop put in front of the loop reads inside the source if the loop does. -/
theorem sourced_loop {a b : Atom} {body rest : List Atom} {k : Bool × Bool} (hl : loopBody a = b :: body)
    (h : sourced (a :: rest) k = true) : sourced ((b :: body) ++ a :: rest) (k.2, k.2) = true := by
  rcases loopBody_cases a with hn | ⟨rfl, hn⟩ | ⟨rfl, hn⟩ <;> rw [hn] at hl <;> cases hl
  · simpa [sourced, Atom.readsInside, Atom.knownAfter, ByteSrc.readsSource] using h
  · have hk : k.2 = true := by simp only [sourced, Atom.readsInside, Bool.and_eq_true] at h; exact h.1
    simpa [sourced, Atom.readsInside, Atom.knownAfter, ByteSrc.readsSource, hk] using h

/-- And it is disciplined, from a transport in any state. -/
theorem disciplined_loop {a b : Atom} {body rest : List Atom} {q : Bool} (hl : loopBody a = b :: body)
    (h : disciplined (a :: rest) q = true) : disciplined ((b :: body) ++ a :: rest) false = true := by
  rcases loopBody_cases a with hn | ⟨rfl, hn⟩ | ⟨rfl, hn⟩ <;> rw [hn] at hl <;> cases hl <;>
    simpa [disciplined, Atom.needsIdle, Atom.idleAfter] using h

theorem effect_loop {a b : Atom} {body : List Atom} (hl : loopBody a = b :: body) (s : State) : a.effect s = s := by
  rcases loopBody_cases a with hn | ⟨rfl, hn⟩ | ⟨rfl, hn⟩
  · rw [hn] at hl; cases hl
  · rfl
  · rfl

/-- With what the list's walk claims, the next entry is not stopped (20_memory.md R68, 70_reset_and_hazards.md R266, R267). -/
theorem Atom.stop_none {a : Atom} {s : State} {q : Bool} {k : Bool × Bool} (hq : q = true → s.bus = Transport.empty)
    (h1 : k.1 = true → s.regs.idx.toNat < s.regs.src.length) (hd : (!a.needsIdle || q) = true)
    (hs : a.readsInside k = true) : a.stop s = none := by
  cases a with
  | send src =>
    simp only [Atom.readsInside, Bool.or_eq_true, Bool.not_eq_true'] at hs
    rcases hs with hs | hs
    · simp [Atom.stop, hs]
    · have := h1 hs
      simp [Atom.stop, this]
  | _ => simp_all [Atom.stop, bsy, Transport.empty, Atom.needsIdle]

/-- An entry leaves what the walk claims after it. -/
theorem effect_movesOn {a : Atom} {s : State} {q : Bool} {k : Bool × Bool} {l : List Atom} (hr : a.ready s = true)
    (hq : q = true → s.bus = Transport.empty) (h1 : k.1 = true → s.regs.idx.toNat < s.regs.src.length)
    (h2 : k.2 = true → s.regs.count.toNat ≤ s.regs.src.length) (hd : disciplined l (a.idleAfter q) = true)
    (hs : sourced l (a.knownAfter k) = true) :
    MovesOn (a.effect { s with seq := { s.seq with todo := l }, waits := 0 }) := by
  refine fun _ => ⟨a.idleAfter q, a.knownAfter k, ?_, ?_, ?_, ?_, ?_⟩
  · have hb : a = .awaitIdle → s.bus = Transport.empty := by
      rintro rfl
      exact bsy_eq_false.1 (by simpa [Atom.ready, Atom.waitsFor, WaitFor.met] using hr)
    cases a <;> simp_all [Atom.idleAfter, Atom.effect, driveSelect, driveDc, driveReset, holdFor, startBurst]
  · cases a <;> simp_all [Atom.knownAfter, Atom.effect, driveSelect, driveDc, driveReset, holdFor, enqueue]
  · cases a <;> simp_all [Atom.knownAfter, Atom.effect, driveSelect, driveDc, driveReset, holdFor, enqueue, startBurst, Nat.mod_le]
  · cases a <;> exact hd
  · cases a <;> exact hs

/-- A move of the sequencer is never stopped, and lets the request go on or ends it. -/
theorem seqMove_movesOn {s : State} (h : MovesOn s) : ∃ t, seqMove s = .next t ∧ MovesOn t := by
  unfold seqMove
  split
  · rename_i hy
    split
    · exact ⟨_, rfl, MovesOn.raise _ _⟩
    · rename_i a rest htodo
      split
      · rename_i hr
        obtain ⟨q, k, hq, h1, h2, hd, hs⟩ := h hy
        rw [htodo] at hd hs
        have hd' := hd
        have hs' := hs
        simp only [disciplined, sourced, Bool.and_eq_true] at hd' hs'
        rw [Atom.stop_none hq h1 hd'.1 hs'.1]
        refine ⟨_, rfl, ?_⟩
        unfold advance Atom.after
        split
        · exact effect_movesOn hr hq h1 h2 hd'.2 hs'.2
        · rename_i b body hl
          split
          · rename_i hi
            rw [effect_loop hl]
            exact fun _ => ⟨false, (k.2, k.2), by simp, fun hk => Nat.lt_of_lt_of_le hi (h2 hk), h2, disciplined_loop hl hd,
              sourced_loop hl hs⟩
          · exact effect_movesOn hr hq h1 h2 hd'.2 hs'.2
      · exact ⟨_, rfl, failedTest_movesOn h⟩
  · exact ⟨_, rfl, h⟩

end Sys2Proof.Machine
end

