-- ==== Sys2Proof/Laws/Sparse.lean ====
section
/-! SUPPORT. Sparse lists: read after write, and that a write keeps the canonical form. -/

namespace Sys2Proof.Machine

variable {α : Type}

theorem sparseGet_sparseSet_same (k : Nat) (v : α) (m : List (Nat × α)) : sparseGet k (sparseSet k v m) = some v := by
  induction m with
  | nil => simp [sparseSet, sparseGet]
  | cons h t ih =>
    obtain ⟨j, w⟩ := h
    simp only [sparseSet]
    split
    · simp [sparseGet]
    · split
      · simp [sparseGet]
      · rename_i h1 h2
        simp [sparseGet, h2, ih]

theorem sparseGet_sparseSet_other {j k : Nat} (h : j ≠ k) (v : α) (m : List (Nat × α)) :
    sparseGet j (sparseSet k v m) = sparseGet j m := by
  induction m with
  | nil => simp [sparseSet, sparseGet, h]
  | cons e t ih =>
    obtain ⟨i, w⟩ := e
    simp only [sparseSet]
    split
    · simp [sparseGet, h]
    · split
      · rename_i h1 h2
        subst h2
        simp [sparseGet, h]
      · simp [sparseGet, ih]

/-- A listed key of a written list is the written one or was listed before. -/
theorem mem_sparseSet {k : Nat} {v : α} {m : List (Nat × α)} {e : Nat × α} (h : e ∈ sparseSet k v m) :
    e = (k, v) ∨ e ∈ m := by
  induction m with
  | nil => simpa [sparseSet] using h
  | cons d t ih =>
    obtain ⟨j, w⟩ := d
    simp only [sparseSet] at h
    split at h
    · simpa using h
    · split at h
      · rcases List.mem_cons.1 h with h | h
        · exact .inl h
        · exact .inr (List.mem_cons_of_mem _ h)
      · rcases List.mem_cons.1 h with h | h
        · exact .inr (by simp [h])
        · rcases ih h with h | h
          · exact .inl h
          · exact .inr (List.mem_cons_of_mem _ h)

/-- A write keeps the keys strictly rising. -/
theorem sparseSet_pairwise (k : Nat) (v : α) {m : List (Nat × α)} (h : m.Pairwise (fun a b => a.1 < b.1)) :
    (sparseSet k v m).Pairwise (fun a b => a.1 < b.1) := by
  induction m with
  | nil => simp [sparseSet]
  | cons d t ih =>
    obtain ⟨j, w⟩ := d
    rw [List.pairwise_cons] at h
    simp only [sparseSet]
    split
    · rename_i hk
      refine List.pairwise_cons.2 ⟨?_, List.pairwise_cons.2 h⟩
      intro e he
      rcases List.mem_cons.1 he with rfl | he
      · exact hk
      · exact Nat.lt_trans hk (h.1 e he)
    · split
      · rename_i h1 h2
        subst h2
        exact List.pairwise_cons.2 h
      · rename_i h1 h2
        refine List.pairwise_cons.2 ⟨?_, ih h.2⟩
        intro e he
        rcases mem_sparseSet he with rfl | he
        · exact Nat.lt_of_le_of_ne (Nat.le_of_not_lt h1) (fun hh => h2 hh.symm)
        · exact h.1 e he

/-- Every memory operation keeps the canonical form of the frame memory. -/
theorem Memory.write_wf (m : Memory) (c p : Nat) (v : U16) (h : m.wf) : (m.write c p v).wf :=
  sparseSet_pairwise _ _ h

theorem Memory.nil_wf : Memory.wf [] := List.Pairwise.nil

/-- Different cells of the panel have different numbers (log 22). -/
theorem cellIndex_inj {c p d q : Nat} (hc : c < WIDTH) (hd : d < WIDTH) (h : cellIndex c p = cellIndex d q) :
    c = d ∧ p = q := by
  simp only [cellIndex, WIDTH] at *
  omega

theorem cellIndex_lt {c p : Nat} (hc : c < WIDTH) (hp : p < HEIGHT) : cellIndex c p < WIDTH * HEIGHT := by
  simp only [cellIndex, WIDTH, HEIGHT] at *
  omega

theorem Memory.read_write_same (m : Memory) (c p : Nat) (v : U16) : (m.write c p v).read c p = some v :=
  sparseGet_sparseSet_same _ _ _

theorem Memory.read_write_other (m : Memory) {c p d q : Nat} (v : U16) (hc : c < WIDTH) (hd : d < WIDTH)
    (h : ¬ (d = c ∧ q = p)) : (m.write c p v).read d q = m.read d q := by
  apply sparseGet_sparseSet_other
  intro hh
  exact h (cellIndex_inj hd hc hh)

theorem Panel.regOf_setReg_same (p : Panel) (o : Byte) (v : List Byte) : (p.setReg o v).regOf o = some v :=
  sparseGet_sparseSet_same _ _ _

theorem Panel.regOf_setReg_other (p : Panel) {o q : Byte} (h : q ≠ o) (v : List Byte) :
    (p.setReg o v).regOf q = p.regOf q :=
  sparseGet_sparseSet_other (fun hh => h (BitVec.eq_of_toNat_eq hh)) _ _

end Sys2Proof.Machine
end

