-- ==== Sys2Proof/Laws/Panel.lean ====
section
/-! SUPPORT. What runs of wire events do to the observer: an address command, the window bracket, a pixel, a run of pixels,
poison. -/

namespace Sys2Proof.Machine

variable {wrap : PanelWrap} {p : Panel}

@[simp] theorem Panel.feed_nil : p.feed wrap [] = p := rfl

@[simp] theorem Panel.feed_cons (e : Event) (es : List Event) :
    p.feed wrap (e :: es) = (p.onEvent wrap e).feed wrap es := rfl

@[simp] theorem Panel.onEvent_byte (d : Bool) (v : Byte) : p.onEvent wrap (.byte d v) = p.onByte wrap d v := rfl

@[simp] theorem Panel.onEvent_sel (b : Bool) : p.onEvent wrap (.sel b) = p.onSel b := rfl

@[simp] theorem Panel.onEvent_wait (t : Nat) : p.onEvent wrap (.wait t) = p.onWait t := rfl

@[simp] theorem Panel.onEvent_rst (b : Bool) : p.onEvent wrap (.rst b) = p.onRst b := rfl

/-- The observer hears bytes: it is not poisoned, owes no settling time and is selected. -/
abbrev Panel.listens (p : Panel) : Prop := p.ok = true ∧ p.settle = 0 ∧ p.sel = true

theorem Panel.onByte_command (h : p.listens) (o : Byte) : p.onByte wrap false o = p.onCommand o := by
  simp [Panel.onByte, h.1, h.2.1, h.2.2]

theorem Panel.onByte_data (h : p.listens) (v : Byte) : p.onByte wrap true v = p.onData wrap v := by
  simp [Panel.onByte, h.1, h.2.1, h.2.2]

-- ## Poison

/-- Poisoned, with no reset pulse under way. -/
abbrev Panel.silent (p : Panel) : Prop := p.ok = false ∧ p.pulse = .quiet

theorem Panel.silent_poison : p.poison.silent := ⟨rfl, rfl⟩

theorem Panel.silent_onEvent (h : p.silent) {e : Event} (he : e ≠ .rst false) : (p.onEvent wrap e).silent := by
  obtain ⟨h1, h2⟩ := h
  cases e with
  | cfg => exact ⟨h1, h2⟩
  | rst b =>
    cases b
    · exact absurd rfl he
    · simp [Panel.onEvent, Panel.onRst, Panel.silent, h2, h1]
  | sel b => cases b <;> simp [Panel.onEvent, Panel.onSel, Panel.silent, h1, h2]
  | dcset b => exact ⟨h1, h2⟩
  | tx v => exact ⟨h1, h2⟩
  | byte d v => simp [Panel.onEvent, Panel.onByte, h1, Panel.poison, Panel.silent]
  | idle => exact ⟨h1, h2⟩
  | wait t =>
    by_cases ht : t = 0 <;> simp [Panel.onEvent, Panel.onWait, Panel.silent, ht, h1, h2]

theorem Panel.silent_feed : ∀ (es : List Event) {p : Panel}, p.silent → .rst false ∉ es → (p.feed wrap es).silent
  | [], _, h, _ => h
  | e :: es, _, h, he =>
    Panel.silent_feed es (Panel.silent_onEvent h (fun hx => he (by simp [hx]))) (fun hx => he (by simp [hx]))

-- ## An address command

theorem sparseSet_twice {α : Type} (k : Nat) (v w : α) (m : List (Nat × α)) :
    sparseSet k w (sparseSet k v m) = sparseSet k w m := by
  induction m with
  | nil => simp [sparseSet]
  | cons c m ih =>
    obtain ⟨j, u⟩ := c
    simp only [sparseSet]
    split
    · simp [sparseSet]
    · split
      · rename_i h1 h2
        subst h2
        simp [sparseSet]
      · rename_i h1 h2
        simp [sparseSet, h1, h2, ih]

/-- A data byte of an address command joins the bytes its register holds. -/
theorem Panel.onData_range {o : Byte} (ho : o = OPC_CASET ∨ o = OPC_PASET) (vs : List Byte) (v : Byte) (hc : p.cmd = some o)
    (hr : sparseGet o.toNat p.reg = some vs) :
    p.onData wrap v = Panel.rangeByte o { p with npar := p.npar + 1, reg := sparseSet o.toNat (vs ++ [v]) p.reg } := by
  have h1 : o ≠ OPC_RAMWR := by rcases ho with rfl | rfl <;> decide
  have h2 : ¬(o = OPC_SLPOUT ∨ o = OPC_DISPON) := by rcases ho with rfl | rfl <;> decide
  simp [Panel.onData, hc, h1, h2, ho, Panel.regOf, hr, Panel.setReg]

/-- A column- or page-address-set heard whole: its four bytes are in `P_REG`, and its range is taken or poisons. -/
theorem Panel.feed_range {o : Byte} (ho : o = OPC_CASET ∨ o = OPC_PASET) (a b : U16) (h : p.listens)
    (hu : p.unfinished = false) :
    p.feed wrap (rangeWire o a b) =
      Panel.setRange o a b
        { p with
          cmd := some o, npar := 4, half := none, reg := sparseSet o.toNat [hi a, lo a, hi b, lo b] p.reg } := by
  obtain ⟨h1, h2, h3⟩ := h
  have hc : p.onByte wrap false o =
      { p with cmd := some o, npar := 0, half := none, reg := sparseSet o.toNat [] p.reg } := by
    rw [Panel.onByte_command ⟨h1, h2, h3⟩, Panel.onCommand, hu]
    rcases ho with rfl | rfl <;> rfl
  have hd : ∀ (n : Nat) (vs : List Byte) (v : Byte),
      Panel.onByte wrap true v
        { p with cmd := some o, npar := n, half := none, reg := sparseSet o.toNat vs p.reg } =
      Panel.rangeByte o
        { p with cmd := some o, npar := n + 1, half := none, reg := sparseSet o.toNat (vs ++ [v]) p.reg } := by
    intro n vs v
    simp only [Panel.onByte, h1, h2, h3]
    have e := Panel.onData_range (wrap := wrap)
      (p := { p with cmd := some o, npar := n, half := none, reg := sparseSet o.toNat vs p.reg }) ho vs v rfl
      (sparseGet_sparseSet_same _ _ _)
    simpa [sparseSet_twice, h1, h2, h3] using e
  have hs : ∀ (n : Nat) (vs : List Byte), n < 4 →
      Panel.rangeByte o { p with cmd := some o, npar := n, half := none, reg := sparseSet o.toNat vs p.reg } =
        { p with cmd := some o, npar := n, half := none, reg := sparseSet o.toNat vs p.reg } := by
    intro n vs hn
    simp [Panel.rangeByte, hn]
  simp only [rangeWire, parameterWire, commandWire, dataWire, List.map_cons, List.map_nil, List.cons_append,
    List.nil_append, Panel.feed_cons, Panel.feed_nil, Panel.onEvent_byte, hc]
  rw [hd, hs _ _ (by omega), hd, hs _ _ (by omega), hd, hs _ _ (by omega), hd]
  have e : ({ p with
      cmd := some o, npar := 4, half := none, reg := sparseSet o.toNat [hi a, lo a, hi b, lo b] p.reg } : Panel).regOf o =
      some [hi a, lo a, hi b, lo b] := sparseGet_sparseSet_same _ _ _
  simp [Panel.rangeByte, e]

-- ## The window bracket

theorem Panel.onSel_false (h : p.pulse = .quiet) : p.onSel false = { p with sel := true } := by simp [Panel.onSel, h]

theorem Panel.takesPixels_of_regs {q : Panel} (h1 : q.regOf OPC_PIXFMT = p.regOf OPC_PIXFMT)
    (h2 : q.regOf OPC_MADCTL = p.regOf OPC_MADCTL) (h3 : q.sleepOut = p.sleepOut) : q.takesPixels = p.takesPixels := by
  simp [Panel.takesPixels, h1, h2, h3]

/-- The registers after the two ranges of a window were heard. -/
abbrev windowRegs (x0 y0 x1 y1 : U16) (m : List (Nat × List Byte)) : List (Nat × List Byte) :=
  sparseSet OPC_PASET.toNat [hi y0, lo y0, hi y1, lo y1] (sparseSet OPC_CASET.toNat [hi x0, lo x0, hi x1, lo x1] m)

/-- The observer after a selected column-address-set whose range it took. -/
abbrev Panel.columnsTaken (p : Panel) (x0 x1 : U16) : Panel :=
  { p with
    sel := true, cmd := some OPC_CASET, npar := 4, half := none,
    reg := sparseSet OPC_CASET.toNat [hi x0, lo x0, hi x1, lo x1] p.reg, sc := some x0, ec := some x1, ptr := .unspecified }

/-- The window bracket with its preconditions met (43_window.md R174). -/
theorem Panel.feed_window {x0 y0 x1 y1 : U16} (h : p.ok = true) (hs : p.settle = 0) (hq : p.pulse = .quiet)
    (hu : p.unfinished = false) (hx : x0.toNat ≤ x1.toNat ∧ x1.toNat < WIDTH) (hy : y0.toNat ≤ y1.toNat ∧ y1.toNat < HEIGHT) :
    p.feed wrap (windowWire x0 y0 x1 y1) =
      { p with
        cmd := some OPC_RAMWR, npar := 0, half := none, sel := false, sc := some x0, ec := some x1, sp := some y0,
        ep := some y1, ptr := .cell x0 y0, reg := windowRegs x0 y0 x1 y1 p.reg } := by
  simp only [windowWire, Panel.feed_append, Panel.feed_cons, Panel.feed_nil, Panel.onEvent_sel, Panel.onSel_false hq]
  rw [Panel.feed_range (p := { p with sel := true }) (.inl rfl) x0 x1 ⟨h, hs, rfl⟩ hu]
  rw [Panel.setRange, if_pos rfl, if_pos hx]
  rw [Panel.feed_range (p := p.columnsTaken x0 x1) (.inr rfl) y0 y1 ⟨h, hs, rfl⟩
    (by simp [Panel.unfinished, OPC_CASET, OPC_RAMWR])]
  rw [Panel.setRange, if_neg (by decide), if_pos hy]
  simp [commandWire, Panel.onByte, h, hs, Panel.onCommand, Panel.unfinished, Panel.openCommand, Panel.onSel, OPC_CASET,
    OPC_PASET, OPC_RAMWR, OPC_SLPOUT, OPC_DISPON, windowRegs]

/-- The window bracket with a precondition violated (43_window.md R175). -/
theorem Panel.feed_window_bad {x0 y0 x1 y1 : U16} (h : p.ok = true) (hs : p.settle = 0) (hq : p.pulse = .quiet)
    (hu : p.unfinished = false)
    (hb : ¬((x0.toNat ≤ x1.toNat ∧ x1.toNat < WIDTH) ∧ y0.toNat ≤ y1.toNat ∧ y1.toNat < HEIGHT)) :
    (p.feed wrap (windowWire x0 y0 x1 y1)).silent := by
  have hno : ∀ o a b, Event.rst false ∉ rangeWire o a b := by
    intro o a b
    simp [rangeWire, parameterWire, commandWire, dataWire]
  simp only [windowWire, Panel.feed_append, Panel.feed_cons, Panel.feed_nil, Panel.onEvent_sel, Panel.onSel_false hq]
  rw [Panel.feed_range (p := { p with sel := true }) (.inl rfl) x0 x1 ⟨h, hs, rfl⟩ hu]
  by_cases hx : x0.toNat ≤ x1.toNat ∧ x1.toNat < WIDTH
  · rw [Panel.setRange, if_pos rfl, if_pos hx]
    rw [Panel.feed_range (p := p.columnsTaken x0 x1) (.inr rfl) y0 y1 ⟨h, hs, rfl⟩
      (by simp [Panel.unfinished, OPC_CASET, OPC_RAMWR])]
    rw [Panel.setRange, if_neg (by decide), if_neg (fun hy => hb ⟨hx, hy⟩)]
    exact Panel.silent_feed (wrap := wrap) [.byte false OPC_RAMWR, .sel true] Panel.silent_poison (by simp)
  · rw [Panel.setRange, if_pos rfl, if_neg hx]
    have h1 := Panel.silent_feed (wrap := wrap) _ (Panel.silent_poison (p := { p with
      sel := true, cmd := some OPC_CASET, npar := 4, half := none,
      reg := sparseSet OPC_CASET.toNat [hi x0, lo x0, hi x1, lo x1] p.reg })) (hno OPC_PASET y0 y1)
    exact Panel.silent_feed (wrap := wrap) [.byte false OPC_RAMWR, .sel true] h1 (by simp)

-- ## Pixels

/-- The observer takes pixels into the window `(x0, y0, x1, y1)`, with no half pixel pending. -/
structure Panel.Writes (p : Panel) (x0 y0 x1 y1 : U16) : Prop where
  listens : p.listens
  cmd : p.cmd = some OPC_RAMWR
  half : p.half = none
  takes : p.takesPixels = true
  sc : p.sc = some x0
  ec : p.ec = some x1
  sp : p.sp = some y0
  ep : p.ep = some y1

/-- The two bytes of a pixel are one pixel put (46_panel_observer.md R211). -/
theorem Panel.feed_pixelBytes {x0 y0 x1 y1 : U16} (h : p.Writes x0 y0 x1 y1) (v : U16) :
    p.feed wrap (pixelWire v) = Panel.putPixel wrap v { p with half := none } := by
  obtain ⟨⟨h1, h2, h3⟩, hc, hh, ht, hsc, hec, hsp, hep⟩ := h
  have e1 : p.onByte wrap true (hi v) = { p with half := some (hi v) } := by
    rw [Panel.onByte_data ⟨h1, h2, h3⟩]
    simp [Panel.onData, hc, Panel.pixelByte, ht, hh]
  have ht' := ht
  simp only [Panel.takesPixels, Panel.regOf, Bool.and_eq_true, beq_iff_eq] at ht'
  have e2 : Panel.onByte wrap true (lo v) { p with half := some (hi v) } =
      Panel.putPixel wrap v { p with half := none } := by
    simp [Panel.onByte, h1, h2, h3, Panel.onData, hc, Panel.pixelByte, Panel.takesPixels, Panel.regOf, ht']
  simp only [pixelWire, dataWire, List.map_cons, List.map_nil, Panel.feed_cons, Panel.feed_nil, Panel.onEvent_byte, e1, e2]

/-- One pixel lands at the write pointer, and the pointer goes on. -/
theorem Panel.feed_pixel {x0 y0 x1 y1 c r : U16} (h : p.Writes x0 y0 x1 y1) (hp : p.ptr = .cell c r) (v : U16) :
    p.feed wrap (pixelWire v) =
      { p with gram := p.gram.write c.toNat r.toNat v, ptr := nextCell x0 x1 y1 c r } := by
  rw [Panel.feed_pixelBytes h]
  simp [Panel.putPixel, Panel.target, hp, h.sc, h.ec, h.ep, h.half]

/-- A pixel past the window's end poisons where the document says nothing of it (46_panel_observer.md R213 (c)). -/
theorem Panel.feed_pixel_overflow {x0 y0 x1 y1 : U16} (h : p.Writes x0 y0 x1 y1) (hp : p.ptr = .pastEnd) (v : U16) :
    p.feed .unspecified (pixelWire v) = p.poison := by
  rw [Panel.feed_pixelBytes h]
  simp [Panel.putPixel, Panel.target, hp, Panel.poison]

/-- With `WRAP_TO_WINDOW_START` it lands at the window's first cell (46_panel_observer.md R213 (c)). -/
theorem Panel.feed_pixel_wrap {x0 y0 x1 y1 : U16} (h : p.Writes x0 y0 x1 y1) (hp : p.ptr = .pastEnd) (v : U16) :
    p.feed .wrapToWindowStart (pixelWire v) =
      { p with gram := p.gram.write x0.toNat y0.toNat v, ptr := nextCell x0 x1 y1 x0 y0 } := by
  rw [Panel.feed_pixelBytes h]
  simp [Panel.putPixel, Panel.target, hp, h.sc, h.ec, h.sp, h.ep, h.half]

/-- The `k`-th place of a window in scan order, or past its end. -/
def scanPtr (x0 y0 x1 y1 : U16) (k : Nat) : PixelPtr :=
  let w := x1.toNat - x0.toNat + 1
  if k < w * (y1.toNat - y0.toNat + 1) then .cell (BitVec.ofNat 16 (x0.toNat + k % w)) (BitVec.ofNat 16 (y0.toNat + k / w))
  else .pastEnd

/-- The place after the `k`-th is the `k + 1`-th. -/
theorem nextCell_scan {x0 y0 x1 y1 : U16} {k : Nat} (hx : x0.toNat ≤ x1.toNat) (hy : y0.toNat ≤ y1.toNat)
    (hk : k < (x1.toNat - x0.toNat + 1) * (y1.toNat - y0.toNat + 1)) :
    nextCell x0 x1 y1 (BitVec.ofNat 16 (x0.toNat + k % (x1.toNat - x0.toNat + 1)))
      (BitVec.ofNat 16 (y0.toNat + k / (x1.toNat - x0.toNat + 1))) = scanPtr x0 y0 x1 y1 (k + 1) := by
  have b0 := x0.isLt
  have b1 := x1.isLt
  have c0 := y0.isLt
  have c1 := y1.isLt
  generalize hw : x1.toNat - x0.toNat + 1 = w at hk ⊢
  generalize hh : y1.toNat - y0.toNat + 1 = h at hk ⊢
  have hw0 : 0 < w := by omega
  have hm : k % w < w := Nat.mod_lt _ hw0
  have hd : k / w < h := Nat.div_lt_of_lt_mul hk
  have hs : k = w * (k / w) + k % w := (Nat.div_add_mod k w).symm
  have t1 : (BitVec.ofNat 16 (x0.toNat + k % w)).toNat = x0.toNat + k % w := by simp; omega
  have t2 : (BitVec.ofNat 16 (y0.toNat + k / w)).toNat = y0.toNat + k / w := by simp; omega
  simp only [nextCell, scanPtr, t1, t2, hw, hh]
  by_cases h1 : k % w + 1 < w
  · rw [if_pos (by omega)]
    have hq : (k + 1) / w = k / w := by
      rw [show k + 1 = w * (k / w) + (k % w + 1) by omega, Nat.mul_add_div hw0, Nat.div_eq_of_lt h1, Nat.add_zero]
    have hr : (k + 1) % w = k % w + 1 := by
      have := Nat.div_add_mod (k + 1) w
      rw [hq] at this
      omega
    have hlt : k + 1 < w * h := by
      have : w * (k / w + 1) ≤ w * h := Nat.mul_le_mul_left _ hd
      rw [Nat.mul_add] at this
      omega
    rw [if_pos hlt, hq, hr]
    congr 1
    apply BitVec.eq_of_toNat_eq
    simp
    omega
  · rw [if_neg (by omega)]
    have he : k + 1 = w * (k / w + 1) := by rw [Nat.mul_add]; omega
    have hq : (k + 1) / w = k / w + 1 := by rw [he, Nat.mul_div_cancel_left _ hw0]
    have hr : (k + 1) % w = 0 := by rw [he, Nat.mul_mod_right]
    by_cases h2 : k / w + 1 < h
    · have hlt : k + 1 < w * h := by rw [he]; exact Nat.mul_lt_mul_of_pos_left h2 hw0
      rw [if_pos (by omega), if_pos hlt, hq, hr]
      congr 1
      · apply BitVec.eq_of_toNat_eq; simp
      · apply BitVec.eq_of_toNat_eq; simp; omega
    · have : ¬(k + 1 < w * h) := by
        rw [he]
        intro hc
        exact h2 (Nat.lt_of_mul_lt_mul_left hc)
      rw [if_neg (by omega), if_neg this]

/-- A run of pixels from the `k`-th place on, no more than the window has left (20_memory.md R69). -/
theorem Panel.feed_pixels {x0 y0 x1 y1 : U16} (hx : x0.toNat ≤ x1.toNat ∧ x1.toNat < WIDTH)
    (hy : y0.toNat ≤ y1.toNat ∧ y1.toNat < HEIGHT) :
    ∀ (px : List U16) (k : Nat) (p : Panel), p.Writes x0 y0 x1 y1 → p.ptr = scanPtr x0 y0 x1 y1 k →
      k + px.length ≤ (x1.toNat - x0.toNat + 1) * (y1.toNat - y0.toNat + 1) →
      ∃ g, p.feed wrap (px.flatMap pixelWire) = { p with gram := g, ptr := scanPtr x0 y0 x1 y1 (k + px.length) } ∧
        (∀ n v, px[n]? = some v →
          g.read (x0.toNat + (k + n) % (x1.toNat - x0.toNat + 1)) (y0.toNat + (k + n) / (x1.toNat - x0.toNat + 1)) =
            some v) ∧
        (∀ c r, c < WIDTH →
          (∀ n, n < px.length → ¬(c = x0.toNat + (k + n) % (x1.toNat - x0.toNat + 1) ∧
            r = y0.toNat + (k + n) / (x1.toNat - x0.toNat + 1))) → g.read c r = p.gram.read c r)
  | [], k, p, _, hp, _ => ⟨p.gram, by simp [← hp], by simp, fun _ _ _ _ => rfl⟩
  | v :: px, k, p, h, hp, hk => by
    have hx1 := hx.2
    have hy1 := hy.2
    simp only [WIDTH, HEIGHT] at hx1 hy1
    have hlen : (v :: px).length = px.length + 1 := rfl
    generalize hw : x1.toNat - x0.toNat + 1 = w at hk ⊢
    generalize hh : y1.toNat - y0.toNat + 1 = hgt at hk ⊢
    have hlt : k < w * hgt := by rw [hlen] at hk; omega
    have hw0 : 0 < w := by omega
    have hm : k % w < w := Nat.mod_lt _ hw0
    have hd : k / w < hgt := Nat.div_lt_of_lt_mul hlt
    have hp' : p.ptr = .cell (BitVec.ofNat 16 (x0.toNat + k % w)) (BitVec.ofNat 16 (y0.toNat + k / w)) := by
      rw [hp, scanPtr, hw, hh]
      exact if_pos hlt
    have t1 : (BitVec.ofNat 16 (x0.toNat + k % w)).toNat = x0.toNat + k % w := by simp; omega
    have t2 : (BitVec.ofNat 16 (y0.toNat + k / w)).toNat = y0.toNat + k / w := by simp; omega
    have hn := nextCell_scan (k := k) hx.1 hy.1 (by rw [hw, hh]; exact hlt)
    rw [hw] at hn
    have e := Panel.feed_pixel (wrap := wrap) h hp' v
    rw [t1, t2, hn] at e
    obtain ⟨g, hg, hset, hoth⟩ := Panel.feed_pixels hx hy px (k + 1)
      { p with gram := p.gram.write (x0.toNat + k % w) (y0.toNat + k / w) v, ptr := scanPtr x0 y0 x1 y1 (k + 1) }
      ⟨h.listens, h.cmd, h.half, h.takes, h.sc, h.ec, h.sp, h.ep⟩ rfl (by rw [hw, hh]; rw [hlen] at hk; omega)
    rw [hw] at hset hoth
    have hcol : x0.toNat + k % w < WIDTH := by simp only [WIDTH]; omega
    refine ⟨g, ?_, ?_, ?_⟩
    · rw [List.flatMap_cons, Panel.feed_append, e, hg, hlen]
      congr 2
      omega
    · intro n u hnu
      cases n with
      | zero =>
        simp only [List.getElem?_cons_zero, Option.some.injEq] at hnu
        subst hnu
        rw [Nat.add_zero, hoth _ _ hcol, Memory.read_write_same]
        intro n hn' hc
        have hinj : k + 1 + n = k := by
          have h1 : (k + 1 + n) % w = k % w := by omega
          have h2 : (k + 1 + n) / w = k / w := by omega
          have a1 := Nat.div_add_mod (k + 1 + n) w
          have a2 := Nat.div_add_mod k w
          rw [h1, h2] at a1
          omega
        omega
      | succ n =>
        simp only [List.getElem?_cons_succ] at hnu
        have := hset n u hnu
        rw [show k + (n + 1) = k + 1 + n by omega]
        exact this
    · intro c r hc hno
      rw [hoth c r hc, Memory.read_write_other _ _ hcol hc]
      · have := hno 0 (by rw [hlen]; omega)
        simpa using this
      · intro n hn'
        have := hno (n + 1) (by rw [hlen]; omega)
        rwa [show k + (n + 1) = k + 1 + n by omega] at this

end Sys2Proof.Machine
end

