-- ==== Sys2Proof/Laws/Observer.lean ====
section
/-! SUPPORT. Whole commands, the reset pulse, a window and a stream as the observer hears them, and what every event keeps
of it. -/

namespace Sys2Proof.Machine

variable {wrap : PanelWrap} {p : Panel}

-- ## Whole commands

/-- The opcodes whose data bytes are only kept. -/
def keepsParameters (o : Byte) : Bool :=
  [OPC_IFMODE, OPC_PIXFMT, OPC_MADCTL, OPC_PWCTR3, OPC_VMCTR, OPC_PGAMMA, OPC_NGAMMA].contains o

theorem keepsParameters_ne {o : Byte} (h : keepsParameters o = true) :
    wireOpcodes.contains o = true ∧ o ≠ OPC_SLPOUT ∧ o ≠ OPC_DISPON ∧ o ≠ OPC_RAMWR ∧ o ≠ OPC_CASET ∧ o ≠ OPC_PASET := by
  simp only [keepsParameters, List.contains_iff_mem, List.mem_cons, List.not_mem_nil, or_false] at h
  rcases h with rfl | rfl | rfl | rfl | rfl | rfl | rfl <;> decide

theorem Panel.feed_dataBytes {o : Byte} (ho : keepsParameters o = true) :
    ∀ (vs us : List Byte) (p : Panel), p.listens → p.cmd = some o → sparseGet o.toNat p.reg = some us →
      p.feed wrap (dataWire vs) =
        if vs = [] then p else { p with npar := p.npar + vs.length, reg := sparseSet o.toNat (us ++ vs) p.reg }
  | [], _, _, _, _, _ => by simp [dataWire]
  | v :: vs, us, p, h, hc, hr => by
    obtain ⟨_, n1, n2, n3, n4, n5⟩ := keepsParameters_ne ho
    obtain ⟨h1, h2, h3⟩ := h
    have e : p.onByte wrap true v = { p with npar := p.npar + 1, reg := sparseSet o.toNat (us ++ [v]) p.reg } := by
      rw [Panel.onByte_data ⟨h1, h2, h3⟩]
      simp [Panel.onData, hc, n1, n2, n3, n4, n5, Panel.setReg, Panel.regOf, hr]
    have ih := Panel.feed_dataBytes ho vs (us ++ [v])
      { p with npar := p.npar + 1, reg := sparseSet o.toNat (us ++ [v]) p.reg } ⟨h1, h2, h3⟩ hc (sparseGet_sparseSet_same _ _ _)
    simp only [dataWire, List.map_cons, Panel.feed_cons, Panel.onEvent_byte, e] at ih ⊢
    rw [ih]
    rcases vs with _ | ⟨w, vs⟩
    · simp
    · simp [sparseSet_twice]; omega

/-- A command whose parameters are only kept, heard whole. -/
theorem Panel.feed_parameters {o : Byte} (ho : keepsParameters o = true) (vs : List Byte) (h : p.listens) (hu : p.unfinished = false) :
    p.feed wrap (parameterWire o vs) =
      { p with cmd := some o, npar := vs.length, half := none, reg := sparseSet o.toNat vs p.reg } := by
  obtain ⟨h0, n1, n2, n3, n4, n5⟩ := keepsParameters_ne ho
  have e : p.onByte wrap false o = { p with cmd := some o, npar := 0, half := none, reg := sparseSet o.toNat [] p.reg } := by
    rw [Panel.onByte_command h, Panel.onCommand, hu]
    rw [Panel.openCommand, if_neg n1, if_neg n2, if_neg n3, if_pos h0]
    rfl
  simp only [parameterWire, commandWire, List.cons_append, List.nil_append, Panel.feed_cons, Panel.onEvent_byte, e]
  rw [Panel.feed_dataBytes ho vs [] { p with cmd := some o, npar := 0, half := none, reg := sparseSet o.toNat [] p.reg }
    ⟨h.1, h.2.1, h.2.2⟩ rfl (sparseGet_sparseSet_same _ _ _)]
  rcases vs with _ | ⟨v, vs⟩
  · simp
  · simp [sparseSet_twice]

/-- Sleep-out and a long enough settling time. -/
theorem Panel.feed_slpout {t : Nat} (h : p.listens) (hu : p.unfinished = false) (ht : SETTLE_TIME ≤ t) (hq : p.pulse = .quiet) :
    p.feed wrap [.byte false 0x11, .wait t] = { p with cmd := some 0x11, npar := 0, half := none, sleepOut := true, settle := 0 } := by
  have ht' : t ≠ 0 := by simp only [SETTLE_TIME] at ht; omega
  simp only [Panel.feed_cons, Panel.feed_nil, Panel.onEvent_byte, Panel.onByte_command h, Panel.onCommand, hu, Panel.onEvent_wait]
  simp [Panel.openCommand, OPC_SLPOUT, Panel.onWait, ht', hq, ht]

/-- Display-on and a long enough settling time. -/
theorem Panel.feed_dispon {t : Nat} (h : p.listens) (hu : p.unfinished = false) (ht : SETTLE_TIME ≤ t) (hq : p.pulse = .quiet) :
    p.feed wrap [.byte false 0x29, .wait t] = { p with cmd := some 0x29, npar := 0, half := none, displayOn := true, settle := 0 } := by
  have ht' : t ≠ 0 := by simp only [SETTLE_TIME] at ht; omega
  simp only [Panel.feed_cons, Panel.feed_nil, Panel.onEvent_byte, Panel.onByte_command h, Panel.onCommand, hu, Panel.onEvent_wait]
  simp [Panel.openCommand, OPC_SLPOUT, OPC_DISPON, Panel.onWait, ht', hq, ht]

/-- The observer right after a complete hardware reset pulse (46_panel_observer.md R202). -/
def Panel.fresh (npar : Nat) (sel : Bool) (poisons : Nat) : Panel :=
  { Panel.initial with ok := true, npar := npar, sel := sel, poisons := poisons }

/-- A hardware reset pulse with its holds, heard whole. -/
theorem Panel.feed_resetPulse {c : Config} (h1 : 0 < c.tRstLow) (h2 : 0 < c.tRstPost) (hs : p.settle = 0) :
    p.feed wrap (resetPulseWire c) = Panel.fresh p.npar p.sel p.poisons := by
  have h1' : c.tRstLow ≠ 0 := by omega
  have h2' : c.tRstPost ≠ 0 := by omega
  have key : ∀ q : Panel, q.settle = 0 → q.feed wrap [.rst false, .wait c.tRstLow, .rst true, .wait c.tRstPost] =
      Panel.fresh q.npar q.sel q.poisons := by
    intro q hq
    simp [Panel.onRst, Panel.onWait, h1', h2', hq, Panel.fresh, Panel.initial]
  have hq : ∀ q : Panel, q.settle = 0 → ((q.onRst true).onWait c.tRstPre).settle = 0 ∧ ((q.onRst true).onWait c.tRstPre).npar = q.npar ∧
      ((q.onRst true).onWait c.tRstPre).sel = q.sel ∧ ((q.onRst true).onWait c.tRstPre).poisons = q.poisons := by
    intro q hq
    by_cases ht : c.tRstPre = 0 <;> cases hp : q.pulse <;> simp [Panel.onRst, Panel.onWait, hp, ht, hq]
  obtain ⟨k1, k2, k3, k4⟩ := hq p hs
  have : resetPulseWire c = [.rst true, .wait c.tRstPre] ++ [.rst false, .wait c.tRstLow, .rst true, .wait c.tRstPost] := rfl
  rw [this, Panel.feed_append]
  show Panel.feed wrap ((p.onRst true).onWait c.tRstPre) _ = _
  rw [key _ k1, k2, k3, k4]

-- ## A window and a stream

/-- A ready observer is armed at a window's first cell by the window bracket, and stays ready (43_window.md R174). -/
theorem Panel.ready_window {x0 y0 x1 y1 : U16} (h : PanelReady p) (hx : x0.toNat ≤ x1.toNat ∧ x1.toNat < WIDTH)
    (hy : y0.toNat ≤ y1.toNat ∧ y1.toNat < HEIGHT) :
    let q := p.feed wrap (windowWire x0 y0 x1 y1)
    PanelReady q ∧ q.armedAt x0 y0 x1 y1 x0 y0 ∧ q.gram = p.gram := by
  obtain ⟨h1, h2, h3, h4, h5, h6⟩ := h
  intro q
  have e : q = _ := Panel.feed_window (wrap := wrap) h1 h2 h3 h4 hx hy
  rw [e]
  refine ⟨⟨h1, h2, h3, rfl, ?_, h6⟩, ⟨h1, rfl, rfl, rfl, rfl, rfl, rfl, rfl⟩, rfl⟩
  rw [← h5]
  apply Panel.takesPixels_of_regs
  · simp only [Panel.regOf]
    rw [sparseGet_sparseSet_other (by decide), sparseGet_sparseSet_other (by decide)]
  · simp only [Panel.regOf]
    rw [sparseGet_sparseSet_other (by decide), sparseGet_sparseSet_other (by decide)]
  · rfl

/-- A stream into a window armed at its first cell, no longer than the window's area (46_panel_observer.md R217 (c)). -/
theorem Panel.feed_stream {x0 y0 x1 y1 : U16} {px : List U16} (h : PanelReady p) (ha : p.armedAt x0 y0 x1 y1 x0 y0)
    (hx : x0.toNat ≤ x1.toNat ∧ x1.toNat < WIDTH) (hy : y0.toNat ≤ y1.toNat ∧ y1.toNat < HEIGHT)
    (hl : px.length ≤ (x1.toNat - x0.toNat + 1) * (y1.toNat - y0.toNat + 1)) :
    let q := p.feed wrap (streamWire px)
    PanelReady q ∧ q.ptr = scanPtr x0 y0 x1 y1 px.length ∧
      (∀ n v, px[n]? = some v →
        q.gram.read (x0.toNat + n % (x1.toNat - x0.toNat + 1)) (y0.toNat + n / (x1.toNat - x0.toNat + 1)) = some v) ∧
      (∀ c r, c < WIDTH →
        (∀ n, n < px.length → ¬(c = x0.toNat + n % (x1.toNat - x0.toNat + 1) ∧
          r = y0.toNat + n / (x1.toNat - x0.toNat + 1))) → q.gram.read c r = p.gram.read c r) := by
  obtain ⟨h1, h2, h3, h4, h5, h6⟩ := h
  obtain ⟨a1, a2, a3, a4, a5, a6, a7, a8⟩ := ha
  have hs0 : scanPtr x0 y0 x1 y1 0 = .cell x0 y0 := by
    rw [scanPtr, if_pos (Nat.mul_pos (by omega) (by omega))]
    simp
  obtain ⟨g, hg, hset, hoth⟩ := Panel.feed_pixels (wrap := wrap) hx hy px 0 { p with sel := true } ⟨⟨h1, h2, rfl⟩, a6, a8, h5, a2, a3, a4, a5⟩
    (by rw [hs0]; exact a7) (by omega)
  simp only [Nat.zero_add] at hset hoth hg
  intro q
  have e : q = { p with gram := g, ptr := scanPtr x0 y0 x1 y1 px.length, sel := false } := by
    show p.feed wrap (streamWire px) = _
    rw [streamWire, Panel.feed_append, Panel.feed_append]
    simp only [Panel.feed_cons, Panel.feed_nil, Panel.onEvent_sel, Panel.onSel_false h3, hg]
    rfl
  rw [e]
  exact ⟨⟨h1, h2, h3, h4, h5, h6⟩, rfl, hset, hoth⟩

/-- A stream longer than the window's area poisons where the document says nothing of it (46_panel_observer.md R213 (c)). -/
theorem Panel.feed_stream_overflow {x0 y0 x1 y1 : U16} {px : List U16} (h : PanelReady p)
    (ha : p.armedAt x0 y0 x1 y1 x0 y0) (hx : x0.toNat ≤ x1.toNat ∧ x1.toNat < WIDTH)
    (hy : y0.toNat ≤ y1.toNat ∧ y1.toNat < HEIGHT)
    (hl : (x1.toNat - x0.toNat + 1) * (y1.toNat - y0.toNat + 1) < px.length) :
    (p.feed .unspecified (streamWire px)).silent := by
  obtain ⟨h1, h2, h3, h4, h5, h6⟩ := h
  obtain ⟨a1, a2, a3, a4, a5, a6, a7, a8⟩ := ha
  generalize hn : (x1.toNat - x0.toNat + 1) * (y1.toNat - y0.toNat + 1) = n at hl
  have hw : Panel.Writes { p with sel := true } x0 y0 x1 y1 := ⟨⟨h1, h2, rfl⟩, a6, a8, h5, a2, a3, a4, a5⟩
  have hs0 : scanPtr x0 y0 x1 y1 0 = .cell x0 y0 := by
    rw [scanPtr, if_pos (Nat.mul_pos (by omega) (by omega))]
    simp
  obtain ⟨g, hg, -, -⟩ := Panel.feed_pixels (wrap := .unspecified) hx hy (px.take n) 0 { p with sel := true } hw
    (by rw [hs0]; exact a7) (by rw [hn, List.length_take]; omega)
  have hlen : 0 + (px.take n).length = n := by rw [List.length_take]; omega
  rw [hlen] at hg
  have hend : scanPtr x0 y0 x1 y1 n = .pastEnd := by simp only [scanPtr, hn, Nat.lt_irrefl, if_false]
  obtain ⟨v, rest, hd⟩ : ∃ v rest, px.drop n = v :: rest := by
    cases hd : px.drop n with
    | nil => have := congrArg List.length hd; simp at this; omega
    | cons v rest => exact ⟨v, rest, rfl⟩
  have e : px.flatMap pixelWire = (px.take n).flatMap pixelWire ++ (pixelWire v ++ rest.flatMap pixelWire) := by
    rw [← List.flatMap_cons, ← hd, ← List.flatMap_append, List.take_append_drop]
  rw [streamWire, Panel.feed_append, Panel.feed_append, e, Panel.feed_append, Panel.feed_append]
  simp only [Panel.feed_cons, Panel.feed_nil, Panel.onEvent_sel, Panel.onSel_false h3]
  have hno : Event.rst false ∉ rest.flatMap pixelWire := by simp [pixelWire, dataWire]
  have hk : Panel.Writes { p with sel := true, gram := g, ptr := scanPtr x0 y0 x1 y1 n } x0 y0 x1 y1 :=
    ⟨⟨h1, h2, rfl⟩, a6, a8, h5, a2, a3, a4, a5⟩
  rw [hg, Panel.feed_pixel_overflow hk hend]
  exact Panel.silent_onEvent (wrap := .unspecified) (e := .sel true)
    (Panel.silent_feed _ Panel.silent_poison hno) (by simp)

-- ## What every event keeps

/-- A byte that does not poison leaves the select level as it is, and no byte starts a reset pulse
(46_panel_observer.md R202, R214, R216). -/
theorem Panel.onByte_lines (d : Bool) (v : Byte) (wrap : PanelWrap) (p : Panel) :
    ((p.onByte wrap d v).ok = true → (p.onByte wrap d v).sel = p.sel) ∧
      (p.pulse = .quiet → (p.onByte wrap d v).pulse = .quiet) := by
  have hp : ∀ q r : Panel, (q.poison.ok = true → q.poison.sel = r.sel) ∧ (r.pulse = .quiet → q.poison.pulse = .quiet) :=
    fun q r => ⟨fun h => by simp [Panel.poison] at h, fun _ => rfl⟩
  have hr : ∀ (o : Byte) (q : Panel), ((q.rangeByte o).ok = true → (q.rangeByte o).sel = q.sel) ∧
      (q.pulse = .quiet → (q.rangeByte o).pulse = .quiet) := by
    intro o q
    unfold Panel.rangeByte
    split
    · exact ⟨fun _ => rfl, id⟩
    · split
      · unfold Panel.setRange
        split <;> split <;> first | exact hp _ _ | exact ⟨fun _ => rfl, id⟩
      · exact hp _ _
  unfold Panel.onByte
  split
  · exact hp _ _
  split
  · exact hp _ _
  split
  · exact ⟨fun _ => rfl, id⟩
  split
  · unfold Panel.onData
    split
    · exact hp _ _
    split
    · unfold Panel.pixelByte
      split
      · split
        · exact ⟨fun _ => rfl, id⟩
        · unfold Panel.putPixel
          split <;> first | exact hp _ _ | exact ⟨fun _ => rfl, id⟩
      · exact hp _ _
    split
    · exact hp _ _
    · dsimp only
      split
      · exact hr _ _
      · exact ⟨fun _ => rfl, id⟩
  · unfold Panel.onCommand
    split
    · exact hp _ _
    · unfold Panel.openCommand
      split
      · exact ⟨fun _ => rfl, id⟩
      split
      · exact ⟨fun _ => rfl, id⟩
      split
      · split <;> first | exact hp _ _ | exact ⟨fun _ => rfl, id⟩
      split <;> first | exact hp _ _ | exact ⟨fun _ => rfl, id⟩

/-- A byte that comes while nothing is claimed poisons, whatever the select level (46_panel_observer.md R219). -/
theorem Panel.onByte_unclaimed (h : p.ok = false) (d : Bool) (v : Byte) (b : Bool) :
    Panel.onByte wrap d v { p with sel := b } = p.poison := by
  simp [Panel.onByte, h, Panel.poison]

/-- While the observer claims and the display is on, the picture is the frame memory (46_panel_observer.md R215). -/
theorem Panel.picture_shown (h : p.ok = true) (hd : p.displayOn = true) {c r : Nat} (hc : c < WIDTH) (hr : r < HEIGHT) :
    p.picture c r = p.gram.read c r := by
  simp [Panel.picture, h, hd, hc, hr]

/-- An observer that claims nothing shows nothing (46_panel_observer.md R215, R216). -/
theorem Panel.picture_unclaimed (h : p.ok = false) (c r : Nat) : p.picture c r = none := by
  simp [Panel.picture, h]

theorem Panel.inside_initial : PanelInside Panel.initial := by
  refine ⟨trivial, trivial, trivial, List.Pairwise.nil, by simp [Panel.initial], List.Pairwise.nil⟩

theorem Panel.inside_poison (p : Panel) : PanelInside p.poison :=
  ⟨trivial, trivial, trivial, List.Pairwise.nil, by simp [Panel.poison], List.Pairwise.nil⟩

/-- No event takes the window, the write pointer or the frame memory out of the panel, nor the two sparse lists out of their
canonical form. -/
theorem Panel.inside_onEvent (h : PanelInside p) (e : Event) : PanelInside (p.onEvent wrap e) := by
  have hreg : ∀ (k : Nat) (v : List Byte) (q : Panel), PanelInside q → PanelInside { q with reg := sparseSet k v q.reg } := by
    rintro k v q ⟨h1, h2, h3, h4, h5, h6⟩
    exact ⟨h1, h2, h3, h4, h5, sparseSet_pairwise _ _ h6⟩
  have hrange : ∀ (o : Byte) (q : Panel), PanelInside q → PanelInside (q.rangeByte o) := by
    intro o q hq
    obtain ⟨h1, h2, h3, h4, h5, h6⟩ := hq
    unfold Panel.rangeByte
    split
    · exact ⟨h1, h2, h3, h4, h5, h6⟩
    · split
      · unfold Panel.setRange
        split
        · split
          · rename_i hab; exact ⟨hab, h2, trivial, h4, h5, h6⟩
          · exact Panel.inside_poison _
        · split
          · rename_i hab; exact ⟨h1, hab, trivial, h4, h5, h6⟩
          · exact Panel.inside_poison _
      · exact Panel.inside_poison _
  cases e with
  | cfg => exact h
  | rst b =>
    obtain ⟨h1, h2, h3, h4, h5, h6⟩ := h
    cases b
    · exact ⟨trivial, trivial, trivial, List.Pairwise.nil, by simp [Panel.onEvent, Panel.onRst], List.Pairwise.nil⟩
    · simp only [Panel.onEvent, Panel.onRst]
      rw [if_pos trivial]
      split <;> exact ⟨h1, h2, h3, h4, h5, h6⟩
  | sel b =>
    obtain ⟨h1, h2, h3, h4, h5, h6⟩ := h
    simp only [Panel.onEvent, Panel.onSel]
    split
    · exact ⟨h1, h2, h3, h4, h5, h6⟩
    · split
      · exact ⟨h1, h2, h3, h4, h5, h6⟩
      · exact Panel.inside_initial
  | dcset b => exact h
  | tx v => exact h
  | idle => exact h
  | wait t =>
    obtain ⟨h1, h2, h3, h4, h5, h6⟩ := h
    simp only [Panel.onEvent, Panel.onWait]
    split
    · exact ⟨h1, h2, h3, h4, h5, h6⟩
    · split <;> exact ⟨h1, h2, h3, h4, h5, h6⟩
  | byte d v =>
    simp only [Panel.onEvent, Panel.onByte]
    split
    · exact Panel.inside_poison _
    · split
      · exact Panel.inside_poison _
      · split
        · exact h
        · split
          · unfold Panel.onData
            split
            · exact Panel.inside_poison _
            · split
              · unfold Panel.pixelByte
                split
                · split
                  · exact h
                  · unfold Panel.putPixel
                    split
                    · rename_i c r sc ec ep ht hsc hec hep
                      obtain ⟨h1, h2, h3, h4, h5, h6⟩ := h
                      dsimp only at ht hsc hec hep
                      have hcr : c.toNat < WIDTH ∧ r.toNat < HEIGHT := by
                        unfold Panel.target at ht
                        dsimp only at ht
                        split at ht
                        · rename_i hp; cases ht; rw [hp] at h3; exact h3
                        · cases ht
                        · split at ht
                          · rename_i c' r' hc' hr'
                            cases ht
                            rw [hsc, hec] at h1
                            rw [hr', hep] at h2
                            rw [hsc] at hc'
                            cases hc'
                            exact ⟨by have := h1.1; have := h1.2; omega, by have := h2.1; have := h2.2; omega⟩
                          · cases ht
                      refine ⟨h1, h2, ?_, Memory.write_wf _ _ _ _ h4, ?_, h6⟩
                      · unfold nextCell
                        rw [hsc, hec] at h1
                        rw [hep] at h2
                        split
                        · rename_i hlt
                          refine ⟨?_, hcr.2⟩
                          have := h1.2
                          simp only [WIDTH] at *
                          simp; omega
                        · split
                          · rename_i hlt
                            refine ⟨by have := h1.1; have := h1.2; omega, ?_⟩
                            cases hsp : p.sp with
                            | none => rw [hsp] at h2; exact absurd h2 (by simp [rangeInside])
                            | some sp =>
                              rw [hsp] at h2
                              have := h2.2
                              simp only [HEIGHT] at *
                              simp; omega
                          · trivial
                      · intro cell hcell
                        rcases mem_sparseSet hcell with rfl | hm
                        · exact cellIndex_lt hcr.1 hcr.2
                        · exact h5 _ hm
                    · exact Panel.inside_poison _
                · exact Panel.inside_poison _
              · split
                · exact Panel.inside_poison _
                · dsimp only
                  have hq := hreg
                  split
                  · exact hrange _ _ (hreg _ _ p h)
                  · exact hreg _ _ p h
          · unfold Panel.onCommand
            split
            · exact Panel.inside_poison _
            · unfold Panel.openCommand
              have hh := h
              obtain ⟨h1, h2, h3, h4, h5, h6⟩ := h
              split
              · exact ⟨h1, h2, h3, h4, h5, h6⟩
              · split
                · exact ⟨h1, h2, h3, h4, h5, h6⟩
                · split
                  · split
                    · rename_i c ec r ep hc hec hr hep
                      dsimp only at hc hec hr hep
                      refine ⟨h1, h2, ?_, h4, h5, h6⟩
                      rw [hc, hec] at h1
                      rw [hr, hep] at h2
                      exact ⟨by have := h1.1; have := h1.2; omega, by have := h2.1; have := h2.2; omega⟩
                    · exact Panel.inside_poison _
                  · split
                    · exact ⟨h1, h2, h3, h4, h5, sparseSet_pairwise _ _ h6⟩
                    · exact Panel.inside_poison _

end Sys2Proof.Machine
end

