-- ==== Sys2Proof/Laws/PerInstr.lean ====
section
/-! SUPPORT. Per instruction: its encoded form belongs to its layer and carries the code opcode_table.json gives its row. -/

namespace Sys2Proof.Laws.TableCode

/-- The code of an instruction's row, column `match` of opcode_table.json (30_encoding.md R95, R100, R101). -/
def code : Instr → Nat
  | .ifmode _ => 0xB0
  | .slpout => 0x11
  | .pixfmt _ => 0x3A
  | .madctl _ => 0x36
  | .pwctr3 _ => 0xC2
  | .vmctr _ _ _ _ => 0xC5
  | .pgamma _ => 0xE0
  | .ngamma _ => 0xE1
  | .dispon => 0x29
  | .caset _ _ => 0x2A
  | .paset _ _ => 0x2B
  | .ramwr => 0x2C
  | .init => 0x01
  | .setwin _ _ _ _ => 0x02
  | .streamfill _ _ => 0x03
  | .streambuf _ => 0x04
  | .drawpixel _ _ _ => 0x05
  | .fillrect _ _ _ _ _ => 0x06
  | .drawimage _ _ _ _ _ => 0x07
  | .sendbyte _ => 0x00
  | .waitidle => 0x01
  | .selstart => 0x02
  | .selend => 0x03
  | .wrcmd _ => 0x04
  | .wrdata8 _ => 0x05
  | .wrdata16 _ => 0x06
  | .delay _ => 0x07

/-- The layer and the code an encoded form shows: the first byte of a transaction, `REQ.OP`, or the label. -/
def shown : Encoded → Option (Layer × Nat)
  | .wire [] => none
  | .wire (c :: _) => if c.dc then none else some (.wire, c.value.toNat)
  | .host r => some (.host, r.op.toNat)
  | .uop u => some (.uop, u.label.toNat)

/-- The encoded form of an instruction shows its layer and its row's code. -/
def Statement (i : Instr) : Prop := shown (encode i) = some (i.layer, code i)

theorem ifmode (ps : List Byte) : Statement (.ifmode ps) := rfl
theorem slpout : Statement .slpout := rfl
theorem pixfmt (p : Byte) : Statement (.pixfmt p) := rfl
theorem madctl (p : Byte) : Statement (.madctl p) := rfl
theorem pwctr3 (p : Byte) : Statement (.pwctr3 p) := rfl
theorem vmctr (p q r t : Byte) : Statement (.vmctr p q r t) := rfl
theorem pgamma (ps : List Byte) : Statement (.pgamma ps) := rfl
theorem ngamma (ps : List Byte) : Statement (.ngamma ps) := rfl
theorem dispon : Statement .dispon := rfl
theorem caset (a b : U16) : Statement (.caset a b) := rfl
theorem paset (a b : U16) : Statement (.paset a b) := rfl
theorem ramwr : Statement .ramwr := rfl
theorem init : Statement .init := rfl
theorem setwin (x0 y0 x1 y1 : U16) : Statement (.setwin x0 y0 x1 y1) := rfl
theorem streamfill (n : U32) (c : U16) : Statement (.streamfill n c) := rfl
theorem streambuf (px : List U16) : Statement (.streambuf px) := rfl
theorem drawpixel (x y c : U16) : Statement (.drawpixel x y c) := rfl
theorem fillrect (x y w h c : U16) : Statement (.fillrect x y w h c) := rfl
theorem drawimage (x y w h : U16) (px : List U16) : Statement (.drawimage x y w h px) := rfl
theorem sendbyte (v : Byte) : Statement (.sendbyte v) := rfl
theorem waitidle : Statement .waitidle := rfl
theorem selstart : Statement .selstart := rfl
theorem selend : Statement .selend := rfl
theorem wrcmd (o : Byte) : Statement (.wrcmd o) := rfl
theorem wrdata8 (v : Byte) : Statement (.wrdata8 v) := rfl
theorem wrdata16 (w : U16) : Statement (.wrdata16 w) := rfl
theorem delay (t : DelayTime) : Statement (.delay t) := by cases t <;> rfl

end Sys2Proof.Laws.TableCode
end

