-- ==== Sys2Proof/Laws/Raster.lean ====
section
/-! SUPPORT. How each request in service begins, clipping and the gather over naturals, and the run of a window, a load of
the counters and a stream. -/

namespace Sys2Proof.Machine

variable {s : State} {x y w h : U16}

-- ## Clipping and the gather

theorem clipWidth_toNat (x w : U16) : (clipWidth x w).toNat = min w.toNat (320 - x.toNat) := by
  have := w.isLt
  simp only [clipWidth, WIDTH, BitVec.toNat_ofNat]
  omega

theorem clipHeight_toNat (y h : U16) : (clipHeight y h).toNat = min h.toNat (480 - y.toNat) := by
  have := h.isLt
  simp only [clipHeight, HEIGHT, BitVec.toNat_ofNat]
  omega

theorem mul32_toNat (a b : U16) : (mul32 a b).toNat = a.toNat * b.toNat := by
  have ha := a.isLt
  have hb := b.isLt
  simp only [mul32, BitVec.toNat_mul, BitVec.toNat_setWidth]
  rw [Nat.mod_eq_of_lt (by omega : a.toNat < 2 ^ 32), Nat.mod_eq_of_lt (by omega : b.toNat < 2 ^ 32)]
  apply Nat.mod_eq_of_lt
  calc a.toNat * b.toNat ≤ 65535 * 65535 := Nat.mul_le_mul (by omega) (by omega)
    _ < 2 ^ 32 := by decide

theorem gather_length (m : BlitClipMode) (src : List U16) (pw cw ch : U16) :
    (gather m src pw cw ch).length = cw.toNat * ch.toNat := by
  cases m <;> simp [gather, gatherStride, gatherContiguous, List.length_flatMap, Nat.mul_comm]

/-- The count a gathered sequence is streamed with is the area of the clipped region. -/
theorem gather_count (m : BlitClipMode) (src : List U16) (pw cw ch : U16) :
    BitVec.ofNat 32 (gather m src pw cw ch).length = mul32 cw ch := by
  apply BitVec.eq_of_toNat_eq
  rw [gather_length, mul32_toNat, BitVec.toNat_ofNat]
  apply Nat.mod_eq_of_lt
  rw [← mul32_toNat]
  exact (mul32 cw ch).isLt

theorem gather_length_lt (m : BlitClipMode) (src : List U16) (pw cw ch : U16) :
    (gather m src pw cw ch).length < 2 ^ 32 := by
  rw [gather_length, ← mul32_toNat]
  exact (mul32 cw ch).isLt

theorem offPanel_false : offPanel x y = false ↔ x.toNat < 320 ∧ y.toNat < 480 := by
  unfold offPanel WIDTH HEIGHT
  rw [Bool.or_eq_false_iff, decide_eq_false_iff_not, decide_eq_false_iff_not]
  omega

theorem offPanel_true : offPanel x y = true ↔ 320 ≤ x.toNat ∨ 480 ≤ y.toNat := by
  unfold offPanel WIDTH HEIGHT
  rw [Bool.or_eq_true, decide_eq_true_eq, decide_eq_true_eq]

-- ## How a request in service begins

theorem startDrawpixel_go (hs : InService s) (ho : offPanel x y = false) (c : U16) :
    startDrawpixel x y c s =
      accepted .drawpixel pixelList { s.regs with px := x, py := y, color := c, x0 := x, y0 := y, x1 := x, y1 := y } s := by
  rw [startDrawpixel, whenInitialized_go hs.2.1 hs.2.2]
  dsimp only [latchColor, latchAnchor]
  rw [ho]
  rfl

theorem startFillrect_go (hs : InService s) (ho : offPanel x y = false) (hw : w ≠ 0) (hh : h ≠ 0) (c : U16) :
    startFillrect x y w h c s =
      accepted .fillrect rectList
        { regionRegs s.regs x y w h with color := c, count := s.regs.count, idx := s.regs.idx } s := by
  rw [startFillrect, whenInitialized_go hs.2.1 hs.2.2]
  dsimp only [latchColor, latchSize, latchAnchor]
  rw [ho, if_neg (by simp), if_neg (not_or.2 ⟨hw, hh⟩)]
  rfl

theorem startDrawimage_go (hs : InService s) (ho : offPanel x y = false) (hw : w ≠ 0) (hh : h ≠ 0) {px : List U16}
    (hl : w.toNat * h.toNat ≤ px.length)
    (hm : s.cfg.blitClipMode = .reject → clipWidth x w = w ∧ clipHeight y h = h) :
    startDrawimage x y w h px s =
      accepted .drawimage imageList
        { regionRegs s.regs x y w h with src := px, count := s.regs.count, idx := s.regs.idx } s := by
  have h1 : ¬(s.cfg.blitClipMode = .reject ∧
      clipped (latchClip (latchSource px (latchSize w h (latchAnchor x y s)))).regs = true) := by
    rintro ⟨ha, hb⟩
    obtain ⟨h1, h2⟩ := hm ha
    simp [clipped, latchClip, latchSource, latchSize, latchAnchor, h1, h2] at hb
  rw [startDrawimage, whenInitialized_go hs.2.1 hs.2.2]
  dsimp only [latchSource, latchSize, latchAnchor, latchClip] at h1 ⊢
  rw [ho, if_neg (by simp), if_neg (not_or.2 ⟨hw, hh⟩), if_neg h1, if_neg (by rw [mul32_toNat]; omega)]
  rfl

-- ## A window, a load, a stream

/-- A raster primitive's list: the window of the latched bounds, a load that leaves the registers at `r`, and a stream that
sends `px` and leaves `IDX` at `k`. -/
theorem ran_raster (load loop : Atom) (px : List U16) (k : U32) (r : Regs) {u : State} (hb : u.bus = Transport.empty)
    (hld : ∀ v : State, v.regs = u.regs → v.cfg = u.cfg → idealAtom load v = { v with regs := r })
    (hl : ∀ v : State, v.regs = r → idealAtom loop v = afterPixels px k v) :
    Ran u (idealList (windowList ++ [load] ++ streamList loop) u)
      (windowWire u.regs.x0 u.regs.y0 u.regs.x1 u.regs.y1 ++ streamWire px)
      (windowCalls u.regs.x0 u.regs.y0 u.regs.x1 u.regs.y1 ++ streamCalls px) { r with idx := k } true true u.lines.rstN
      u.initState := by
  have h1 := ran_windowList hb
  rw [idealList_append, idealList_append]
  generalize idealList windowList u = v at h1 ⊢
  have e : idealList [load] v = { v with regs := r } := hld v h1.regs_eq h1.cfg_eq
  rw [e]
  have h2 : Ran v { v with regs := r } [] [] r v.lines.csN v.lines.dc v.lines.rstN v.initState :=
    { wire_eq := by simp [wire], calls_eq := by simp [calls], panel_eq := by simp [Panel.feed],
      samples_eq := by simp [bitsOf], bus_eq := h1.bus_eq, sck_eq := fun h => h, cfg_eq := rfl, inputs_eq := rfl,
      fault_eq := rfl, regs_eq := rfl, csN_eq := rfl, dc_eq := rfl, rstN_eq := rfl, initState_eq := rfl, seq_eq := rfl,
      busy_eq := rfl, status_eq := rfl, waits_eq := rfl }
  have h3 := ran_streamList loop px k (u := { v with regs := r }) h1.bus_eq (hl _ rfl)
  have h := (h1.trans h2).trans h3
  simp only [List.append_nil] at h
  rw [← h1.rstN_eq, ← h1.initState_eq]
  exact h

end Sys2Proof.Machine
end

