-- ==== Sys2Proof/Laws/Tracks.lean ====
section
/-! SUPPORT. What a list's run puts on the wire, event by event, whether it ends or a bounded wait expires on the way: every
event is of a kind its entries make. -/

namespace Sys2Proof.Machine

/-- What is known of `DC` after an entry. -/
def dcAfter (a : Atom) (d : Option Bool) : Option Bool :=
  match a with
  | .discriminate b => some b
  | _ => d

/-- Every event the entry makes on the wire is good, given what is known of `DC`. -/
def GoodAtom (G : Event → Prop) (a : Atom) (d : Option Bool) : Prop :=
  match a with
  | .send src => (d = some true ∧ ∀ v, G (.byte true v)) ∨ (d = some false ∧ ∃ o, src = .lit o ∧ G (.byte false o))
  | .fillLoop => d = some true ∧ ∀ v, G (.byte true v)
  | .bufLoop => d = some true ∧ ∀ v, G (.byte true v)
  | .resetLine b => G (.rst b)
  | .hold _ => ∀ t, G (.wait t)
  | .select b => G (.sel b)
  | _ => True

def GoodList (G : Event → Prop) : List Atom → Option Bool → Prop
  | [], _ => True
  | a :: l, d => GoodAtom G a d ∧ GoodList G l (dcAfter a d)

theorem goodList_append {G : Event → Prop} (l m : List Atom) (d : Option Bool) :
    GoodList G (l ++ m) d ↔ GoodList G l d ∧ GoodList G m (l.foldl (fun d a => dcAfter a d) d) := by
  induction l generalizing d with
  | nil => simp [GoodList]
  | cons a l ih => simp [GoodList, ih, and_assoc]

structure Tracks (s : State) (G : Event → Prop) (d : Option Bool) (u : State) : Prop where
  good : ∃ w, wire u ++ inflight u = wire s ++ w ∧ ∀ e ∈ w, G e
  dc : ∀ b, d = some b → u.lines.dc = b

theorem Tracks.transport (s : State) (G : Event → Prop) (d : Option Bool) : KeptByTransport (Tracks s G d) where
  move u h := ⟨by rw [txMove_wire]; exact h.good, by rw [(txMove_frame u).dc_eq]; exact h.dc⟩
  sched u ks h := ⟨h.good, h.dc⟩

theorem Tracks.event {s : State} {G : Event → Prop} {d : Option Bool} {u : State} (h : Tracks s G d u) (hb : u.bus = Transport.empty) (e : Event) (hG : G e) (f : Lines → Lines)
   {d' : Option Bool} (hd : ∀ b, d' = some b → (f u.lines).dc = b) : Tracks s G d' (emit e { u with lines := f u.lines }) := by
  obtain ⟨⟨w, hw, hg⟩, _⟩ := h
  rw [inflight_empty hb, List.append_nil] at hw
  refine ⟨?_, hd⟩
  have hi : inflight (emit e { u with lines := f u.lines }) = [] := inflight_empty hb
  have hh : wire (emit e { u with lines := f u.lines }) = wire u ++ [e].filter Event.onWire := by
    simp only [wire, emit_trace, List.filter_append]
  rw [hi, List.append_nil, hh, hw]
  refine ⟨w ++ [e].filter Event.onWire, by rw [List.append_assoc], ?_⟩
  intro x hx
  rcases List.mem_append.1 hx with hx | hx
  · exact hg x hx
  · have := List.mem_of_mem_filter hx; simp at this; subst this; exact hG

theorem Tracks.off {s : State} {G : Event → Prop} {d : Option Bool} {u : State} (h : Tracks s G d u) (e : Event) (he : e.onWire = false) :
    Tracks s G d (emit e u) := by
  obtain ⟨⟨w, hw, hg⟩, hd⟩ := h
  refine ⟨⟨w, ?_, hg⟩, hd⟩
  have hi : inflight (emit e u) = inflight u := rfl
  rw [hi, ← hw]
  simp [wire, he]

theorem Tracks.effect {s : State} {G : Event → Prop} {d : Option Bool} {u : State} (h : Tracks s G d u) (a : Atom) (hr : a.ready u = true)
    (hb : a.needsIdle = true → u.bus = Transport.empty) (hg : GoodAtom G a d) : Tracks s G (dcAfter a d) (a.effect u) := by
  cases a with
  | config => exact h.off _ rfl
  | resetLine b => exact h.event (hb rfl) _ hg (fun l => { l with rstN := b }) h.dc
  | hold t => exact h.event (hb rfl) _ (hg _) (fun l => l) h.dc
  | select b => exact h.event (hb rfl) _ hg (fun l => { l with csN := b }) h.dc
  | discriminate b =>
    have hbus := hb rfl
    have := Tracks.off (u := { u with lines := { u.lines with dc := b } }) (s := s) (G := G) (d := some b) ⟨by
      obtain ⟨w, hw, hg⟩ := h.good
      rw [inflight_empty hbus] at hw
      have : inflight { u with lines := { u.lines with dc := b } } = [] := inflight_empty hbus
      rw [this]
      exact ⟨w, hw, hg⟩, fun c hc => by cases hc; rfl⟩ (.dcset b) rfl
    exact this
  | send src =>
    have hr := met_ready.1 (show WaitFor.ready.met u = true from hr)
    obtain ⟨⟨w, hw, hG⟩, hd⟩ := h
    have hi : inflight (enqueue (src.read u.regs) u) = inflight u ++ [.byte u.lines.dc (src.read u.regs)] := by
      simp [inflight, hr]
    refine ⟨⟨w ++ [.byte u.lines.dc (src.read u.regs)], ?_, ?_⟩, hd⟩
    · show wire (enqueue (src.read u.regs) u) ++ inflight (enqueue (src.read u.regs) u) = _
      rw [hi, ← List.append_assoc, ← List.append_assoc, ← hw]
      congr 2
      rw [wire, enqueue_trace, List.filter_append]; simp [wire, Event.onWire]
    · intro e he
      rcases List.mem_append.1 he with he | he
      · exact hG e he
      · simp at he
        subst he
        rcases hg with ⟨h1, h2⟩ | ⟨h1, o, rfl, h2⟩
        · rw [hd _ h1]; exact h2 _
        · rw [hd _ h1]; exact h2
  | awaitIdle => exact h.off _ rfl
  | _ => exact ⟨h.good, h.dc⟩

theorem Tracks.runEntry {s : State} {G : Event → Prop} {d : Option Bool} {u : State} (h : Tracks s G d u) (a : Atom) (hl : loopBody a = []) (q : Bool)
    (hq : q = true → u.bus = Transport.empty) (hd : (!a.needsIdle || q) = true) (hg : GoodAtom G a d) :
    (∃ t, runEntry a u = .ok t ∧ Tracks s G (dcAfter a d) t ∧ (a.idleAfter q = true → t.bus = Transport.empty)) ∨
      ∃ v, runEntry a u = .expired (timeOut v) ∧ Tracks s G d v := by
  cases hw : a.waitsFor with
  | none =>
    refine .inl ⟨a.effect u, by simp [Machine.runEntry, hw], h.effect a (by simp [Atom.ready, hw]) (fun hn => hq (by simpa [hn] using hd)) hg, ?_⟩
    intro hi
    cases a <;> simp_all [Atom.waitsFor, Atom.idleAfter, loopBody, Atom.effect]
  | some c =>
    rcases await_cases (Tracks.transport s G d) c (waitBudget u) u h with ⟨t, ht, hp, hm⟩ | ⟨t, ht, hp, _⟩
    · refine .inl ⟨a.effect t, by simp [Machine.runEntry, hw, ht, Flow.andThen], hp.effect a (by simp [Atom.ready, hw, hm]) (fun hn => ?_) hg, ?_⟩
      · cases a <;> simp [Atom.needsIdle, Atom.waitsFor] at hn hw
      · intro hi
        cases a <;> simp_all [Atom.waitsFor, Atom.idleAfter]
        subst hw
        simpa [Atom.effect] using met_idle.1 hm
    · exact .inr ⟨t, by simp [Machine.runEntry, hw, ht, Flow.andThen], hp⟩

theorem Tracks.runRounds {s : State} {G : Event → Prop} (l : List Atom) (hl : ∀ a ∈ l, loopBody a = [] ∧ GoodAtom G a (some true) ∧ a.needsIdle = false ∧ dcAfter a (some true) = some true) (n : Nat) :
   ∀ u, Tracks s G (some true) u → (∃ t, runRounds l n u = .ok t ∧ Tracks s G (some true) t) ∨ ∃ v, runRounds l n u = .expired (timeOut v) ∧ Tracks s G (some true) v := by
  have he : ∀ (m : List Atom), (∀ a ∈ m, a ∈ l) → ∀ u, Tracks s G (some true) u → (∃ t, runEntries m u = .ok t ∧ Tracks s G (some true) t) ∨ ∃ v, runEntries m u = .expired (timeOut v) ∧ Tracks s G (some true) v := by
    intro m
    induction m with
    | nil => intro _ u h; exact .inl ⟨u, rfl, h⟩
    | cons a m ih =>
      intro hm u h
      obtain ⟨h1, h2, h3, h4⟩ := hl a (hm a (by simp))
      rcases h.runEntry a h1 false (by simp) (by simp [h3]) h2 with ⟨t, ht, hp, _⟩ | ⟨v, hv, hp⟩
      · rw [h4] at hp
        simp only [runEntries, ht, Flow.andThen]
        exact ih (fun b hb => hm b (by simp [hb])) t hp
      · exact .inr ⟨v, by simp [runEntries, hv, Flow.andThen], hp⟩
  induction n with
  | zero => intro u h; exact .inl ⟨u, rfl, h⟩
  | succ n ih =>
    intro u h
    rcases he l (fun _ h => h) u h with ⟨t, ht, hp⟩ | ⟨v, hv, hp⟩
    · simp only [Machine.runRounds, ht, Flow.andThen]; exact ih t hp
    · exact .inr ⟨v, by simp [Machine.runRounds, hv, Flow.andThen], hp⟩

theorem Tracks.runList {s : State} {G : Event → Prop} (l : List Atom) : ∀ (d : Option Bool) (q : Bool) (u : State), Tracks s G d u →
    (q = true → u.bus = Transport.empty) → disciplined l q = true → GoodList G l d →
    (∃ t, runList l u = .ok t ∧ Tracks s G none t) ∨ ∃ v, runList l u = .expired (timeOut v) ∧ Tracks s G none v := by
  induction l with
  | nil => intro d q u h _ _ _; exact .inl ⟨u, rfl, ⟨h.good, by simp⟩⟩
  | cons a l ih =>
    intro d q u h hq hd hg
    simp only [disciplined, Bool.and_eq_true] at hd
    rcases loopBody_cases a with hl | ⟨rfl, hl⟩ | ⟨rfl, hl⟩
    · rcases h.runEntry a hl q hq hd.1 hg.1 with ⟨t, ht, hp, hb⟩ | ⟨v, hv, hp⟩
      · simp only [Machine.runList, runAtom, hl, ht, Flow.andThen]
        exact ih _ _ t hp hb hd.2 hg.2
      · exact .inr ⟨v, by simp [Machine.runList, runAtom, hl, hv, Flow.andThen], hp.good, by simp⟩
    · obtain ⟨hd1, hv1⟩ := hg.1
      subst hd1
      rcases Tracks.runRounds (s := s) (G := G) [.send .colorHi, .send .colorLo, .nextPixel] (by simp [loopBody, GoodAtom, hv1, Atom.needsIdle, dcAfter]) (loopRounds u) u h with ⟨t, ht, hp⟩ | ⟨v, hv, hp⟩
      · simp only [Machine.runList, runAtom, hl, ht, Flow.andThen]
        exact ih _ _ t hp (by simp [Atom.idleAfter]) hd.2 hg.2
      · exact .inr ⟨v, by simp [Machine.runList, runAtom, hl, hv, Flow.andThen], hp.good, by simp⟩
    · obtain ⟨hd1, hv1⟩ := hg.1
      subst hd1
      rcases Tracks.runRounds (s := s) (G := G) [.send .pixelHi, .send .pixelLo, .nextPixel] (by simp [loopBody, GoodAtom, hv1, Atom.needsIdle, dcAfter]) (loopRounds u) u h with ⟨t, ht, hp⟩ | ⟨v, hv, hp⟩
      · simp only [Machine.runList, runAtom, hl, ht, Flow.andThen]
        exact ih _ _ t hp (by simp [Atom.idleAfter]) hd.2 hg.2
      · exact .inr ⟨v, by simp [Machine.runList, runAtom, hl, hv, Flow.andThen], hp.good, by simp⟩

end Sys2Proof.Machine
end

