-- ==== Sys2Proof/Tests/Slice0.lean ====
section
/-! SUPPORT. Our own tests: what WellFormed and the decoder refuse, words written out from 30_encoding.md, single steps
against the vectors of 95_test_vectors.md, and a witness for the hypotheses of each statement. -/

namespace Sys2Proof.Tests

open Sys2Proof.Machine

-- One theorem at a time: kernel evaluations that wait for one another hold a thread and its stack each.
set_option Elab.async false

-- ## Small states

/-- Concrete parameters within the bounds of 00_scope.md R6. -/
def testCfg : Config where
  ifmodeParams := [0x00]
  gammaPos := #v[1, 2, 3, 4, 5, 6, 7, 8, 9, 10, 11, 12, 13, 14, 15]
  gammaNeg := #v[16, 17, 18, 19, 20, 21, 22, 23, 24, 25, 26, 27, 28, 29, 30]
  tRstPre := 5
  tRstLow := 20
  tRstPost := 200
  tSlpout := 100000
  tDispon := 120000
  busTimeout := none
  blitClipMode := .strideCrop
  panelWrap := .unspecified

/-- The block's reset state with concrete parameters. -/
def atReset : State := { State.reset with cfg := testCfg }

/-- Initialized and idle (95_test_vectors.md, preamble), its observer still at its start. -/
def idle : State := { atReset with initState := .initialized }

/-- An observer after initialization (95_test_vectors.md TV-O1), the two registers that matter for pixels listed. -/
def readyPanel : Panel :=
  { Panel.initial with
    ok := true, cmd := some 0x29, reg := [(0x36, [0x28]), (0x3A, [0x55])], sleepOut := true, displayOn := true }

/-- Initialized and idle with a ready observer. -/
def ready : State := { idle with panel := readyPanel }

/-- A byte in the transmit buffer. -/
def loaded : State := { idle with bus := { txbuf := some 0x2A, shreg := none } }

/-- The last bit of a byte being shifted. -/
def lastBit : State := { idle with bus := { txbuf := none, shreg := some { value := 0x2B, bit := 0, dc := false } } }

/-- A bounded wait and a transport that holds a byte. -/
def bounded : State := { loaded with cfg := { testCfg with busTimeout := some 2 } }

/-- A request accepted and not yet moved. -/
def midway : State := { idle with busy := true, seq := { op := some .streamfill, todo := [.send .colorHi, .awaitIdle] } }

/-- An observer armed at a cell of the window `(x0, y0, x1, y1)`, selected. -/
def armed (x0 y0 x1 y1 c r : U16) : State :=
  { ready with
    lines := { ready.lines with csN := false }
    panel :=
      { readyPanel with
        cmd := some 0x2C, sc := some x0, ec := some x1, sp := some y0, ep := some y1, ptr := .cell c r, sel := true } }

/-- The same past the window's end. -/
def armedPast (x0 y0 x1 y1 : U16) (wrap : PanelWrap) : State :=
  { armed x0 y0 x1 y1 x1 y1 with
    cfg := { testCfg with panelWrap := wrap }
    panel := { (armed x0 y0 x1 y1 x1 y1).panel with ptr := .pastEnd } }

/-- The outcome is a next state with a property. -/
def holds (o : Host.Outcome State Fault Refusal) (f : State → Bool) : Bool :=
  match o with
  | .next t => f t
  | .fault _ => false
  | .refused _ => false

/-- One step with one input presented. -/
def stepWith (i : Input) (s : State) : Host.Outcome State Fault Refusal := step { s with inputs := [i] }

-- ## WellFormed refuses

theorem test_wf_pgamma : Instr.wellFormed (.pgamma [1, 2, 3]) = false := by decide
theorem test_wf_ngamma : Instr.wellFormed (.ngamma (List.replicate 16 0)) = false := by decide
theorem test_wf_streambuf (px : List U16) (h : 2 ^ 32 ≤ px.length) : Instr.wellFormed (.streambuf px) = false := by
  simp only [Instr.wellFormed, decide_eq_false_iff_not]
  omega

-- ## Words written out from 30_encoding.md R95, R99 to R101

theorem test_decode_ifmode :
    decode (.wire [⟨false, 0xB0⟩, ⟨true, 0x12⟩, ⟨true, 0x34⟩]) =
      .ok (.ifmode [0x12, 0x34]) := by
  decide
theorem test_decode_slpout : decode (.wire [⟨false, 0x11⟩]) = .ok (.slpout) := by decide
theorem test_decode_pixfmt : decode (.wire [⟨false, 0x3A⟩, ⟨true, 0x55⟩]) = .ok (.pixfmt 0x55) := by decide
theorem test_decode_madctl : decode (.wire [⟨false, 0x36⟩, ⟨true, 0x28⟩]) = .ok (.madctl 0x28) := by decide
theorem test_decode_pwctr3 : decode (.wire [⟨false, 0xC2⟩, ⟨true, 0x44⟩]) = .ok (.pwctr3 0x44) := by decide
theorem test_decode_vmctr :
    decode (.wire [⟨false, 0xC5⟩, ⟨true, 1⟩, ⟨true, 2⟩, ⟨true, 3⟩, ⟨true, 4⟩]) =
      .ok (.vmctr 1 2 3 4) := by
  decide
theorem test_decode_pgamma :
    decode (.wire (⟨false, 0xE0⟩ :: [0, 1, 2, 3, 4, 5, 6, 7, 8, 9, 10, 11, 12, 13, 14].map (⟨true, ·⟩))) =
      .ok (.pgamma [0, 1, 2, 3, 4, 5, 6, 7, 8, 9, 10, 11, 12, 13, 14]) := by
  decide
theorem test_decode_ngamma :
    decode (.wire (⟨false, 0xE1⟩ :: [0, 1, 2, 3, 4, 5, 6, 7, 8, 9, 10, 11, 12, 13, 14].map (⟨true, ·⟩))) =
      .ok (.ngamma [0, 1, 2, 3, 4, 5, 6, 7, 8, 9, 10, 11, 12, 13, 14]) := by
  decide
theorem test_decode_dispon : decode (.wire [⟨false, 0x29⟩]) = .ok (.dispon) := by decide
theorem test_decode_caset :
    decode (.wire [⟨false, 0x2A⟩, ⟨true, 0x00⟩, ⟨true, 0x0A⟩, ⟨true, 0x01⟩, ⟨true, 0x3F⟩]) =
      .ok (.caset 10 319) := by
  decide
theorem test_decode_paset :
    decode (.wire [⟨false, 0x2B⟩, ⟨true, 0x00⟩, ⟨true, 0xFF⟩, ⟨true, 0x01⟩, ⟨true, 0x00⟩]) =
      .ok (.paset 255 256) := by
  decide
theorem test_decode_ramwr : decode (.wire [⟨false, 0x2C⟩]) = .ok (.ramwr) := by decide
theorem test_decode_init : decode (.host { blankRequest 0x1 with a0 := 7 }) = .ok (.init) := by decide
theorem test_decode_setwin :
    decode (.host { blankRequest 0x2 with a0 := 1, a1 := 2, a2 := 3, a3 := 4 }) =
      .ok (.setwin 1 2 3 4) := by
  decide
theorem test_decode_streamfill :
    decode (.host { blankRequest 0x3 with count := 153600, color := 0xF81F }) =
      .ok (.streamfill 153600 0xF81F) := by
  decide
theorem test_decode_streambuf :
    decode (.host { blankRequest 0x4 with src := [0x1234, 0xABCD] }) =
      .ok (.streambuf [0x1234, 0xABCD]) := by
  decide
theorem test_decode_drawpixel :
    decode (.host { blankRequest 0x5 with a0 := 319, a1 := 479, a2 := 9, color := 0xFFFF }) =
      .ok (.drawpixel 319 479 0xFFFF) := by
  decide
theorem test_decode_fillrect :
    decode (.host { blankRequest 0x6 with a0 := 1, a1 := 2, a2 := 3, a3 := 4, color := 0xF800 }) =
      .ok (.fillrect 1 2 3 4 0xF800) := by
  decide
theorem test_decode_drawimage :
    decode (.host { blankRequest 0x7 with a0 := 1, a1 := 2, a2 := 3, a3 := 4, src := [5] }) =
      .ok (.drawimage 1 2 3 4 [5]) := by
  decide
theorem test_decode_sendbyte : decode (.uop { label := 0, arg := 0x002A, time := 0 }) = .ok (.sendbyte 0x2A) := by decide
theorem test_decode_waitidle : decode (.uop { label := 1, arg := 0, time := 0 }) = .ok (.waitidle) := by decide
theorem test_decode_selstart : decode (.uop { label := 2, arg := 0, time := 0 }) = .ok (.selstart) := by decide
theorem test_decode_selend : decode (.uop { label := 3, arg := 0, time := 0 }) = .ok (.selend) := by decide
theorem test_decode_wrcmd : decode (.uop { label := 4, arg := 0x0011, time := 0 }) = .ok (.wrcmd 0x11) := by decide
theorem test_decode_wrdata8 : decode (.uop { label := 5, arg := 0x0055, time := 0 }) = .ok (.wrdata8 0x55) := by decide
theorem test_decode_wrdata16 :
    decode (.uop { label := 6, arg := 0x013F, time := 0 }) =
      .ok (.wrdata16 0x013F) := by
  decide
theorem test_decode_delay :
    decode (.uop { label := 7, arg := 5, time := 1000 }) =
      .ok (.delay (.micros 1000)) := by
  decide
theorem test_decode_caset_bytes :
    decode (.wire [⟨false, 0x2A⟩, ⟨true, 0x00⟩, ⟨true, 0x00⟩, ⟨true, 0x01⟩, ⟨true, 0x3F⟩]) = .ok (.caset 0 319) := by
  decide

theorem test_decode_refuses :
    decode (.wire [⟨false, 0x2E⟩]) = .error (.unknownOpcode 0x2E) ∧
    decode (.wire [⟨false, 0x3A⟩]) = .error (.wrongParameterCount 0x3A) ∧
    decode (.wire [⟨true, 0x3A⟩]) = .error .noCommandByte ∧
    decode (.wire [⟨false, 0x29⟩, ⟨false, 0x11⟩]) = .error .strayCommandByte ∧
    decode (.host (blankRequest 0x8)) = .error (.reservedOp 0x8) ∧
    decode (.uop { label := 7, arg := 6, time := 0 }) = .error (.reservedDelay 6) := by
  decide

theorem test_table_words :
    decodeTableWord 8 0xB0 = some (.ifmode []) ∧ decodeTableWord 8 0xE0 = some (.pgamma (List.replicate 15 0)) ∧
    decodeTableWord 4 0x6 = some (.fillrect 0 0 0 0 0) ∧ decodeTableWord 3 0x6 = some (.wrdata16 0) ∧
    decodeTableWord 8 0x12 = none := by
  decide

-- ## Single steps

theorem test_sendbyte :
    holds (exec (.sendbyte 0x2A) idle) (fun t =>
      t.bus.txbuf == some 0x2A && !txe t && bsy t && t.trace == [.tx 0x2A]) = true := by
  decide +kernel

theorem test_sendbyte_waits :
    holds (exec (.sendbyte 0x34) loaded) (fun t =>
      t.bus.txbuf == some 0x34 && t.bus.shreg == some { value := 0x2A, bit := 7, dc := false }) = true := by
  decide +kernel

theorem test_waitidle :
    holds (exec .waitidle loaded) (fun t =>
      t.samples == [false, false, true, false, true, false, true, false] && t.trace == [.byte false 0x2A, .idle] &&
        !t.lines.sck) = true := by
  decide +kernel

theorem test_selstart :
    holds (exec .selstart idle) (fun t =>
      linkMode idle.lines == .idle && linkMode t.lines == .command && t.trace == [.sel false]) = true := by
  decide +kernel

theorem test_selend :
    holds (exec .selend (armed 0 0 1 1 0 0)) (fun t => t.lines.csN && t.trace == [.sel true] && !t.panel.sel) =
      true ∧
    exec .selend loaded = .refused .deselectWhileShifting :=
  ⟨by decide +kernel, rfl⟩

theorem test_wrcmd :
    holds (exec (.wrcmd 0x11) idle) (fun t =>
      t.trace == [.dcset false, .tx 0x11, .byte false 0x11, .idle] && !t.lines.dc) = true := by
  decide +kernel

theorem test_wrdata8 :
    holds (exec (.wrdata8 0x55) idle) (fun t =>
      t.trace == [.dcset true, .tx 0x55, .byte true 0x55, .idle] && t.lines.dc) = true := by
  decide +kernel

theorem test_wrdata16 :
    holds (exec (.wrdata16 0x013F) idle) (fun t =>
      wire t == [.byte true 0x01, .byte true 0x3F] && calls t == [.dcset true, .tx 0x01, .tx 0x3F, .idle]) = true := by
  decide +kernel

theorem test_delay :
    holds (exec (.delay .slpout) idle) (fun t => t.trace == [.wait 100000]) = true := by
  decide +kernel

theorem test_ifmode :
    holds (exec (.ifmode [0x12, 0x34]) idle) (fun t =>
      wire t == [.byte false 0xB0, .byte true 0x12, .byte true 0x34] && t.lines.dc) = true ∧
    holds (exec (.ifmode []) idle) (fun t => wire t == [.byte false 0xB0] && !t.lines.dc) = true := by
  decide +kernel

theorem test_slpout :
    holds (exec .slpout idle) (fun t =>
      t.trace == [.dcset false, .tx 0x11, .byte false 0x11, .idle, .wait 100000]) = true := by
  decide +kernel

theorem test_pixfmt :
    holds (exec (.pixfmt 0x55) idle) (fun t => wire t == [.byte false 0x3A, .byte true 0x55]) = true := by
  decide +kernel

theorem test_madctl :
    holds (exec (.madctl 0x28) idle) (fun t => wire t == [.byte false 0x36, .byte true 0x28]) = true := by
  decide +kernel

theorem test_pwctr3 :
    holds (exec (.pwctr3 0x44) idle) (fun t => wire t == [.byte false 0xC2, .byte true 0x44]) = true := by
  decide +kernel

theorem test_vmctr :
    holds (exec (.vmctr 0 1 2 3) idle) (fun t =>
      wire t == [.byte false 0xC5, .byte true 0, .byte true 1, .byte true 2, .byte true 3]) = true := by
  decide +kernel

theorem test_pgamma :
    holds (exec (.pgamma testCfg.gammaPos.toList) idle) (fun t =>
      (wire t).take 3 == [.byte false 0xE0, .byte true 1, .byte true 2] && (wire t).length == 16) = true := by
  decide +kernel

theorem test_ngamma :
    holds (exec (.ngamma testCfg.gammaNeg.toList) idle) (fun t =>
      (wire t).take 3 == [.byte false 0xE1, .byte true 16, .byte true 17] && (wire t).length == 16) = true := by
  decide +kernel

theorem test_dispon :
    holds (exec .dispon idle) (fun t => wire t == [.byte false 0x29, .wait 120000]) = true := by
  decide +kernel

theorem test_caset :
    holds (exec (.caset 0 319) (armed 5 5 6 6 5 5)) (fun t =>
      wire t == [.byte false 0x2A, .byte true 0, .byte true 0, .byte true 1, .byte true 0x3F] &&
        t.panel.sc == some 0 && t.panel.ec == some 319 && t.panel.ptr == .unspecified) = true := by
  decide +kernel

theorem test_paset :
    holds (exec (.paset 1 479) (armed 5 5 6 6 5 5)) (fun t =>
      wire t == [.byte false 0x2B, .byte true 0, .byte true 1, .byte true 1, .byte true 0xDF] &&
        t.panel.sp == some 1 && t.panel.ep == some 479) = true := by
  decide +kernel

theorem test_ramwr :
    holds (exec .ramwr (armed 5 6 7 8 7 8)) (fun t =>
      calls t == [.dcset false, .tx 0x2C, .idle] && t.panel.ptr == .cell 5 6) = true := by
  decide +kernel

theorem test_init :
    holds (exec .init atReset) (fun t =>
      (wire t).take 9 == [.rst true, .wait 5, .rst false, .wait 20, .rst true, .wait 200, .sel false, .byte false 0xB0,
          .byte true 0] &&
        (wire t).drop 54 == [.byte false 0x29, .wait 120000, .sel true] && (byteValues t.trace).length == 47 &&
        t.initState == .initialized && t.status == 0 && !t.busy && t.lines.csN && t.lines.rstN && !t.lines.dc) = true := by
  decide +kernel

theorem test_init_twice :
    holds (exec .init idle) (fun t => t.trace == [] && t.status == 4 && t.initState == .initialized) = true := by
  decide +kernel

theorem test_setwin :
    holds (exec (.setwin 0 0 319 479) ready) (fun t =>
      wire t == [.sel false, .byte false 0x2A, .byte true 0, .byte true 0, .byte true 1, .byte true 0x3F, .byte false 0x2B,
          .byte true 0, .byte true 0, .byte true 1, .byte true 0xDF, .byte false 0x2C, .sel true] &&
        t.regs.x1 == 319 && t.regs.y1 == 479 && t.panel.ptr == .cell 0 0 && !t.lines.dc) = true := by
  decide +kernel

theorem test_setwin_unchecked :
    holds (exec (.setwin 5 0 2 0) ready) (fun t => t.status == 0 && (byteValues t.trace).length == 11 && !t.panel.ok) = true ∧
    holds (exec (.setwin 0 0 320 479) ready) (fun t => t.status == 0 && !t.panel.ok) = true := by
  decide +kernel

theorem test_streamfill :
    holds (exec (.streamfill 2 0xA1B2) idle) (fun t =>
      calls t == [.sel false, .dcset true, .tx 0xA1, .tx 0xB2, .tx 0xA1, .tx 0xB2, .idle, .sel true] &&
        t.regs.count == 2 && t.regs.idx == 2 && t.regs.color == 0xA1B2 && t.lines.dc) = true := by
  decide +kernel

theorem test_streamfill_none :
    holds (exec (.streamfill 0 0x1234) idle) (fun t =>
      t.trace == [.sel false, .dcset true, .idle, .sel true] && t.status == 0) = true := by
  decide +kernel

theorem test_streambuf :
    holds (exec (.streambuf [0x1234, 0xABCD]) idle) (fun t =>
      wire t == [.sel false, .byte true 0x12, .byte true 0x34, .byte true 0xAB, .byte true 0xCD, .sel true]) = true := by
  decide +kernel

theorem test_streambuf_lands :
    holds (exec (.streambuf [0xA, 0xB, 0xC]) (armed 0 0 1 1 0 0)) (fun t =>
      t.panel.gram.read 0 0 == some 0xA && t.panel.gram.read 1 0 == some 0xB && t.panel.gram.read 0 1 == some 0xC &&
        t.panel.ptr == .cell 1 1) = true := by
  decide +kernel

theorem test_drawpixel :
    holds (exec (.drawpixel 319 479 0xFFFF) ready) (fun t =>
      wire t == [.sel false, .byte false 0x2A, .byte true 1, .byte true 0x3F, .byte true 1, .byte true 0x3F,
          .byte false 0x2B, .byte true 1, .byte true 0xDF, .byte true 1, .byte true 0xDF, .byte false 0x2C, .sel true,
          .sel false, .byte true 0xFF, .byte true 0xFF, .sel true] &&
        t.panel.gram == [(153599, 0xFFFF)] && t.panel.ptr == .pastEnd) = true := by
  decide +kernel

theorem test_drawpixel_off :
    holds (exec (.drawpixel 320 479 0xFFFF) idle) (fun t => t.trace == [] && t.status == 1 && t.regs.px == 320) = true ∧
    holds (exec (.drawpixel 0 480 0x1234) idle) (fun t => t.trace == [] && t.status == 1 && t.regs.color == 0x1234) = true := by
  decide +kernel

theorem test_fillrect :
    holds (exec (.fillrect 318 478 5 5 0x07E0) ready) (fun t =>
      t.regs.cw == 2 && t.regs.ch == 2 && t.regs.x1 == 319 && t.regs.y1 == 479 && t.regs.count == 4 &&
        (byteValues t.trace).length == 19 && t.panel.gram ==
          [(cellIndex 318 478, 0x07E0), (cellIndex 319 478, 0x07E0), (cellIndex 318 479, 0x07E0),
            (cellIndex 319 479, 0x07E0)]) = true := by
  decide +kernel

theorem test_fillrect_empty :
    holds (exec (.fillrect 5 5 0 7 1) idle) (fun t => t.trace == [] && t.status == 2) = true ∧
    holds (exec (.fillrect 320 0 0 0 1) idle) (fun t => t.trace == [] && t.status == 1) = true := by
  decide +kernel

theorem test_drawimage :
    holds (exec (.drawimage 318 0 3 2 [0xA00, 0xA01, 0xA02, 0xA03, 0xA04, 0xA05]) ready) (fun t =>
      t.panel.gram ==
        [(cellIndex 318 0, 0xA00), (cellIndex 319 0, 0xA01), (cellIndex 318 1, 0xA03), (cellIndex 319 1, 0xA04)]) = true := by
  decide +kernel

theorem test_drawimage_modes :
    holds (exec (.drawimage 318 0 3 2 [0xA00, 0xA01, 0xA02, 0xA03, 0xA04, 0xA05])
      { ready with cfg := { testCfg with blitClipMode := .referenceContiguous } }) (fun t =>
        t.panel.gram ==
          [(cellIndex 318 0, 0xA00), (cellIndex 319 0, 0xA01), (cellIndex 318 1, 0xA02), (cellIndex 319 1, 0xA03)]) =
      true ∧
    holds (exec (.drawimage 318 0 3 2 [0, 1, 2, 3, 4]) { idle with cfg := { testCfg with blitClipMode := .reject } })
      (fun t => t.trace == [] && t.status == 1) = true ∧
    holds (exec (.drawimage 318 0 3 2 [0, 1, 2, 3, 4]) idle) (fun t => t.trace == [] && t.status == 5) = true := by
  decide +kernel

theorem test_bad_op :
    holds (stepWith (.call (.host (blankRequest 0x9))) { idle with fault := true }) (fun t => t.status == 7) = true := by
  decide +kernel

theorem test_not_initialized :
    holds (exec (.fillrect 0 0 0 0 1) atReset) (fun t => t.trace == [] && t.status == 3) = true := by
  decide +kernel

theorem test_bus_timeout :
    holds (exec (.streamfill 1 0) { idle with fault := true }) (fun t => t.status == 6) = true ∧
    holds (exec .waitidle bounded) (fun t => t.status == 6 && t.fault && t.bus.txbuf == some 0x2A) = true := by
  decide +kernel

theorem test_overflow_wraps :
    (Panel.feed .wrapToWindowStart (armed 0 0 1 1 0 0).panel ([0, 1, 2, 3, 4].flatMap pixelWire)).gram =
      [(cellIndex 0 0, 4), (cellIndex 1 0, 1), (cellIndex 0 1, 2), (cellIndex 1 1, 3)] ∧
    (Panel.feed .unspecified (armed 0 0 1 1 0 0).panel ([0, 1, 2, 3, 4].flatMap pixelWire)).ok = false := by
  decide +kernel

theorem test_settling_is_owed :
    (Panel.feed .unspecified { readyPanel with sel := true } [.byte false 0x11, .wait 50000, .byte false 0x3A]).ok = false ∧
    (Panel.feed .unspecified readyPanel [.rst false, .rst true]).ok = false := by
  decide +kernel

theorem test_move_by_move :
    holds (steps 4 { idle with inputs := [.submit (.host { blankRequest 0x3 with count := 1, color := 0xA1B2 }), .sequencer,
        .sequencer, .sequencer] }) (fun t =>
      t.busy && t.trace == [.sel false, .dcset true] &&
        t.seq.todo == [.send .colorHi, .send .colorLo, .nextPixel, .fillLoop, .awaitIdle, .select true]) = true := by
  decide +kernel

/-- 95_test_vectors.md TV-O5, its last pixel. -/
theorem test_wrdata16_past_end :
    holds (exec (.wrdata16 0x0004) (armedPast 0 0 1 1 .unspecified)) (fun t => !t.panel.ok) = true ∧
    holds (exec (.wrdata16 0x0004) (armedPast 0 0 1 1 .wrapToWindowStart)) (fun t =>
      t.panel.gram.read 0 0 == some 0x0004 && t.panel.ptr == .cell 1 0) = true :=
  ⟨by decide +kernel, by decide +kernel⟩

/-- 46_panel_observer.md R215: the picture shows a written cell, and nothing of a poisoned observer. -/
theorem test_picture :
    holds (exec (.wrdata16 0xF800) (armed 0 0 1 1 1 0)) (fun t =>
      t.panel.picture 1 0 == some 0xF800 && t.panel.picture 0 0 == none && t.panel.poison.picture 1 0 == none) = true := by
  decide +kernel

-- ## The hypotheses of the statements can be met

theorem test_hyp_DecodeEncodeRoundTrip :
    Instr.wellFormed (.pgamma (List.replicate 15 0xFF)) = true ∧ Instr.wellFormed (.streambuf []) = true := by decide

theorem test_hyp_DecodedIsWellFormedAndUnique :
    ∃ e i b, decode e = .ok i ∧ e = .wire b :=
  ⟨_, .caset 0 319, _, test_decode_caset_bytes, rfl⟩

theorem test_hyp_TransactionIsSelfDelimiting :
    ∃ (i : Instr) (b rest : List WireByte), encode i = .wire b ∧ rest ≠ [] ∧ ∀ n ∈ rest.head?, n.dc = false :=
  ⟨.pixfmt 0x55, _, [⟨false, 0x11⟩, ⟨true, 0⟩], rfl, by decide, by decide⟩

theorem test_hyp_UnusedOperandFieldsAreIgnored :
    ∀ op ∈ ([0x1, 0x2, 0x3, 0x4, 0x5, 0x6, 0x7] : List (BitVec 4)), ∃ r q : HostRequest, r.op = op ∧ r.op = q.op ∧
      (op = 0x1 → r ≠ q) ∧ (op = 0x2 → r.color ≠ q.color) ∧ (op = 0x3 → r.a0 ≠ q.a0) ∧ (op = 0x4 → r.count ≠ q.count) ∧
      (op = 0x5 → r.a2 ≠ q.a2 ∧ r.a0 = q.a0) ∧ (op = 0x6 → r.count ≠ q.count) ∧ (op = 0x7 → r.color ≠ q.color) := by
  intro op _
  exact ⟨{ blankRequest op with a0 := if op = 0x3 then 1 else 0, a2 := if op = 0x5 then 1 else 0, color := 1, count := 1 },
    blankRequest op, rfl, rfl, by rintro rfl; decide, by rintro rfl; decide, by rintro rfl; decide, by rintro rfl; decide,
    by rintro rfl; decide, by rintro rfl; decide, by rintro rfl; decide⟩

theorem test_hyp_ReservedHostCodeEndsWithBadOp :
    idle.busy = false ∧ ((blankRequest 0x0).op = 0x0 ∨ 0x8 ≤ (blankRequest 0x0).op) ∧
      ((blankRequest 0x8).op = 0x0 ∨ 0x8 ≤ (blankRequest 0x8).op) ∧ ((blankRequest 0xF).op = 0x0 ∨ 0x8 ≤ (blankRequest 0xF).op) := by decide

theorem test_hyp_StepRunsThePresentedInstruction :
    idle.busy = false ∧ midway.busy = true ∧ (∃ e i, decode e = .ok i) ∧
      (∃ e x, decode e = .error x ∧ ∀ op, x ≠ .reservedOp op) ∧ ∃ nbits w i, decodeTableWord nbits w = some i :=
  ⟨rfl, rfl, ⟨_, _, test_decode_slpout⟩, ⟨.wire [], .noCommandByte, rfl, by simp⟩, ⟨8, 0x11, .slpout, by decide⟩⟩

theorem test_hyp_AcceptanceLatchesAndSetsBusy :
    (idle.busy = false ∧ idle.fault = false ∧ idle.initState = .initialized) ∧
      (atReset.busy = false ∧ atReset.fault = false ∧ atReset.initState = .uninit) ∧
      ([.init, .setwin 5 0 2 0, .streamfill 0 1, .streambuf [7], .drawpixel 319 479 1, .fillrect 319 479 1 2 3,
          .drawimage 319 479 2 2 [1, 2, 3, 4]] : List Instr).all (fun i => decode (encode i) = .ok i) = true ∧
      ([7] : List U16).length < 2 ^ 32 ∧ (319 : U16).toNat < 320 ∧ (479 : U16).toNat < 480 ∧ (1 : U16) ≠ 0 ∧ (2 : U16) ≠ 0 ∧
      (2 : U16).toNat * (2 : U16).toNat ≤ ([1, 2, 3, 4] : List U16).length ∧ idle.cfg.blitClipMode = .strideCrop := by
  decide

theorem test_hyp_TransportLoadsAndShifts :
    loaded.bus = { txbuf := some 0x2A, shreg := none } ∧
      (∃ r, lastBit.bus.shreg = some r ∧ r.bit.val = 0) ∧
      ∃ (s : State) (r : ShiftReg), s.bus.shreg = some r ∧ 0 < r.bit.val ∧ r.bit = 7 :=
  ⟨rfl, ⟨_, rfl, rfl⟩, { idle with bus := { txbuf := some 1, shreg := some { value := 0x80, bit := 7, dc := true } } }, _, rfl, by decide, rfl⟩

theorem test_hyp_TransportKeepsOrderAndDrains :
    (17 : Nat) ≤ 17 := by decide

theorem test_hyp_SendbyteEnqueuesTheByte :
    loaded.cfg.busTimeout = none ∧ loaded.bus ≠ Transport.empty := by decide

theorem test_hyp_WaitidleDrainsTheTransport :
    (loaded.cfg.busTimeout = none ∧ loaded.bus ≠ Transport.empty) ∧ idle.bus = Transport.empty ∧ idle.sched = [] := by decide

theorem test_hyp_SelectMovesOneLine :
    bsy idle = false ∧ bsy loaded = true ∧ bsy lastBit = true := by decide

/-- For WrcmdSendsOneCommandByte, Wrdata8SendsOneDataByte, Wrdata16SendsHighByteFirst, ParameterCommandsSendTheirBytes,
SettlingCommandsWaitAfterTheByte and AddressCommandsSendStartThenEnd. -/
theorem test_hyp_FramingPrimitives :
    BusFree idle ∧ BusFree ready := by decide

theorem test_hyp_Wrdata16StoresOnePixel :
    (BusFree (armed 318 478 319 479 319 479) ∧ PanelReady (armed 318 478 319 479 319 479).panel ∧
      (armed 318 478 319 479 319 479).panel.sel = true ∧
      (armed 318 478 319 479 319 479).panel.armedAt 318 478 319 479 319 479 ∧
      (319 : U16).toNat < WIDTH ∧ (479 : U16).toNat < HEIGHT) ∧
    (armed 0 0 319 479 0 0).panel.armedAt 0 0 319 479 0 0 ∧
    (armed 0 0 319 479 319 0).panel.armedAt 0 0 319 479 319 0 := by
  simp only [PanelReady, Panel.armedAt, Panel.armed]
  decide

/-- For the clause past the window's end, with both values of `PANEL_WRAP`. -/
theorem test_hyp_Wrdata16PastTheEnd :
    (BusFree (armedPast 0 0 1 1 .unspecified) ∧ PanelReady (armedPast 0 0 1 1 .unspecified).panel ∧
      (armedPast 0 0 1 1 .unspecified).panel.sel = true ∧
      (armedPast 0 0 1 1 .unspecified).panel.armed 0 0 1 1 .pastEnd) ∧
    BusFree (armedPast 319 479 319 479 .wrapToWindowStart) ∧
    PanelReady (armedPast 319 479 319 479 .wrapToWindowStart).panel ∧
    (armedPast 319 479 319 479 .wrapToWindowStart).panel.armed 319 479 319 479 .pastEnd ∧
    (319 : U16).toNat < WIDTH ∧ (479 : U16).toNat < HEIGHT := by
  simp only [PanelReady, Panel.armed]
  decide

theorem test_hyp_FramedInstructionsNeedTheBusIdle :
    bsy loaded = true ∧ Instr.layer .ramwr = .wire := by decide

theorem test_hyp_BoundedWaitRunsOut :
    bounded.cfg.busTimeout = some 2 ∧ bounded.sched = [] ∧ bsy bounded = true ∧ txe bounded = false ∧
      ∃ s : State, s.cfg.busTimeout = some 2 ∧ s.busy = true ∧ s.seq.todo = .send (.lit 0x11) :: [.awaitIdle] ∧
        txe s = false ∧ 2 ≤ s.waits ∧ txe { s with waits := 1 } = false ∧ ¬2 ≤ ({ s with waits := 1 } : State).waits :=
  ⟨rfl, rfl, rfl, rfl,
    { bounded with busy := true, seq := { op := some .init, todo := [.send (.lit 0x11), .awaitIdle] }, waits := 2 },
    rfl, rfl, rfl, rfl, by decide, rfl, by decide⟩

/-- For the clause of BoundedWaitRunsOut on a `waitIdle` taken move by move: its last failed test, and one before it. -/
theorem test_hyp_BoundedIdleWait :
    ∀ k ∈ [1, 2], ∃ s : State, s.cfg.busTimeout = some 2 ∧ s.busy = true ∧ s.seq.todo = .awaitIdle :: [.select true] ∧
      bsy s = true ∧ s.waits = k :=
  fun k _ => ⟨{ bounded with busy := true, seq := { op := some .init, todo := [.awaitIdle, .select true] }, waits := k },
    rfl, rfl, rfl, rfl, rfl⟩

theorem test_hyp_OnlyABoundedWaitLatchesFault :
    (∃ t, exec .waitidle bounded = .next t ∧ t.fault ≠ bounded.fault) ∧ ∃ t, exec .waitidle loaded = .next t :=
  ⟨⟨_, rfl, by decide⟩, ⟨_, rfl⟩⟩

theorem test_hyp_WireCommandsStoreNoPixel :
    (armed 0 0 1 1 0 0).bus = Transport.empty ∧
      ∃ t, exec .ramwr (armed 0 0 1 1 0 0) = .next t ∧ t.panel.ok = true :=
  ⟨rfl, _, rfl, by decide +kernel⟩

/-- For InitOrdersSleepOutFormatDisplayOn and InitMakesThePanelReady too. -/
theorem test_hyp_InitRunsTheWholeSequence :
    CanRun atReset ∧ atReset.fault = false ∧ atReset.initState = .uninit ∧ atReset.cfg.WithinBounds ∧
      atReset.panel.settle = 0 := by decide

theorem test_hyp_SecondInitOnlyReports :
    idle.busy = false ∧ idle.fault = false ∧ idle.initState = .initialized := by decide

/-- For SetwinSendsTheWindowBracket, StreamfillRepeatsTheColour, StreamingInTwoPartsIsOneStream,
FillrectClippingIsIdempotent and, with the operands below, every other statement about requests in service. -/
theorem test_hyp_InService :
    InService ready ∧ PanelReady ready.panel ∧ ready.panel.pulse = .quiet := by
  simp only [PanelReady]
  decide

/-- With the state of `test_hyp_InService`, for both clauses at their bounds. -/
theorem test_hyp_SetwinArmsThePanelOrPoisonsIt :
    ((0 : U16).toNat ≤ (319 : U16).toNat ∧ (319 : U16).toNat ≤ 319 ∧ (0 : U16).toNat ≤ (479 : U16).toNat ∧ (479 : U16).toNat ≤ 479) ∧
      ¬((0 : U16).toNat ≤ (320 : U16).toNat ∧ (320 : U16).toNat ≤ 319) ∧
      ¬((479 : U16).toNat ≤ (480 : U16).toNat ∧ (480 : U16).toNat ≤ 479) ∧ ¬(5 : U16).toNat ≤ (2 : U16).toNat := by decide

/-- With the state of `test_hyp_InService`; for StreamingInTwoPartsIsOneStream too. -/
theorem test_hyp_StreambufSendsTheSequence :
    ([0x1234, 0xABCD] : List U16).length < 2 ^ 32 ∧ (([1] : List U16) ++ [2]).length < 2 ^ 32 := by decide

/-- With the state of `test_hyp_InService`, for both clauses. -/
theorem test_hyp_StreamedPixelsLandInScanOrder :
    (318 : U16).toNat ≤ (319 : U16).toNat ∧ (319 : U16).toNat ≤ 319 ∧ (479 : U16).toNat ≤ (479 : U16).toNat ∧
      (479 : U16).toNat ≤ 479 ∧
      ([1, 2] : List U16).length ≤ ((319 : U16).toNat - (318 : U16).toNat + 1) * ((479 : U16).toNat - (479 : U16).toNat + 1) ∧
      (((319 : U16).toNat - (318 : U16).toNat + 1) * ((479 : U16).toNat - (479 : U16).toNat + 1) <
          ([1, 2, 3] : List U16).length ∧ ready.cfg.panelWrap = .unspecified) ∧
      ([1, 2] : List U16)[1]? = some 2 ∧ ∀ n, n < 2 → (0 : Nat) ≠ 318 + n % 2 ∨ (0 : Nat) ≠ 479 + n / 2 :=
  ⟨by decide, by decide, by decide, by decide, by decide, by decide, by decide, fun n _ => .inl (by omega)⟩

/-- With the state of `test_hyp_InService`, for DrawpixelSendsOnePixel, FillrectFillsTheClippedRegion,
DrawimageStreamsTheGatheredPixels (clipped in the default mode, and not clipped in mode `REJECT`),
ClippedRegionStaysOnThePanel, FilledRectangleHoldsTheColour and DrawimagePaintsItsPicture. -/
theorem test_hyp_RasterInBounds :
    (319 : U16).toNat < 320 ∧ (479 : U16).toNat < 480 ∧ (5 : U16) ≠ 0 ∧
      (2 : U16).toNat * (2 : U16).toNat ≤ ([1, 2, 3, 4] : List U16).length ∧
      ({ testCfg with blitClipMode := .reject } : Config).blitClipMode = .reject ∧
      clipWidth 318 2 = 2 ∧ clipHeight 478 2 = 2 ∧ testCfg.blitClipMode = .strideCrop ∧ clipWidth 319 2 ≠ 2 := by decide

theorem test_hyp_GatherPicksByMode :
    (2 : U16).toNat ≤ (3 : U16).toNat ∧ (2 : U16).toNat ≤ (2 : U16).toNat ∧
      (3 : U16).toNat * (2 : U16).toNat ≤ ([0, 1, 2, 3, 4, 5] : List U16).length ∧ BlitClipMode.strideCrop ≠ .referenceContiguous ∧
      (1 : Nat) < (2 : U16).toNat ∧ (3 : Nat) < (2 : U16).toNat * (2 : U16).toNat ∧ (1 : U16).toNat ≤ 1 := by decide

theorem test_hyp_OffPanelAnchorSendsNothing :
    idle.busy = false ∧ idle.fault = false ∧ idle.initState = .initialized ∧ 320 ≤ (320 : U16).toNat ∧ 480 ≤ (480 : U16).toNat := by decide

theorem test_hyp_BadRegionSendsNothing :
    ((0 : U16) = 0 ∨ (7 : U16) = 0) ∧ ¬((3 : U16) = 0 ∨ (2 : U16) = 0) ∧
      ({ testCfg with blitClipMode := .reject } : Config).blitClipMode = .reject ∧
      (clipWidth 318 3 ≠ 3 ∨ clipHeight 0 2 ≠ 2) ∧ (clipWidth 317 3 = 3 ∧ clipHeight 0 2 = 2) ∧
      ([1, 2, 3, 4, 5] : List U16).length < (3 : U16).toNat * (2 : U16).toNat := by decide

theorem test_hyp_UninitializedOperationsEndAtOnce :
    atReset.busy = false ∧ atReset.fault = false ∧ atReset.initState = .uninit ∧
      Instr.layer (.drawpixel 320 0 0) = .host ∧ Instr.drawpixel 320 0 0 ≠ .init := by decide

theorem test_hyp_LatchedFaultEndsEveryRequest :
    ∃ s : State, s.busy = false ∧ s.fault = true ∧ Instr.layer .init = .host :=
  ⟨{ idle with fault := true }, by decide⟩

theorem test_hyp_PoisonLastsUntilAHardwareReset :
    readyPanel.poison.ok = false ∧ readyPanel.poison.pulse = .quiet ∧
      Event.rst false ∉ [.rst true, .wait 100, .byte false 0x29] := by decide

theorem test_hyp_StepKeepsObserverOnWire :
    ∃ s t, ObserverFollowsWire s ∧ step s = .next t ∧ t.trace ≠ s.trace :=
  ⟨{ lastBit with inputs := [.transport] }, _, ⟨0, rfl⟩, rfl, by decide +kernel⟩

theorem test_hyp_StepKeepsPanelInside :
    ∃ s t, PanelInside s.panel ∧ step s = .next t ∧ t.panel.gram ≠ s.panel.gram := by
  refine ⟨{ armed 318 479 319 479 319 479 with
    bus := { txbuf := none, shreg := some { value := 0x2B, bit := 0, dc := true } }
    panel := { (armed 318 479 319 479 319 479).panel with half := some 0x2B }, inputs := [.transport] }, _, ?_, rfl, ?_⟩
  · exact ⟨⟨by decide, by decide⟩, ⟨by decide, by decide⟩, ⟨by decide, by decide⟩, by decide, by decide, by decide⟩
  · decide +kernel

theorem test_hyp_StepKeepsLinesAndBytes :
    ∃ s t, step s = .next t ∧ LinesDisciplined s ∧ BytesAccountedFor s ∧ bsy s = true := by
  refine ⟨{ loaded with trace := [.tx 0x2A], inputs := [.transport] }, _, rfl, ⟨?_, rfl⟩, ⟨by decide, by decide⟩, by decide⟩
  intro r hr
  cases hr

theorem test_hyp_StepKeepsControlLegal :
    ∃ s t, ControlLegal s ∧ step s = .next t ∧ s.busy = true :=
  ⟨{ midway with inputs := [.sequencer] }, _, ⟨by decide, by decide⟩, rfl, rfl⟩

theorem test_hyp_OnlyResetUndoesInitAndFault :
    (∃ s t, step s = .next t ∧ s.inputs.head? ≠ some .reset ∧ s.initState = .initialized ∧ s.fault = true) ∧
      ∃ t, exec .selstart idle = .next t :=
  ⟨⟨{ idle with fault := true, inputs := [.transport] }, _, rfl, by decide, rfl, rfl⟩, ⟨_, rfl⟩⟩

/-- For HostOperationsEndBetween and HostOperationsSendOnlyTheTwelveOpcodes. -/
theorem test_hyp_HostOperations :
    ∃ t, Instr.layer (.streamfill 1 0xA1B2) = .host ∧ Between idle ∧ exec (.streamfill 1 0xA1B2) idle = .next t ∧
      t.fault = false ∧ idle.bus = Transport.empty :=
  ⟨_, rfl, by decide, rfl, by decide +kernel, rfl⟩

/-- For SubmittedRequestEndsByItself too. -/
theorem test_hyp_CallIsARunOfMoves :
    ∃ e t, Instr.layer (.streamfill 1 0xA1B2) = .host ∧ decode e = .ok (.streamfill 1 0xA1B2) ∧ CanRun idle ∧
      exec (.streamfill 1 0xA1B2) { idle with inputs := [] } = .next t :=
  ⟨.host { blankRequest 0x3 with count := 1, color := 0xA1B2 }, _, rfl, by decide, by decide, rfl⟩

theorem test_hyp_InterleavingDoesNotReachTheWire :
    ∃ (e : Encoded) (script : List Input) (t u : State), Instr.layer (.drawpixel 320 0 1) = .host ∧
      decode e = .ok (.drawpixel 320 0 1) ∧ CanRun idle ∧ exec (.drawpixel 320 0 1) { idle with inputs := [] } = .next t ∧
      (∀ m ∈ script, m.isMove = true) ∧ steps (script.length + 1) { idle with inputs := .submit e :: script } = .next u ∧
      u.busy = false :=
  ⟨.host { blankRequest 0x5 with a0 := 320, color := 1 }, [.transport, .sequencer], _, _, rfl, by decide, by decide, rfl, by decide, rfl,
    by decide⟩

/-- For the clause of InterleavingDoesNotReachTheWire on bounded waits, with a request that reads the source. -/
theorem test_hyp_InterleavingBounded :
    ∃ (s : State) (e : Encoded) (script : List Input), decode e = .ok (.streambuf [0x1234]) ∧ s.busy = false ∧
      s.bus = Transport.empty ∧ s.cfg.busTimeout = some 2 ∧ s.initState = .initialized ∧ s.fault = false ∧
      script.length = 4 ∧ ∀ m ∈ script, m.isMove = true :=
  ⟨{ bounded with bus := Transport.empty }, .host { blankRequest 0x4 with src := [0x1234] },
    [.sequencer, .sequencer, .sequencer, .transport], by decide, rfl, rfl, rfl, rfl, rfl, rfl, by decide⟩

/-- A script that runs a whole request, for InterleavingDoesNotReachTheWire. -/
theorem test_hyp_InterleavedStream :
    ∃ (e : Encoded) (script : List Input) (u : State), (∀ m ∈ script, m.isMove = true) ∧
      decode e = .ok (.streamfill 0 0x1234) ∧ steps (script.length + 1) { idle with inputs := .submit e :: script } = .next u ∧
      u.busy = false :=
  ⟨.host { blankRequest 0x3 with color := 0x1234 }, [.sequencer, .transport, .sequencer, .sequencer, .sequencer, .sequencer, .sequencer],
    _, by decide, by decide, rfl, by decide +kernel⟩

end Sys2Proof.Tests
end

section
/-! The transport's load step and shift step (40_transport.md section 2): what a move does with what the two stages hold. -/

namespace Sys2Proof.Machine

theorem step_transport (s : State) (rest : List Input) :
    step { s with inputs := .transport :: rest } = .next (txMove { s with inputs := rest }) := rfl

theorem txMove_of_waiting {s : State} {v : Byte} (h : s.bus = { txbuf := some v, shreg := none }) :
    txMove s = loadStep v s := by
  simp [txMove, h]

theorem txMove_of_shifting {s : State} {r : ShiftReg} (h : s.bus.shreg = some r) : txMove s = shiftStep r s := by
  simp [txMove, h]

/-- Every shift step samples the register's next bit (40_transport.md R133). -/
theorem shiftStep_samples (r : ShiftReg) (s : State) :
    (shiftStep r s).samples = s.samples ++ [r.value.getLsbD r.bit.val] := by
  by_cases hb : r.bit = 0
  · simp [shiftStep_last hb, hb]
  · simp [shiftStep_more hb]

/-- Every shift step ends with `SCK` low and the sampled bit still on `MOSI`, the other lines as they were. -/
theorem shiftStep_lines (r : ShiftReg) (s : State) :
    (shiftStep r s).lines = { s.lines with sck := false, mosi := r.value.getLsbD r.bit.val } := by
  by_cases hb : r.bit = 0
  · simp [shiftStep_last hb, hb]
  · simp [shiftStep_more hb]

theorem shiftStep_txbuf (r : ShiftReg) (s : State) : (shiftStep r s).bus.txbuf = s.bus.txbuf := by
  by_cases hb : r.bit = 0
  · simp [shiftStep_last hb]
  · simp [shiftStep_more hb]

/-- A shift moves the register to the next lower bit. -/
theorem shifted_bit_succ {r : ShiftReg} (h : 0 < r.bit.val) : (shifted r).bit.val + 1 = r.bit.val := by
  have hle : (1 : Fin 8) ≤ r.bit := h
  have hsub : (r.bit - 1).val = r.bit.val - 1 := Fin.sub_val_of_le hle
  change (r.bit - 1).val + 1 = r.bit.val
  omega

/-- With a bit still to go after this one the same byte stays in the register and the panel hears nothing. -/
theorem shiftStep_keeps_byte {r : ShiftReg} (h : 0 < r.bit.val) (s : State) :
    (∃ q, (shiftStep r s).bus.shreg = some q ∧ q.value = r.value ∧ q.dc = r.dc ∧ q.bit.val + 1 = r.bit.val) ∧
      (shiftStep r s).trace = s.trace ∧ (shiftStep r s).panel = s.panel := by
  have hb : r.bit ≠ 0 := fun h0 => by simp [h0] at h
  rw [shiftStep_more hb]
  exact ⟨⟨shifted r, rfl, rfl, rfl, shifted_bit_succ h⟩, rfl, rfl⟩

/-- With its last bit the byte is complete: the register is free and the panel hears the byte (40_transport.md R134). -/
theorem shiftStep_completes_byte {r : ShiftReg} (h : r.bit.val = 0) (s : State) :
    (shiftStep r s).bus.shreg = none ∧ (shiftStep r s).trace = s.trace ++ [.byte r.dc r.value] ∧
      (shiftStep r s).panel = s.panel.onByte s.cfg.panelWrap r.dc r.value := by
  rw [shiftStep_last (Fin.ext h)]
  exact ⟨rfl, rfl, rfl⟩

/-- Settles O9: the step is the transport's move, which loads when the register is inactive and shifts when it is not. -/
theorem transportLoadsAndShifts : Obligations.TransportLoadsAndShifts := by
  intro s rest
  constructor
  · intro v hv
    have hmove : txMove { s with inputs := rest } = loadStep v { s with inputs := rest } := txMove_of_waiting hv
    rw [step_transport, hmove]
    rfl
  · intro r hr
    have hmove : txMove { s with inputs := rest } = shiftStep r { s with inputs := rest } := txMove_of_shifting hr
    have hframe : SameControl { s with inputs := rest } (shiftStep r { s with inputs := rest }) :=
      hmove ▸ (txMove_frame { s with inputs := rest }).toSameControl
    rw [step_transport, hmove]
    exact ⟨_, rfl, shiftStep_samples r _, shiftStep_lines r _, shiftStep_txbuf r _, fun h => shiftStep_keeps_byte h _,
      fun h => shiftStep_completes_byte h _, hframe⟩

end Sys2Proof.Machine
end

section
/-! The select line by its two micro-operations issued alone (41_framing.md R140, R141). -/

namespace Sys2Proof.Machine

/-- A select entry waits for nothing, so a list of this one entry only drives the line. -/
theorem runList_select (b : Bool) (s : State) : runList [.select b] s = .ok (driveSelect b s) := rfl

/-- Driving `CS_n` appends one `SEL` event, which the observer hears, and touches no other part of the block. -/
theorem driveSelect_eq (b : Bool) (s : State) :
    driveSelect b s =
      { s with lines := { s.lines with csN := b }, trace := s.trace ++ [.sel b], panel := s.panel.onSel b } := rfl

/-- SELSTART looks at neither `CS_n` nor `BSY` (log 34). -/
theorem exec_selstart (s : State) : exec .selstart s = .next (driveSelect false s) := by
  change execSelstart s = _
  rw [execSelstart, runList_select, Flow.state]

/-- SELEND looks at `BSY` alone (93_implementation_defined.md U3). -/
theorem exec_selend (s : State) :
    exec .selend s = if bsy s then .refused .deselectWhileShifting else .next (driveSelect true s) := by
  change execSelend s = _
  rw [execSelend, runList_select, Flow.state]

/-- Settles O14: SELSTART always drives the line low; SELEND drives it high or is refused, by `BSY`. -/
theorem selectMovesOneLine : Obligations.SelectMovesOneLine := by
  intro s
  refine ⟨?_, fun hIdle => ?_, fun hShifting => ?_⟩
  · rw [exec_selstart, driveSelect_eq]
  · rw [exec_selend, hIdle, if_neg Bool.false_ne_true, driveSelect_eq]
  · rw [exec_selend, hShifting, if_pos rfl]

end Sys2Proof.Machine
end

section
/-! `initialize()` (42_initializer.md R150): the list it runs the first time, its report the second time, and the order of
three of its command bytes on the wire. -/

namespace Sys2Proof.Machine

/-- With no fault latched the first `initialize()` is accepted with its whole list (42_initializer.md R150). -/
theorem startInit_accepts {s : State} (hf : s.fault = false) (hi : s.initState = .uninit) :
    startInit s = accepted .init (initList s.cfg) s.regs s := by
  simp [startInit, hf, hi]

/-- With no fault latched a second `initialize()` ends at its check (42_initializer.md R165). -/
theorem startInit_reports {s : State} (hf : s.fault = false) (hi : s.initState = .initialized) :
    startInit s = raise STATUS_ALREADY_INITIALIZED s := by
  simp [startInit, hf, hi]

/-- Settles O26: the request is accepted, and what its list leaves is known from the list's own law. -/
theorem initRunsTheWholeSequence : Obligations.InitRunsTheWholeSequence := by
  intro s hrun hf hi
  have hidle : (accepted .init (initList s.cfg) s.regs s).bus = Transport.empty := hrun.2.1
  obtain ⟨hdisc, hend⟩ := disciplined_initList s.cfg
  exact runRequest_completed hrun (startInit_accepts hf hi) hdisc hend (ran_initList hidle)

/-- Settles O27: the check turns the request away before it is accepted. -/
theorem secondInitOnlyReports : Obligations.SecondInitOnlyReports :=
  fun s hb hf hi => runRequest_rejected (r := s.regs) hb (startInit_reports hf hi)

/-- The event is none of the three command bytes that 42_initializer.md R168 orders: sleep-out, pixel-format-set and
display-on. -/
abbrev Event.NotOrdered (e : Event) : Prop :=
  e ≠ .byte false OPC_SLPOUT ∧ e ≠ .byte false OPC_PIXFMT ∧ e ≠ .byte false OPC_DISPON

/-- What `initialize()` puts on the wire before the sleep-out byte. -/
def wireBeforeSleepOut (c : Config) : List Event :=
  resetPulseWire c ++ [.sel false] ++ parameterWire OPC_IFMODE c.ifmodeParams

/-- What `initialize()` puts on the wire between the pixel-format-set byte and the display-on byte. -/
def wireBetweenFormatAndDisplayOn (c : Config) : List Event :=
  dataWire [PIXFMT_PARAM] ++ parameterWire OPC_MADCTL [MADCTL_PARAM] ++ parameterWire OPC_PWCTR3 [PWCTR3_PARAM] ++
    parameterWire OPC_VMCTR VMCTR_PARAMS ++ parameterWire OPC_PGAMMA c.gammaPos.toList ++
    parameterWire OPC_NGAMMA c.gammaNeg.toList

/-- Pixel-format-set is the first byte after sleep-out's settling delay. -/
theorem initWire_eq_around_ordered (c : Config) :
    initWire c = wireBeforeSleepOut c ++ [.byte false OPC_SLPOUT, .wait c.tSlpout] ++ [] ++ [.byte false OPC_PIXFMT] ++
      wireBetweenFormatAndDisplayOn c ++ [.byte false OPC_DISPON, .wait c.tDispon, .sel true] := by
  simp [initWire, configurationWire, wireBeforeSleepOut, wireBetweenFormatAndDisplayOn, parameterWire, commandWire,
    OPC_IFMODE, OPC_SLPOUT, OPC_PIXFMT, OPC_MADCTL, OPC_PWCTR3, OPC_VMCTR, OPC_PGAMMA, OPC_NGAMMA, OPC_DISPON,
    PIXFMT_PARAM, MADCTL_PARAM, PWCTR3_PARAM, VMCTR_PARAMS]

/-- A data byte is no command byte, whatever its value. -/
theorem dataWire_notOrdered (vs : List Byte) : ∀ e ∈ dataWire vs, e.NotOrdered := by
  simp [dataWire, Event.NotOrdered]

theorem parameterWire_notOrdered {o : Byte} (h : (Event.byte false o).NotOrdered) (vs : List Byte) :
    ∀ e ∈ parameterWire o vs, e.NotOrdered :=
  List.forall_mem_append.2 ⟨List.forall_mem_singleton.2 h, dataWire_notOrdered vs⟩

theorem resetPulseWire_notOrdered (c : Config) : ∀ e ∈ resetPulseWire c, e.NotOrdered := by
  simp [resetPulseWire, Event.NotOrdered]

theorem wireBeforeSleepOut_notOrdered (c : Config) : ∀ e ∈ wireBeforeSleepOut c, e.NotOrdered := by
  simp only [wireBeforeSleepOut, List.forall_mem_append, List.forall_mem_singleton]
  exact ⟨⟨resetPulseWire_notOrdered c, by simp [Event.NotOrdered]⟩, parameterWire_notOrdered (by decide) _⟩

theorem wireBetweenFormatAndDisplayOn_notOrdered (c : Config) :
    ∀ e ∈ wireBetweenFormatAndDisplayOn c, e.NotOrdered := by
  simp only [wireBetweenFormatAndDisplayOn, List.forall_mem_append, and_assoc]
  refine ⟨dataWire_notOrdered _, ?_, ?_, ?_, ?_, ?_⟩ <;> exact parameterWire_notOrdered (by decide) _

/-- Settles O28: the wire trace of O26, cut at the three command bytes. -/
theorem initOrdersSleepOutFormatDisplayOn : Obligations.InitOrdersSleepOutFormatDisplayOn := by
  intro s hrun hf hi hbounds
  obtain ⟨t, ht, hdone, -, -⟩ := initRunsTheWholeSequence s hrun hf hi
  obtain ⟨-, -, -, hslpout, hdispon⟩ := hbounds
  refine ⟨t, wireBeforeSleepOut s.cfg, [], wireBetweenFormatAndDisplayOn s.cfg, ht, ?_, hslpout, hdispon, ?_⟩
  · rw [hdone.wire_eq, initWire_eq_around_ordered]
    simp only [List.append_assoc]
    rfl
  · rw [List.append_nil]
    exact List.forall_mem_append.2 ⟨wireBeforeSleepOut_notOrdered s.cfg, wireBetweenFormatAndDisplayOn_notOrdered s.cfg⟩

end Sys2Proof.Machine
end

section
/-! The three window commands issued alone (43_window.md R171 to R173): the two address commands are one argument over the
opcode, and memory-write is a command byte. -/

namespace Sys2Proof.Machine

/-- An address command issued alone, whatever its opcode: the command byte, then the two words of its range. -/
theorem runFramed_rangeList {s : State} (hs : BusFree s) (o : Byte) (a b : U16) :
    ∃ t, runFramed (rangeList o (.lit (hi a)) (.lit (lo a)) (.lit (hi b)) (.lit (lo b))) s = .next t ∧
      SentOnly s t true (rangeWire o a b) (rangeCalls o a b) := by
  obtain ⟨hdisc, hend⟩ := disciplined_rangeList o (.lit (hi a)) (.lit (lo a)) (.lit (hi b)) (.lit (lo b))
  obtain ⟨t, ht, hran⟩ := runFramed_ran hs hdisc hend (ran_rangeList o _ _ _ _ hs.1 a b rfl rfl rfl rfl)
  exact ⟨t, ht, hran.sentOnly⟩

/-- A command byte issued alone. -/
theorem runFramed_commandList {s : State} (hs : BusFree s) (o : Byte) :
    ∃ t, runFramed (commandList o) s = .next t ∧ SentOnly s t false (commandWire o) (frameCalls false [o]) := by
  obtain ⟨t, ht, hran⟩ := runFramed_ran hs (l := commandList o) rfl rfl (ran_commandList o hs.1)
  exact ⟨t, ht, hran.sentOnly⟩

/-- Settles O24: each command runs its list, and the wire and the calls written out are those of that list. -/
theorem addressCommandsSendStartThenEnd : Obligations.AddressCommandsSendStartThenEnd := by
  intro s hs
  refine ⟨fun a b => ?_, fun a b => ?_, ?_⟩
  · exact runFramed_rangeList hs OPC_CASET a b
  · exact runFramed_rangeList hs OPC_PASET a b
  · exact runFramed_commandList hs OPC_RAMWR

end Sys2Proof.Machine
end

section
/-! Clipping (45_raster.md R193). A column range and a page range are clipped by one argument, over the length of the axis. -/

namespace Sys2Proof.Machine

/-- A range that ends within 16 bits has its last position where the naturals put it. -/
theorem lastOf_toNat {a n : U16} (h : a.toNat + n.toNat ≤ 2 ^ 16) : (lastOf a n).toNat = a.toNat + n.toNat - 1 := by
  simp only [lastOf, BitVec.toNat_ofNat]
  omega

/-- An axis of `len` positions, an anchor `a` on it, a requested size `n`, and its clipped size `c`. -/
structure ClippedAxis (len : Nat) (a n c : U16) : Prop where
  len_le : len ≤ 2 ^ 16
  anchor_lt : a.toNat < len
  size_ne_zero : n ≠ 0
  clipped_eq : c.toNat = min n.toNat (len - a.toNat)

theorem clippedAxis_clipWidth {x w : U16} (hx : x.toNat < 320) (hw : w ≠ 0) : ClippedAxis 320 x w (clipWidth x w) :=
  ⟨by decide, hx, hw, clipWidth_toNat x w⟩

theorem clippedAxis_clipHeight {y h : U16} (hy : y.toNat < 480) (hh : h ≠ 0) : ClippedAxis 480 y h (clipHeight y h) :=
  ⟨by decide, hy, hh, clipHeight_toNat y h⟩

namespace ClippedAxis

variable {len : Nat} {a n c : U16} (hc : ClippedAxis len a n c)
include hc

theorem one_le : 1 ≤ c.toNat := by
  obtain ⟨-, ha, hn, hcl⟩ := hc
  have hn : n.toNat ≠ 0 := BitVec.toNat_ne_iff_ne.2 hn
  omega

theorem le_len : c.toNat ≤ len := by
  rw [hc.clipped_eq]
  exact (Nat.min_le_right _ _).trans (Nat.sub_le _ _)

theorem anchor_add_le : a.toNat + c.toNat ≤ len := by
  obtain ⟨-, ha, -, hcl⟩ := hc
  omega

theorem lastOf_eq : (lastOf a c).toNat = a.toNat + c.toNat - 1 :=
  lastOf_toNat (hc.anchor_add_le.trans hc.len_le)

theorem lastOf_le : (lastOf a c).toNat ≤ len - 1 := by
  rw [hc.lastOf_eq]
  exact Nat.sub_le_sub_right hc.anchor_add_le 1

theorem eq_of_fits (hfit : a.toNat + n.toNat ≤ len) : c = n := by
  apply BitVec.eq_of_toNat_eq
  rw [hc.clipped_eq, Nat.min_eq_left (Nat.le_sub_of_add_le' hfit)]

end ClippedAxis

/-- Settles O39: what holds of a clipped axis, for the columns and for the pages, and the product of their lengths. -/
theorem clippedRegionStaysOnThePanel : Obligations.ClippedRegionStaysOnThePanel := by
  intro x y w h hx hy hw hh
  have hcw := clippedAxis_clipWidth hx hw
  have hch := clippedAxis_clipHeight hy hh
  have harea : (mul32 (clipWidth x w) (clipHeight y h)).toNat ≤ 320 * 480 :=
    (mul32_toNat _ _).trans_le (Nat.mul_le_mul hcw.le_len hch.le_len)
  exact ⟨hcw.clipped_eq, hch.clipped_eq, hcw.one_le, hch.one_le, hcw.lastOf_eq, hch.lastOf_eq, hcw.lastOf_le, hch.lastOf_le,
    mul32_toNat _ _, harea, hcw.eq_of_fits, hch.eq_of_fits⟩

end Sys2Proof.Machine
end

section
/-! What every step keeps of the observer (46_panel_observer.md R200, R210, R211). Such a property speaks of the trace and
the observer alone, and those change by events alone. -/

namespace Sys2Proof.Machine

/-- A property of the parameters, the trace and the observer alone that every event keeps. -/
structure KeptByEvents (P : State → Prop) : Prop where
  emit : ∀ e s, P s → P (emit e s)
  unseen : ∀ s t : State, t.cfg = s.cfg → t.trace = s.trace → t.panel = s.panel → P s → P t

namespace KeptByEvents

variable {P : State → Prop} (hP : KeptByEvents P)
include hP

theorem shiftStep (r : ShiftReg) {s : State} (h : P s) : P (shiftStep r s) := by
  unfold Machine.shiftStep
  dsimp only
  split
  · exact hP.emit _ _ (hP.unseen s _ rfl rfl rfl h)
  · exact hP.unseen s _ rfl rfl rfl h

theorem txMove {s : State} (h : P s) : P (txMove s) := by
  rcases txMove_cases s with ⟨r, -, hm⟩ | ⟨v, -, -, hm⟩ | ⟨-, -, hm⟩ <;> rw [hm]
  · exact hP.shiftStep r h
  · exact hP.unseen s _ rfl rfl rfl h
  · exact h

/-- An entry takes effect by one event after changes that no event shows, or by such changes alone. -/
theorem effect (a : Atom) {s : State} (h : P s) : P (a.effect s) := by
  cases a with
  | config => exact hP.emit _ _ h
  | resetLine b => exact hP.emit _ _ (hP.unseen s _ rfl rfl rfl h)
  | hold t => exact hP.emit _ _ h
  | select b => exact hP.emit _ _ (hP.unseen s _ rfl rfl rfl h)
  | discriminate b => exact hP.emit _ _ (hP.unseen s _ rfl rfl rfl h)
  | send src => exact hP.emit _ _ (hP.unseen s _ rfl rfl rfl h)
  | awaitIdle => exact hP.emit _ _ h
  | _ => exact hP.unseen s _ rfl rfl rfl h

theorem keptByMoves : KeptByMoves P where
  move _ h := hP.txMove h
  sched s _ h := hP.unseen s _ rfl rfl rfl h
  effect a _ h _ _ := hP.effect a h
  registers s _ h := hP.unseen s _ rfl rfl rfl h
  raised _ s _ h := hP.unseen s _ rfl rfl rfl h
  faulted s h := hP.unseen s _ rfl rfl rfl h
  accepted _ _ s h := hP.unseen s _ rfl rfl rfl h
  waits s _ h := hP.unseen s _ rfl rfl rfl h
  advanced s _ _ h := hP.unseen s _ rfl rfl rfl h
  inputs s _ h := hP.unseen s _ rfl rfl rfl h

end KeptByEvents

theorem wire_emit (e : Event) (s : State) : wire (emit e s) = wire s ++ [e].filter Event.onWire := by
  simp only [wire, emit_trace, List.filter_append]

/-- The observer does not hear what is not on the wire (46_panel_observer.md R200). -/
theorem Panel.onEvent_offWire {e : Event} (h : e.onWire = false) (wrap : PanelWrap) (p : Panel) :
    p.onEvent wrap e = p := by
  cases e with
  | cfg => rfl
  | dcset b => rfl
  | tx v => rfl
  | idle => rfl
  | _ => cases h

/-- To hear an event is to hear its projection to the wire. -/
theorem Panel.feed_onWire (e : Event) (wrap : PanelWrap) (p : Panel) :
    p.feed wrap ([e].filter Event.onWire) = p.onEvent wrap e := by
  cases h : e.onWire with
  | true => simp [h]
  | false => simp [h, Panel.onEvent_offWire h]

theorem observerFollowsWire_keptByEvents : KeptByEvents ObserverFollowsWire where
  emit e s := by
    rintro ⟨k, hk⟩
    refine ⟨k, ?_⟩
    rw [wire_emit, emit_cfg, Panel.observe, Panel.feed_append, Panel.feed_onWire, emit_panel, hk]
    rfl
  unseen s t hc ht hp := by
    rintro ⟨k, hk⟩
    exact ⟨k, by rw [hp, hc, hk, wire, wire, ht]⟩

theorem observerFollowsWire_blockReset (s : State) : ObserverFollowsWire (blockReset s) := ⟨0, rfl⟩

/-- Settles O49: every event keeps it, and the block's reset empties the trace and the observer alike. -/
theorem stepKeepsObserverOnWire : Obligations.StepKeepsObserverOnWire :=
  fun _ _ h hstep => observerFollowsWire_keptByEvents.keptByMoves.step_all observerFollowsWire_blockReset h hstep

theorem panelInside_keptByEvents : KeptByEvents (fun s => PanelInside s.panel) where
  emit e _ h := Panel.inside_onEvent h e
  unseen _ _ _ _ hp h := hp ▸ h

/-- Settles O50: no event takes the observer out of the panel, and the block's reset gives the initial one. -/
theorem stepKeepsPanelInside : Obligations.StepKeepsPanelInside :=
  fun _ _ h hstep => panelInside_keptByEvents.keptByMoves.step_all (fun _ => Panel.inside_initial) h hstep

end Sys2Proof.Machine
end

section
/-! What every step keeps of the lines, of the transport's books and of the control state (70_reset_and_hazards.md R266,
20_memory.md R70, 60_exceptions.md R231). -/

namespace Sys2Proof.Machine

-- ## The line discipline

theorem linesDisciplined_of_eq {s t : State} (hb : t.bus = s.bus) (hd : t.lines.dc = s.lines.dc)
    (hk : t.lines.sck = s.lines.sck) (h : LinesDisciplined s) : LinesDisciplined t :=
  ⟨fun r hr => by rw [hd]; exact h.1 r (hb ▸ hr), hk.trans h.2⟩

theorem linesDisciplined_txMove {s : State} (h : LinesDisciplined s) : LinesDisciplined (txMove s) := by
  obtain ⟨hclass, hlow⟩ := h
  refine ⟨fun q hq => ?_, (txMove_frame s).sck_eq hlow⟩
  rw [(txMove_frame s).dc_eq]
  rcases txMove_cases s with ⟨r, hr, hm⟩ | ⟨v, -, -, hm⟩ | ⟨hnone, -, hm⟩ <;> rw [hm] at hq
  · by_cases hbit : r.bit = 0
    · rw [shiftStep_last hbit] at hq
      cases hq
    · rw [shiftStep_more hbit] at hq
      cases hq
      exact hclass r hr
  · cases hq
    rfl
  · exact hclass q hq

theorem linesDisciplined_keptByMoves : KeptByMoves LinesDisciplined where
  move _ h := linesDisciplined_txMove h
  sched _ _ h := h
  effect a s h _ hidle := by
    cases a with
    | discriminate b =>
      have hbus : (driveDc b s).bus = Transport.empty := hidle b rfl
      refine ⟨fun r hr => ?_, h.2⟩
      change (driveDc b s).bus.shreg = some r at hr
      rw [hbus] at hr
      cases hr
    | _ => exact linesDisciplined_of_eq rfl rfl rfl h
  registers _ _ h := h
  raised _ _ _ h := h
  faulted _ h := h
  accepted _ _ _ h := h
  waits _ _ h := h
  advanced _ _ _ h := h
  inputs _ _ h := h

theorem linesDisciplined_blockReset (s : State) : LinesDisciplined (blockReset s) := ⟨nofun, rfl⟩

-- ## The books of the transport

theorem txValues_append (a b : List Event) : txValues (a ++ b) = txValues a ++ txValues b := List.filterMap_append

theorem byteValues_append (a b : List Event) : byteValues (a ++ b) = byteValues a ++ byteValues b :=
  List.filterMap_append

/-- The bytes inside the transport are no enqueueing events. -/
theorem txValues_inflight (s : State) : txValues (inflight s) = [] := by
  unfold inflight
  rcases s.bus.shreg with _ | r <;> rcases s.bus.txbuf with _ | v <;> rfl

/-- The values inside the transport do not depend on the level of `DC`. -/
theorem byteValues_inflight {s t : State} (h : t.bus = s.bus) : byteValues (inflight t) = byteValues (inflight s) := by
  unfold inflight
  rw [h]
  rcases s.bus.shreg with _ | r <;> rcases s.bus.txbuf with _ | v <;> rfl

theorem bitsOf_inflight {s t : State} (h : t.bus = s.bus) : bitsOf (inflight t) = bitsOf (inflight s) := by
  unfold inflight
  rw [h]
  rcases s.bus.shreg with _ | r <;> rcases s.bus.txbuf with _ | v <;> rfl

theorem inflight_enqueue {s : State} (h : s.bus.txbuf = none) (v : Byte) :
    inflight (enqueue v s) = inflight s ++ [.byte s.lines.dc v] := by
  simp [inflight, h]

theorem pendingBits_enqueue {s : State} (h : s.bus.txbuf = none) (v : Byte) :
    pendingBits (enqueue v s) = pendingBits s ++ msbFirst v := by
  simp [pendingBits, h]

theorem bytesAccountedFor_txMove {s : State} (h : BytesAccountedFor s) : BytesAccountedFor (txMove s) := by
  obtain ⟨hbytes, hbits⟩ := h
  constructor
  · calc txValues (txMove s).trace = txValues ((txMove s).trace ++ inflight (txMove s)) := by
          rw [txValues_append, txValues_inflight, List.append_nil]
      _ = txValues s.trace := by rw [txMove_trace, txValues_append, txValues_inflight, List.append_nil]
      _ = byteValues (s.trace ++ inflight s) := by rw [hbytes, byteValues_append]
      _ = _ := by rw [← txMove_trace, byteValues_append]
  · rw [txMove_samples, txMove_wire]
    exact hbits

/-- Events that name no byte, with the transport as it was, leave the books as they were. -/
theorem bytesAccountedFor_of_quiet {s t : State} {es : List Event} (ht : t.trace = s.trace ++ es)
    (htx : txValues es = []) (hby : byteValues es = []) (hbits : bitsOf (es.filter Event.onWire) = [])
    (hb : t.bus = s.bus) (hs : t.samples = s.samples) (h : BytesAccountedFor s) : BytesAccountedFor t := by
  obtain ⟨hbytes, hsamples⟩ := h
  have hp : pendingBits t = pendingBits s := by rw [pendingBits, pendingBits, hb]
  constructor
  · rw [ht, txValues_append, byteValues_append, htx, hby, List.append_nil, List.append_nil, byteValues_inflight hb, hbytes]
  · rw [hs, hp, hsamples, wire, wire, ht, List.filter_append, bitsOf_append, bitsOf_append, bitsOf_append, hbits,
      List.append_nil, bitsOf_inflight hb]

/-- Enqueueing into an empty buffer enters the byte, and its bits, behind what is inside. -/
theorem bytesAccountedFor_enqueue {s : State} (hr : s.bus.txbuf = none) (v : Byte) (h : BytesAccountedFor s) :
    BytesAccountedFor (enqueue v s) := by
  obtain ⟨hbytes, hsamples⟩ := h
  have hw : wire (enqueue v s) = wire s := (wire_emit _ _).trans (List.append_nil _)
  constructor
  · rw [enqueue_trace, txValues_append, byteValues_append, hbytes, inflight_enqueue hr, byteValues_append]
    simp [txValues, byteValues, Event.enqueued, Event.completed]
  · rw [enqueue_samples, pendingBits_enqueue hr, hw, inflight_enqueue hr, ← List.append_assoc, hsamples,
      ← List.append_assoc, bitsOf_append (wire s ++ inflight s)]
    simp [bitsOf, Event.bits]

theorem bytesAccountedFor_keptByMoves : KeptByMoves BytesAccountedFor where
  move _ h := bytesAccountedFor_txMove h
  sched _ _ h := h
  effect a s h hready _ := by
    cases a with
    | send src => exact bytesAccountedFor_enqueue (met_ready.1 hready) _ h
    | config => exact bytesAccountedFor_of_quiet (es := [.cfg]) rfl rfl rfl rfl rfl rfl h
    | resetLine b => exact bytesAccountedFor_of_quiet (es := [.rst b]) rfl rfl rfl rfl rfl rfl h
    | hold t => exact bytesAccountedFor_of_quiet (es := [.wait _]) rfl rfl rfl rfl rfl rfl h
    | select b => exact bytesAccountedFor_of_quiet (es := [.sel b]) rfl rfl rfl rfl rfl rfl h
    | discriminate b => exact bytesAccountedFor_of_quiet (s := s) (es := [.dcset b]) rfl rfl rfl rfl rfl rfl h
    | awaitIdle => exact bytesAccountedFor_of_quiet (es := [.idle]) rfl rfl rfl rfl rfl rfl h
    | _ => exact h
  registers _ _ h := h
  raised _ _ _ h := h
  faulted _ h := h
  accepted _ _ _ h := h
  waits _ _ h := h
  advanced _ _ _ h := h
  inputs _ _ h := h

/-- Nothing is inside the transport exactly when `BSY` = 0 (10_state.md R25). -/
theorem inflight_length_eq_zero (s : State) : (inflight s).length = 0 ↔ bsy s = false := by
  unfold inflight bsy
  rcases s.bus.shreg with _ | r <;> rcases s.bus.txbuf with _ | v <;> simp

/-- Settles O51: both are kept by every update of the block, and hold of a block just reset. -/
theorem stepKeepsLinesAndBytes : Obligations.StepKeepsLinesAndBytes := by
  intro s t hstep
  refine ⟨fun h => ?_, fun h => ⟨?_, inflight_length t, inflight_length_eq_zero t⟩⟩
  · exact linesDisciplined_keptByMoves.step_all linesDisciplined_blockReset h hstep
  · exact bytesAccountedFor_keptByMoves.step_all (fun _ => ⟨rfl, rfl⟩) h hstep

-- ## The control state

/-- No entry's effect touches the control state (10_state.md R29). -/
theorem Atom.effect_control (a : Atom) (s : State) :
    (a.effect s).status = s.status ∧ (a.effect s).busy = s.busy ∧ (a.effect s).seq = s.seq := by
  cases a <;> exact ⟨rfl, rfl, rfl⟩

theorem controlLegal_keptByMoves : KeptByMoves ControlLegal where
  move s h := by
    have f := txMove_frame s
    rw [ControlLegal, f.status_eq, f.busy_eq, f.seq_eq]
    exact h
  sched _ _ h := h
  effect a s h _ _ := by
    obtain ⟨hstatus, hbusy, hseq⟩ := a.effect_control s
    rw [ControlLegal, hstatus, hbusy, hseq]
    exact h
  registers _ _ h := h
  raised _ _ hcode _ := ⟨hcode, fun _ => rfl⟩
  faulted _ h := h
  accepted _ _ _ h := ⟨h.1, fun hn => by cases hn⟩
  waits _ _ h := h
  advanced _ _ hbusy h := ⟨h.1, fun hn => by rw [hbusy] at hn; cases hn⟩
  inputs _ _ h := h

theorem controlLegal_blockReset (s : State) : ControlLegal (blockReset s) := ⟨Nat.zero_lt_succ _, fun _ => rfl⟩

/-- Settles O52: `STATUS` is written by `raise` alone, which idles the sequencer, and `BUSY` is set by acceptance alone. -/
theorem stepKeepsControlLegal : Obligations.StepKeepsControlLegal :=
  fun _ _ h hstep => controlLegal_keptByMoves.step_all controlLegal_blockReset h hstep

/-- Settles O53: at reset the trace, the transport and the sequencer are empty and the observer is the initial one. -/
theorem invariantsHoldAtReset : Obligations.InvariantsHoldAtReset :=
  ⟨observerFollowsWire_blockReset State.reset, Panel.inside_initial, linesDisciplined_blockReset State.reset, ⟨rfl, rfl⟩,
    controlLegal_blockReset State.reset⟩

end Sys2Proof.Machine
end

section
/-! The encodings (30_encoding.md): the round trip, what a decoder can answer, where a transaction ends, and which fields of
a request count. -/

namespace Sys2Proof

-- ## The round trip

theorem decode_encodeDelay (t : DelayTime) : decodeUop (encodeDelay t) = .ok (.delay t) := by
  cases t <;> rfl

theorem decodeCommand_pgamma {ps : List Byte} (h : ps.length = 15) : decodeCommand OPC_PGAMMA ps = .ok (.pgamma ps) :=
  if_pos h

theorem decodeCommand_ngamma {ps : List Byte} (h : ps.length = 15) : decodeCommand OPC_NGAMMA ps = .ok (.ngamma ps) :=
  if_pos h

theorem decodeCommand_caset (a b : U16) : decodeCommand OPC_CASET [hi a, lo a, hi b, lo b] = .ok (.caset a b) := by
  change Except.ok (Instr.caset (joinBytes (hi a) (lo a)) (joinBytes (hi b) (lo b))) = _
  rw [joinBytes_hi_lo, joinBytes_hi_lo]

theorem decodeCommand_paset (a b : U16) : decodeCommand OPC_PASET [hi a, lo a, hi b, lo b] = .ok (.paset a b) := by
  change Except.ok (Instr.paset (joinBytes (hi a) (lo a)) (joinBytes (hi b) (lo b))) = _
  rw [joinBytes_hi_lo, joinBytes_hi_lo]

/-- A transaction decodes as its command byte and data bytes do. -/
theorem decode_wireBytes {o : Byte} {ps : List Byte} {i : Instr} (h : decodeCommand o ps = .ok i) :
    decode (.wire (wireBytes o ps)) = .ok i := (decodeWire_wireBytes o ps).trans h

/-- A byte operand is the low half of its field (log 5). -/
theorem lo_byteUop_arg (label : BitVec 3) (v : Byte) : lo (byteUop label v).arg = v := lo_joinBytes 0 v

/-- Settles O1: each table's row is its own inverse; words go out as halves and come back joined. -/
theorem decodeEncodeRoundTrip : Obligations.DecodeEncodeRoundTrip := by
  intro i hwf
  cases i with
  | pgamma ps => exact decode_wireBytes (decodeCommand_pgamma (beq_iff_eq.1 hwf))
  | ngamma ps => exact decode_wireBytes (decodeCommand_ngamma (beq_iff_eq.1 hwf))
  | caset a b => exact decode_wireBytes (decodeCommand_caset a b)
  | paset a b => exact decode_wireBytes (decodeCommand_paset a b)
  | ifmode ps => exact decode_wireBytes rfl
  | slpout => exact decode_wireBytes rfl
  | pixfmt p => exact decode_wireBytes rfl
  | madctl p => exact decode_wireBytes rfl
  | pwctr3 p => exact decode_wireBytes rfl
  | vmctr p q r t => exact decode_wireBytes rfl
  | dispon => exact decode_wireBytes rfl
  | ramwr => exact decode_wireBytes rfl
  | streambuf px => exact if_pos (of_decide_eq_true hwf)
  | sendbyte v => exact congrArg (fun b => Except.ok (Instr.sendbyte b)) (lo_byteUop_arg UOP_SENDBYTE v)
  | wrcmd o => exact congrArg (fun b => Except.ok (Instr.wrcmd b)) (lo_byteUop_arg UOP_WRCMD o)
  | wrdata8 v => exact congrArg (fun b => Except.ok (Instr.wrdata8 b)) (lo_byteUop_arg UOP_WRDATA8 v)
  | delay t => exact decode_encodeDelay t
  | _ => rfl

/-- Settles O3: the decoder computes on each of the words. -/
theorem writtenOutWordsDecode : Obligations.WrittenOutWordsDecode := by
  unfold Obligations.WrittenOutWordsDecode
  decide

-- ## What a decoder can answer

/-- An opcode and data bytes that decode are those the instruction encodes to. -/
theorem decodeCommand_sound {o : Byte} {ps : List Byte} {i : Instr} (h : decodeCommand o ps = .ok i) :
    i.wellFormed = true ∧ i.layer = .wire ∧ encode i = .wire (wireBytes o ps) := by
  rcases ite_eq_cases h with ⟨rfl, h⟩ | ⟨-, h⟩
  · cases h; exact ⟨rfl, rfl, rfl⟩
  iterate 5
    rcases ite_eq_cases h with ⟨rfl, h⟩ | ⟨-, h⟩
    · split at h <;> cases h; exact ⟨rfl, rfl, rfl⟩
  iterate 2
    rcases ite_eq_cases h with ⟨rfl, h⟩ | ⟨-, h⟩
    · rcases ite_eq_cases h with ⟨hlen, h⟩ | ⟨-, h⟩ <;> cases h; exact ⟨beq_iff_eq.2 hlen, rfl, rfl⟩
  rcases ite_eq_cases h with ⟨rfl, h⟩ | ⟨-, h⟩
  · split at h <;> cases h; exact ⟨rfl, rfl, rfl⟩
  iterate 2
    rcases ite_eq_cases h with ⟨rfl, h⟩ | ⟨-, h⟩
    · split at h <;> cases h; exact ⟨rfl, rfl, by simp [encode]⟩
  rcases ite_eq_cases h with ⟨rfl, h⟩ | ⟨-, h⟩
  · split at h <;> cases h; exact ⟨rfl, rfl, rfl⟩
  · cases h

theorem decodeHost_sound {r : HostRequest} {i : Instr} (h : decodeHost r = .ok i) :
    i.wellFormed = true ∧ i.layer = .host := by
  iterate 3
    rcases ite_eq_cases h with ⟨-, h⟩ | ⟨-, h⟩
    · cases h; exact ⟨rfl, rfl⟩
  rcases ite_eq_cases h with ⟨-, h⟩ | ⟨-, h⟩
  · rcases ite_eq_cases h with ⟨hlen, h⟩ | ⟨-, h⟩ <;> cases h; exact ⟨decide_eq_true hlen, rfl⟩
  iterate 3
    rcases ite_eq_cases h with ⟨-, h⟩ | ⟨-, h⟩
    · cases h; exact ⟨rfl, rfl⟩
  · cases h

theorem decodeDelay_sound {arg : U16} {time : U32} {i : Instr} (h : decodeDelay arg time = .ok i) : ∃ t, i = .delay t := by
  iterate 6
    rcases ite_eq_cases h with ⟨-, h⟩ | ⟨-, h⟩
    · cases h; exact ⟨_, rfl⟩
  · cases h

theorem decodeUop_sound {u : UopWord} {i : Instr} (h : decodeUop u = .ok i) : i.wellFormed = true ∧ i.layer = .uop := by
  iterate 7
    rcases ite_eq_cases h with ⟨-, h⟩ | ⟨-, h⟩
    · cases h; exact ⟨rfl, rfl⟩
  · obtain ⟨t, rfl⟩ := decodeDelay_sound h
    exact ⟨rfl, rfl⟩

/-- Settles O2: by layer, what the layer's decoder can answer. -/
theorem decodedIsWellFormedAndUnique : Obligations.DecodedIsWellFormedAndUnique := by
  intro e i h
  cases e with
  | wire bytes =>
    obtain ⟨o, ps, rfl, hcmd⟩ := decodeWire_cases h
    obtain ⟨hwf, hlayer, henc⟩ := decodeCommand_sound hcmd
    exact ⟨hwf, hlayer, fun b hb => by cases hb; exact henc⟩
  | host req =>
    obtain ⟨hwf, hlayer⟩ := decodeHost_sound h
    exact ⟨hwf, hlayer, nofun⟩
  | uop word =>
    obtain ⟨hwf, hlayer⟩ := decodeUop_sound h
    exact ⟨hwf, hlayer, nofun⟩

-- ## Where a transaction ends

/-- An encoded form that is a transaction is a command byte and data bytes (30_encoding.md R92, R94). -/
theorem encode_wire {i : Instr} {b : List WireByte} (h : encode i = .wire b) : ∃ o ps, b = wireBytes o ps := by
  cases i <;> cases h <;> exact ⟨_, _, rfl⟩

/-- A transaction is split off whole in front of a byte that is no data byte (30_encoding.md R92). -/
theorem splitTransaction_wireBytes (o : Byte) (ps : List Byte) {rest : List WireByte}
    (h : ∀ n ∈ rest.head?, n.dc = false) : splitTransaction (wireBytes o ps ++ rest) = (wireBytes o ps, rest) := by
  have hdata : ∀ c ∈ ps.map (fun v => (⟨true, v⟩ : WireByte)), c.dc = true := by simp
  have htake : rest.takeWhile (·.dc) = [] := by
    cases rest with
    | nil => rfl
    | cons n rest => exact List.takeWhile_cons_of_neg (by simp [h n rfl])
  have hdrop : rest.dropWhile (·.dc) = rest := by
    cases rest with
    | nil => rfl
    | cons n rest => exact List.dropWhile_cons_of_neg (by simp [h n rfl])
  change (_ :: (_ ++ rest).takeWhile (·.dc), (_ ++ rest).dropWhile (·.dc)) = _
  rw [List.takeWhile_append_of_pos hdata, List.dropWhile_append_of_pos hdata, htake, hdrop, List.append_nil]
  rfl

/-- Settles O4: every encoded transaction is a command byte and data bytes. -/
theorem transactionIsSelfDelimiting : Obligations.TransactionIsSelfDelimiting := by
  intro i b rest hi hrest
  obtain ⟨o, ps, rfl⟩ := encode_wire hi
  exact splitTransaction_wireBytes o ps hrest

-- ## Which fields of a request count

section
variable {r : HostRequest}

theorem decodeHost_init (h : r.op = OP_INIT) : decodeHost r = .ok .init := by
  rw [decodeHost, h]; rfl

theorem decodeHost_setwin (h : r.op = OP_SETWIN) : decodeHost r = .ok (.setwin r.a0 r.a1 r.a2 r.a3) := by
  rw [decodeHost, h]; rfl

theorem decodeHost_streamfill (h : r.op = OP_STREAMFILL) : decodeHost r = .ok (.streamfill r.count r.color) := by
  rw [decodeHost, h]; rfl

theorem decodeHost_streambuf (h : r.op = OP_STREAMBUF) :
    decodeHost r = if r.src.length < 2 ^ 32 then .ok (.streambuf r.src) else .error .sourceTooLong := by
  rw [decodeHost, h]; rfl

theorem decodeHost_drawpixel (h : r.op = OP_DRAWPIXEL) : decodeHost r = .ok (.drawpixel r.a0 r.a1 r.color) := by
  rw [decodeHost, h]; rfl

theorem decodeHost_fillrect (h : r.op = OP_FILLRECT) :
    decodeHost r = .ok (.fillrect r.a0 r.a1 r.a2 r.a3 r.color) := by
  rw [decodeHost, h]; rfl

theorem decodeHost_drawimage (h : r.op = OP_DRAWIMAGE) :
    decodeHost r = .ok (.drawimage r.a0 r.a1 r.a2 r.a3 r.src) := by
  rw [decodeHost, h]; rfl

/-- The codes outside 0x1 to 0x7 are none of the seven (30_encoding.md R100, R102). -/
theorem reserved_ne (op : BitVec 4) (h : op = 0x0 ∨ 0x8 ≤ op) :
    op ≠ OP_INIT ∧ op ≠ OP_SETWIN ∧ op ≠ OP_STREAMFILL ∧ op ≠ OP_STREAMBUF ∧ op ≠ OP_DRAWPIXEL ∧ op ≠ OP_FILLRECT ∧
      op ≠ OP_DRAWIMAGE := by
  revert op
  decide

theorem decodeHost_reserved (h : r.op = 0x0 ∨ 0x8 ≤ r.op) : decodeHost r = .error (.reservedOp r.op) := by
  obtain ⟨h1, h2, h3, h4, h5, h6, h7⟩ := reserved_ne r.op h
  rw [decodeHost, if_neg h1, if_neg h2, if_neg h3, if_neg h4, if_neg h5, if_neg h6, if_neg h7]

end

/-- Settles O5: per operation the decoder's answer is made of the operation's own fields. -/
theorem unusedOperandFieldsAreIgnored : Obligations.UnusedOperandFieldsAreIgnored := by
  intro r q hop
  refine ⟨fun h => ?_, fun h h0 h1 h2 h3 => ?_, fun h hc hn => ?_, fun h hs => ?_, fun h h0 h1 hc => ?_,
    fun h h0 h1 h2 h3 hc => ?_, fun h h0 h1 h2 h3 hs => ?_⟩
  · rw [decodeHost_init h, decodeHost_init (hop ▸ h)]
  · rw [decodeHost_setwin h, decodeHost_setwin (hop ▸ h), h0, h1, h2, h3]
  · rw [decodeHost_streamfill h, decodeHost_streamfill (hop ▸ h), hc, hn]
  · rw [decodeHost_streambuf h, decodeHost_streambuf (hop ▸ h), hs]
  · rw [decodeHost_drawpixel h, decodeHost_drawpixel (hop ▸ h), h0, h1, hc]
  · rw [decodeHost_fillrect h, decodeHost_fillrect (hop ▸ h), h0, h1, h2, h3, hc]
  · rw [decodeHost_drawimage h, decodeHost_drawimage (hop ▸ h), h0, h1, h2, h3, hs]

end Sys2Proof
end

section
/-! Presentation: what a step does with a presented form (10_state.md R29, 60_exceptions.md R234, R245), how each host
operation begins, and its early ends (45_raster.md R194 to R197). -/

namespace Sys2Proof.Machine

-- ## A step with a presented form

section
variable {s : State} {e : Encoded} {i : Instr} {rest : List Input}

theorem step_call (hb : s.busy = false) (hd : decode e = .ok i) :
    step { s with inputs := .call e :: rest } = exec i { s with inputs := rest } := by
  simp [step, stepCall, hb, hd]

theorem step_submit (hb : s.busy = false) (hd : decode e = .ok i) :
    step { s with inputs := .submit e :: rest } = submit i { s with inputs := rest } := by
  simp [step, stepSubmit, hb, hd]

/-- Nothing may be presented while `BUSY` = 1 (60_exceptions.md R245). -/
theorem step_presented_busy (hb : s.busy = true) :
    step { s with inputs := .call e :: rest } = .refused .requestWhileBusy ∧
      step { s with inputs := .submit e :: rest } = .refused .requestWhileBusy := by
  simp [step, stepCall, stepSubmit, hb]

theorem step_call_undecodable {x : DecodeError} (hb : s.busy = false) (hd : decode e = .error x)
    (hx : ∀ op, x ≠ .reservedOp op) :
    step { s with inputs := .call e :: rest } = .refused (.undecodable x) := by
  cases x with
  | reservedOp op => exact absurd rfl (hx op)
  | _ => simp [step, stepCall, hb, hd]

/-- A reserved host code is the one form that decodes to nothing and has a next state (60_exceptions.md R234, check 1). -/
theorem step_presented_reserved {op : BitVec 4} (hb : s.busy = false) (hd : decode e = .error (.reservedOp op)) :
    step { s with inputs := .call e :: rest } = .next (badOp { s with inputs := rest }) ∧
      step { s with inputs := .submit e :: rest } = .next (badOp { s with inputs := rest }) := by
  simp [step, stepCall, stepSubmit, hb, hd]

end

theorem decode_of_decodeTableWord {nbits w : Nat} {i : Instr} (h : decodeTableWord nbits w = some i) :
    decode (tableForm nbits w) = .ok i := by
  unfold decodeTableWord at h
  split at h <;> cases h
  assumption

/-- Settles O6: the code decodes to nothing, and that error alone has a next state. -/
theorem reservedHostCodeEndsWithBadOp : Obligations.ReservedHostCodeEndsWithBadOp :=
  fun _ _ _ hb hop => step_presented_reserved hb (decodeHost_reserved hop)

/-- Settles O7: the four cases of a presented form, by `BUSY` and by what it decodes to. -/
theorem stepRunsThePresentedInstruction : Obligations.StepRunsThePresentedInstruction := by
  intro s e rest
  refine ⟨fun hb i hd => step_call hb hd, fun hb => step_presented_busy hb,
    fun hb x hd hx => step_call_undecodable hb hd hx, fun nbits w i h => ?_⟩
  exact step_call (s := { s with busy := false, seq := Seq.idle }) (rest := s.inputs) rfl (decode_of_decodeTableWord h)

/-- Settles O55: a step that takes the reset input is the block's reset, which is written out. -/
theorem resetGivesTheListedValues : Obligations.ResetGivesTheListedValues :=
  fun s rest => ⟨blockReset { s with inputs := rest }, rfl, rfl, rfl, rfl, rfl, rfl, rfl, rfl, rfl, rfl, rfl, ⟨0, rfl⟩, rfl, rfl⟩

/-- Settles O13: the one entry of its list waits for nothing. -/
theorem delayOnlyMarksTime : Obligations.DelayOnlyMarksTime := fun _ _ => rfl

/-- Settles O19: each of them is a framed run, which looks at `BSY` first. -/
theorem framedInstructionsNeedTheBusIdle : Obligations.FramedInstructionsNeedTheBusIdle := by
  intro s i hbsy hi
  cases i with
  | ifmode ps => exact runFramed_busy hbsy
  | slpout => exact runFramed_busy hbsy
  | pixfmt p => exact runFramed_busy hbsy
  | madctl p => exact runFramed_busy hbsy
  | pwctr3 p => exact runFramed_busy hbsy
  | vmctr p q r t => exact runFramed_busy hbsy
  | pgamma ps => exact runFramed_busy hbsy
  | ngamma ps => exact runFramed_busy hbsy
  | dispon => exact runFramed_busy hbsy
  | caset a b => exact runFramed_busy hbsy
  | paset a b => exact runFramed_busy hbsy
  | ramwr => exact runFramed_busy hbsy
  | wrcmd o => exact runFramed_busy hbsy
  | wrdata8 v => exact runFramed_busy hbsy
  | wrdata16 w => exact runFramed_busy hbsy
  | _ => simp [Instr.layer] at hi

-- ## How a host operation begins, whatever the transport holds

section
variable {s : State} {x y w h : U16} (hf : s.fault = false) (hi : s.initState = .initialized)
include hf hi

theorem startDrawpixel_accepts (ho : offPanel x y = false) (c : U16) :
    startDrawpixel x y c s =
      accepted .drawpixel pixelList { s.regs with px := x, py := y, color := c, x0 := x, y0 := y, x1 := x, y1 := y } s := by
  rw [startDrawpixel, whenInitialized_go hf hi]
  dsimp only [latchColor, latchAnchor]
  rw [ho]
  rfl

theorem startDrawpixel_offPanel (ho : offPanel x y = true) (c : U16) :
    startDrawpixel x y c s = raise STATUS_OUT_OF_BOUNDS { s with regs := { s.regs with px := x, py := y, color := c } } := by
  rw [startDrawpixel, whenInitialized_go hf hi]
  dsimp only [latchColor, latchAnchor]
  rw [ho]
  rfl

theorem startFillrect_accepts (ho : offPanel x y = false) (hw : w ≠ 0) (hh : h ≠ 0) (c : U16) :
    startFillrect x y w h c s =
      accepted .fillrect rectList
        { regionRegs s.regs x y w h with color := c, count := s.regs.count, idx := s.regs.idx } s := by
  rw [startFillrect, whenInitialized_go hf hi]
  dsimp only [latchColor, latchSize, latchAnchor]
  rw [ho, if_neg Bool.false_ne_true, if_neg (not_or.2 ⟨hw, hh⟩)]
  rfl

theorem startFillrect_offPanel (ho : offPanel x y = true) (w h c : U16) :
    startFillrect x y w h c s =
      raise STATUS_OUT_OF_BOUNDS { s with regs := { s.regs with px := x, py := y, pw := w, ph := h, color := c } } := by
  rw [startFillrect, whenInitialized_go hf hi]
  dsimp only [latchColor, latchSize, latchAnchor]
  rw [ho]
  rfl

theorem startFillrect_empty (ho : offPanel x y = false) (he : w = 0 ∨ h = 0) (c : U16) :
    startFillrect x y w h c s =
      raise STATUS_EMPTY_REGION { s with regs := { s.regs with px := x, py := y, pw := w, ph := h, color := c } } := by
  rw [startFillrect, whenInitialized_go hf hi]
  dsimp only [latchColor, latchSize, latchAnchor]
  rw [ho, if_neg Bool.false_ne_true, if_pos he]

theorem startDrawimage_offPanel (ho : offPanel x y = true) (w h : U16) (px : List U16) :
    startDrawimage x y w h px s =
      raise STATUS_OUT_OF_BOUNDS { s with regs := { s.regs with px := x, py := y, pw := w, ph := h, src := px } } := by
  rw [startDrawimage, whenInitialized_go hf hi]
  dsimp only [latchSource, latchSize, latchAnchor]
  rw [ho]
  rfl

theorem startDrawimage_empty (ho : offPanel x y = false) (he : w = 0 ∨ h = 0) (px : List U16) :
    startDrawimage x y w h px s =
      raise STATUS_EMPTY_REGION { s with regs := { s.regs with px := x, py := y, pw := w, ph := h, src := px } } := by
  rw [startDrawimage, whenInitialized_go hf hi]
  dsimp only [latchSource, latchSize, latchAnchor]
  rw [ho, if_neg Bool.false_ne_true, if_pos he]

/-- With the anchor on the panel and a region that is not empty, the last two checks of `drawImage` decide: the clipped blit
in mode `REJECT`, then the short source (60_exceptions.md R234, checks 6 and 7). -/
theorem startDrawimage_eq (ho : offPanel x y = false) (he : ¬(w = 0 ∨ h = 0)) (px : List U16) :
    startDrawimage x y w h px s =
      if s.cfg.blitClipMode = .reject ∧ (clipWidth x w ≠ w ∨ clipHeight y h ≠ h) then
        raise STATUS_OUT_OF_BOUNDS { s with regs := { s.regs with
          px := x, py := y, pw := w, ph := h, src := px, cw := clipWidth x w, ch := clipHeight y h } }
      else if px.length < w.toNat * h.toNat then
        raise STATUS_SHORT_BUFFER { s with regs := { s.regs with
          px := x, py := y, pw := w, ph := h, src := px, cw := clipWidth x w, ch := clipHeight y h } }
      else
        accepted .drawimage imageList
          { regionRegs s.regs x y w h with src := px, count := s.regs.count, idx := s.regs.idx } s := by
  have hclip : (clipped { s.regs with
      px := x, py := y, pw := w, ph := h, src := px, cw := clipWidth x w, ch := clipHeight y h } = true) =
      (clipWidth x w ≠ w ∨ clipHeight y h ≠ h) := by
    simp [clipped]
  rw [startDrawimage, whenInitialized_go hf hi]
  dsimp only [latchSource, latchSize, latchAnchor, latchClip]
  rw [ho, if_neg Bool.false_ne_true, if_neg he]
  simp only [hclip, mul32_toNat]
  rfl

end

/-- Settles O8: what each operation's beginning answers once its checks are passed. -/
theorem acceptanceLatchesAndSetsBusy : Obligations.AcceptanceLatchesAndSetsBusy := by
  intro s e rest hb hf
  refine ⟨fun hd hi => ?_, fun hi => ⟨fun x0 y0 x1 y1 hd => ?_, fun n c hd => ?_, fun px _ hd => ?_,
    fun x y hx hy => ⟨fun c hd => ?_, fun w h hw hh => ⟨fun c hd => ?_, fun px hl hm hd => ?_⟩⟩⟩⟩
  all_goals rw [step_submit hb hd, submit]
  · rw [startInit_accepts (s := { s with inputs := rest }) hf hi]
    rfl
  · rw [startSetwin, whenInitialized_go (s := { s with inputs := rest }) hf hi]
    rfl
  · rw [startStreamfill, whenInitialized_go (s := { s with inputs := rest }) hf hi]
    rfl
  · rw [startStreambuf, whenInitialized_go (s := { s with inputs := rest }) hf hi]
    rfl
  · rw [startDrawpixel_accepts (s := { s with inputs := rest }) hf hi (offPanel_false.2 ⟨hx, hy⟩)]
    rfl
  · rw [startFillrect_accepts (s := { s with inputs := rest }) hf hi (offPanel_false.2 ⟨hx, hy⟩) hw hh]
    rfl
  · rw [startDrawimage_eq (s := { s with inputs := rest }) hf hi (offPanel_false.2 ⟨hx, hy⟩) (not_or.2 ⟨hw, hh⟩),
      if_neg (by rintro ⟨hr, hc⟩; exact hc.elim (fun n => n (hm hr).1) (fun n => n (hm hr).2)), if_neg (Nat.not_lt.2 hl)]
    rfl

-- ## The early ends

/-- Settles O42: the anchor is looked at before any other operand. -/
theorem offPanelAnchorSendsNothing : Obligations.OffPanelAnchorSendsNothing := by
  intro s x y hb hf hi hoff
  have ho : offPanel x y = true := offPanel_true.2 hoff
  exact ⟨fun c => runRequest_rejected hb (startDrawpixel_offPanel hf hi ho c),
    fun w h c => runRequest_rejected hb (startFillrect_offPanel hf hi ho w h c),
    fun w h px => runRequest_rejected hb (startDrawimage_offPanel hf hi ho w h px)⟩

/-- Settles O43: the checks after the anchor's, in their order. -/
theorem badRegionSendsNothing : Obligations.BadRegionSendsNothing := by
  intro s x y w h hb hf hi hx hy
  have ho : offPanel x y = false := offPanel_false.2 ⟨hx, hy⟩
  refine ⟨fun he => ⟨fun c => ?_, fun px => ?_⟩, fun he px => ⟨fun hr hc => ?_, fun hm hl => ?_⟩⟩
  · exact runRequest_rejected hb (startFillrect_empty hf hi ho he c)
  · exact runRequest_rejected hb (startDrawimage_empty hf hi ho he px)
  · exact runRequest_rejected hb ((startDrawimage_eq hf hi ho he px).trans (if_pos ⟨hr, hc⟩))
  · refine runRequest_rejected hb ((startDrawimage_eq hf hi ho he px).trans ?_)
    rw [if_neg (by rintro ⟨hr, hc⟩; exact hc.elim (fun n => n (hm hr).1) (fun n => n (hm hr).2)), if_pos hl]

/-- Every operation but `INIT` begins with the same two tests (60_exceptions.md R234, checks 2 and 3). -/
theorem exec_whenInitialized {i : Instr} (hlayer : i.layer = .host) (hne : i ≠ .init) :
    ∃ k : State → State, ∀ s, exec i s = runRequest (whenInitialized k) s := by
  cases i with
  | init => exact absurd rfl hne
  | setwin x0 y0 x1 y1 => exact ⟨_, fun _ => rfl⟩
  | streamfill n c => exact ⟨_, fun _ => rfl⟩
  | streambuf px => exact ⟨_, fun _ => rfl⟩
  | drawpixel x y c => exact ⟨_, fun _ => rfl⟩
  | fillrect x y w h c => exact ⟨_, fun _ => rfl⟩
  | drawimage x y w h px => exact ⟨_, fun _ => rfl⟩
  | _ => cases hlayer

/-- Settles O44: the test of `INIT_STATE` comes before any latch. -/
theorem uninitializedOperationsEndAtOnce : Obligations.UninitializedOperationsEndAtOnce := by
  intro s i hb hf hu hlayer hne
  obtain ⟨k, hk⟩ := exec_whenInitialized hlayer hne
  rw [hk]
  exact runRequest_rejected (r := s.regs) hb (whenInitialized_uninit hf hu)

theorem startInit_fault {s : State} (hf : s.fault = true) : startInit s = raise STATUS_BUS_TIMEOUT s := if_pos hf

/-- Settles O45: the test of `FAULT` comes first, in `INIT` too. -/
theorem latchedFaultEndsEveryRequest : Obligations.LatchedFaultEndsEveryRequest := by
  intro s i hb hf hlayer
  by_cases hinit : i = .init
  · subst hinit
    exact runRequest_rejected (r := s.regs) hb (startInit_fault hf)
  · obtain ⟨k, hk⟩ := exec_whenInitialized hlayer hinit
    rw [hk]
    exact runRequest_rejected (r := s.regs) hb (whenInitialized_fault hf)

end Sys2Proof.Machine
end

section
/-! The transport's moves and the waits (40_transport.md): what any number of moves does, SENDBYTE and WAITIDLE with
unbounded waits, and what a bounded wait that runs out leaves. -/

namespace Sys2Proof.Machine

-- ## Any number of the transport's moves

/-- `t` is `s` after moves of its transport that put `w` on the wire: the oldest bytes that were inside, which the panel
heard; the bits are sampled or still inside, and nothing else changed (20_memory.md R70, 40_transport.md R137). -/
structure Moved (s t : State) (w : List Event) : Prop where
  wire_eq : wire t = wire s ++ w
  inflight_eq : inflight s = w ++ inflight t
  panel_eq : t.panel = s.panel.feed s.cfg.panelWrap w
  calls_eq : calls t = calls s
  bits_eq : t.samples ++ pendingBits t = s.samples ++ pendingBits s
  frame : SameControl s t

theorem Moved.refl (s : State) : Moved s s [] :=
  ⟨(List.append_nil _).symm, rfl, rfl, rfl, rfl, SameControl.refl s⟩

theorem Moved.trans {s t u : State} {w v : List Event} (h : Moved s t w) (k : Moved t u v) : Moved s u (w ++ v) where
  wire_eq := by rw [k.wire_eq, h.wire_eq, List.append_assoc]
  inflight_eq := by rw [h.inflight_eq, k.inflight_eq, List.append_assoc]
  panel_eq := by rw [k.panel_eq, h.panel_eq, h.frame.cfg_eq, Panel.feed_append]
  calls_eq := k.calls_eq.trans h.calls_eq
  bits_eq := k.bits_eq.trans h.bits_eq
  frame := h.frame.trans k.frame

/-- One move puts the byte in the register on the wire, or nothing. -/
theorem txMove_moved (s : State) : ∃ w, Moved s (txMove s) w := by
  have hframe := (txMove_frame s).toSameControl
  have hcalls := txMove_calls s
  have hbits := txMove_samples s
  rcases txMove_cases s with ⟨r, hr, hm⟩ | ⟨v, hr, hv, hm⟩ | ⟨-, -, hm⟩
  · rw [hm] at hframe hcalls hbits ⊢
    by_cases hbit : r.bit = 0
    · rw [shiftStep_last hbit] at hframe hcalls hbits ⊢
      exact ⟨[.byte r.dc r.value], wire_emit (.byte r.dc r.value) s, by simp [inflight, hr], rfl, hcalls, hbits, hframe⟩
    · rw [shiftStep_more hbit] at hframe hcalls hbits ⊢
      exact ⟨[], (List.append_nil _).symm, by simp [inflight, hr, shifted], rfl, hcalls, hbits, hframe⟩
  · rw [hm] at hframe hcalls hbits ⊢
    exact ⟨[], (List.append_nil _).symm, by simp [inflight, hr, hv], rfl, hcalls, hbits, hframe⟩
  · rw [hm]
    exact ⟨[], Moved.refl s⟩

theorem txMoves_moved (n : Nat) (s : State) : ∃ w, Moved s (txMoves n s) w :=
  txMoves_keeps (P := fun u => ∃ w, Moved s u w)
    (fun u ⟨_, h⟩ => let ⟨_, k⟩ := txMove_moved u; ⟨_, h.trans k⟩) n s ⟨[], Moved.refl s⟩

/-- Waits move the transport, and use the schedule. -/
theorem moved_keptByTransport (s : State) : KeptByTransport (fun u => ∃ w, Moved s u w) where
  move u := fun ⟨_, h⟩ => let ⟨_, k⟩ := txMove_moved u; ⟨_, h.trans k⟩
  sched _ _ := fun ⟨w, h1, h2, h3, h4, h5, h6⟩ =>
    ⟨w, h1, h2, h3, h4, h5, h6.trans (by constructor <;> simp)⟩

theorem txMoves_work (n : Nat) (s : State) : (txMoves n s).bus.work = s.bus.work - n := by
  induction n generalizing s with
  | zero => rfl
  | succ n ih => rw [txMoves, ih, txMove_work, Nat.sub_sub, Nat.add_comm 1 n]

/-- Eight shifts for the byte in the register, a load and eight shifts for the one behind it. -/
theorem Transport.work_le (b : Transport) : b.work ≤ 17 := by
  obtain ⟨t, r⟩ := b
  rcases t with _ | v <;> rcases r with _ | r <;> simp [Transport.work]
  all_goals omega

/-- Moves taken one step each are the same moves. -/
theorem steps_transport (n : Nat) (s : State) (rest : List Input) :
    steps n { s with inputs := List.replicate n .transport ++ rest } = .next (txMoves n { s with inputs := rest }) := by
  induction n generalizing s with
  | zero => rfl
  | succ n ih =>
    rw [List.replicate_succ, List.cons_append, steps, step_transport, txMoves,
      txMove_inputs s (List.replicate n Input.transport ++ rest), txMove_inputs s rest]
    exact ih (txMove s)

/-- Settles O10: what one move does, any number of moves does; each uses up one of at most 17 units of work. -/
theorem transportKeepsOrderAndDrains : Obligations.TransportKeepsOrderAndDrains := by
  intro n s rest
  obtain ⟨w, h1, h2, h3, h4, h5, h6⟩ := txMoves_moved n { s with inputs := rest }
  refine ⟨_, w, steps_transport n s rest, h1, h2, h3, h4, h5, h6, fun hn => ?_⟩
  apply work_zero.1
  rw [txMoves_work]
  have := Transport.work_le s.bus
  exact Nat.sub_eq_zero_of_le (this.trans hn)

-- ## A single entry as a list

theorem Flow.andThen_ok (f : Flow) : f.andThen .ok = f := by cases f <;> rfl

/-- A list of one entry that is no loop is that entry. -/
theorem runList_single {a : Atom} (h : loopBody a = []) (s : State) : runList [a] s = runEntry a s := by
  simp only [runList, runAtom, h]
  exact Flow.andThen_ok _

theorem exec_sendbyte (v : Byte) (s : State) : exec (.sendbyte v) s = .next (runEntry (.send (.lit v)) s).state :=
  congrArg (fun f : Flow => Host.Outcome.next f.state) (runList_single rfl s)

theorem exec_waitidle (s : State) : exec .waitidle s = .next (runEntry .awaitIdle s).state :=
  congrArg (fun f : Flow => Host.Outcome.next f.state) (runList_single rfl s)

/-- An entry whose wait ends takes effect. -/
theorem runEntry_of_await {a : Atom} {c : WaitFor} {s t : State} (ha : a.waitsFor = some c)
    (h : await c (waitBudget s) s = .ok t) : runEntry a s = .ok (a.effect t) := by
  simp only [runEntry, ha, h, Flow.andThen]

theorem runEntry_of_expired {a : Atom} {c : WaitFor} {s t : State} (ha : a.waitsFor = some c)
    (h : await c (waitBudget s) s = .expired t) : runEntry a s = .expired t := by
  simp only [runEntry, ha, h, Flow.andThen]

/-- Settles O11: the wait moves the transport until its buffer is empty, and then the byte is in it. -/
theorem sendbyteEnqueuesTheByte : Obligations.SendbyteEnqueuesTheByte := by
  intro s v hto
  obtain ⟨u, hu, ⟨w, hm⟩, hmet⟩ := await_unbounded (moved_keptByTransport s) .ready hto ⟨[], Moved.refl s⟩
  have hempty := met_ready.1 hmet
  have hrun : exec (.sendbyte v) s = .next (enqueue v u) := by
    rw [exec_sendbyte, runEntry_of_await rfl hu]
    rfl
  have hcalls : calls (enqueue v u) = calls u ++ [.tx v] := by
    simp [calls, List.filter_append, Event.fromSequencer]
  refine ⟨enqueue v u, w, hrun, rfl, rfl, rfl, (wire_emit _ _).trans ?_, ?_, hm.panel_eq, ?_, ?_,
    hm.frame.trans (by constructor <;> simp)⟩
  · exact (List.append_nil _).trans hm.wire_eq
  · rw [inflight_enqueue hempty, hm.inflight_eq, hm.frame.dc_eq, List.append_assoc]
  · rw [hcalls, hm.calls_eq]
  · rw [pendingBits_enqueue hempty, enqueue_samples, ← List.append_assoc, hm.bits_eq]

/-- A wait whose condition holds, with a schedule that holds nothing, is no wait. -/
theorem await_met {c : WaitFor} {s : State} (hs : s.sched = []) (hm : c.met s = true) (n : Nat) : await c n s = .ok s := by
  have hi : interleave s = s := by simp [interleave, hs]
  cases n <;> simp [await, hi, hm]

/-- Settles O12: the wait moves the transport until it is idle; with nothing to wait for only the event is left. -/
theorem waitidleDrainsTheTransport : Obligations.WaitidleDrainsTheTransport := by
  intro s
  refine ⟨fun hto => ?_, fun hbus hs => ?_⟩
  · obtain ⟨u, hu, ⟨w, hm⟩, hmet⟩ := await_unbounded (moved_keptByTransport s) .idle hto ⟨[], Moved.refl s⟩
    have hempty := met_idle.1 hmet
    have hw : inflight s = w := by rw [hm.inflight_eq, inflight_empty hempty, List.append_nil]
    have hrun : exec .waitidle s = .next (emit .idle u) := by
      rw [exec_waitidle, runEntry_of_await rfl hu]
      rfl
    have hcalls : calls (emit .idle u) = calls u ++ [.idle] := by
      simp [calls, List.filter_append, Event.fromSequencer]
    have hbits := hm.bits_eq
    rw [pendingBits_empty hempty, List.append_nil] at hbits
    refine ⟨emit .idle u, hrun, hempty, by simp [txe, hempty, Transport.empty], bsy_eq_false.2 hempty,
      (wire_emit _ _).trans ?_, ?_, ?_, hbits, hm.frame.trans (by constructor <;> simp)⟩
    · rw [hw]; exact (List.append_nil _).trans hm.wire_eq
    · rw [hcalls, hm.calls_eq]
    · rw [hw]; exact hm.panel_eq
  · rw [exec_waitidle, runEntry_of_await rfl (await_met hs (met_idle.2 hbus) _)]
    rfl

-- ## A bounded wait that runs out

/-- With a bound, a schedule that holds nothing and the condition false, nothing moves and the wait expires. -/
theorem await_stuck {c : WaitFor} {s : State} {k : Nat} (hto : s.cfg.busTimeout = some k) (hs : s.sched = [])
    (hm : c.met s = false) (n : Nat) : await c n s = .expired (timeOut s) := by
  have hi : interleave s = s := by simp [interleave, hs]
  have hf : fairMove s = s := by simp [fairMove, hto]
  induction n with
  | zero => simp [await, hi, hm]
  | succ n ih => simp [await, hi, hm, hf, ih]

/-- A sequencer's move that finds its entry's wait unmet is a failed test. -/
theorem seqMove_unmet {s : State} {a : Atom} {l : List Atom} (hb : s.busy = true) (hl : s.seq.todo = a :: l)
    (hr : a.ready s = false) : seqMove s = .next (failedTest s) := by
  simp [seqMove, hb, hl, hr]

/-- A failed test of a bounded wait (40_transport.md R136; log 14). -/
theorem failedTest_bounded {s : State} {n : Nat} (hto : s.cfg.busTimeout = some n) :
    failedTest s = if n ≤ s.waits then timeOut s else { s with waits := s.waits + 1 } := by
  simp [failedTest, hto]

/-- Move by move: the test that finds a bounded wait unmet counts, or latches the fault. -/
theorem step_unmet {s : State} {n : Nat} {a : Atom} {l : List Atom} (hto : s.cfg.busTimeout = some n)
    (hb : s.busy = true) (hl : s.seq.todo = a :: l) (hr : a.ready s = false) (rest : List Input) :
    step { s with inputs := .sequencer :: rest } =
      if n ≤ s.waits then .next (timeOut { s with inputs := rest })
      else .next { s with waits := s.waits + 1, inputs := rest } := by
  change seqMove { s with inputs := rest } = _
  rw [seqMove_unmet (s := { s with inputs := rest }) hb hl (by cases a <;> exact hr),
    failedTest_bounded (s := { s with inputs := rest }) hto]
  split <;> rfl

/-- Settles O20: nothing moves between two tests, so a test fails as it did; the last one latches the fault. -/
theorem boundedWaitRunsOut : Obligations.BoundedWaitRunsOut := by
  intro s n hto
  refine ⟨fun hs hbsy => ?_, fun hs htxe v => ?_, fun src l rest hb hl htxe => ?_, fun l rest hb hl hbsy => ?_⟩
  · rw [exec_waitidle, runEntry_of_expired rfl (await_stuck hto hs (by simp [WaitFor.met, hbsy]) _)]
    rfl
  · rw [exec_sendbyte, runEntry_of_expired rfl (await_stuck (c := .ready) hto hs htxe _)]
    rfl
  · exact step_unmet hto hb hl htxe rest
  · exact step_unmet hto hb hl (by simp [Atom.ready, Atom.waitsFor, WaitFor.met, hbsy]) rest

end Sys2Proof.Machine
end

section
/-! The framed instructions and the host operations in service: what each puts on the wire, the calls it makes and what it
leaves (41_framing.md R142 to R144, 42_initializer.md, 43_window.md R170, 44_streaming.md R180, R181, 45_raster.md). -/

namespace Sys2Proof.Machine

-- ## Framed instructions

/-- Settles O15: a framed run of one command byte. -/
theorem wrcmdSendsOneCommandByte : Obligations.WrcmdSendsOneCommandByte :=
  fun _ o hs => runFramed_commandList hs o

/-- Settles O16: a framed run of one data byte. -/
theorem wrdata8SendsOneDataByte : Obligations.Wrdata8SendsOneDataByte := by
  intro s v hs
  obtain ⟨t, ht, hran⟩ := runFramed_ran hs (l := dataList v) rfl rfl (ran_byteList true (.lit v) hs.1)
  exact ⟨t, ht, hran.sentOnly⟩

/-- A word written alone: its two halves on the wire, one `DCSET`, one `IDLE` (41_framing.md R144). -/
theorem exec_wrdata16 {s : State} (hs : BusFree s) (w : U16) :
    ∃ t, exec (.wrdata16 w) s = .next t ∧ SentOnly s t true (pixelWire w) (frameCalls true [hi w, lo w]) := by
  obtain ⟨t, ht, hran⟩ := runFramed_ran hs (l := wordList (.lit (hi w)) (.lit (lo w))) rfl rfl
    (ran_wordList (.lit (hi w)) (.lit (lo w)) hs.1)
  exact ⟨t, ht, hran.sentOnly⟩

/-- Settles O17: the halves of a word are its two bit slices. -/
theorem wrdata16SendsHighByteFirst : Obligations.Wrdata16SendsHighByteFirst :=
  fun _ w hs => exec_wrdata16 hs w

/-- A command with its parameters issued alone. -/
theorem runFramed_parameterList {s : State} (hs : BusFree s) (o : Byte) (ps : List Byte) :
    ∃ t, runFramed (parameterList o ps) s = .next t ∧
      SentOnly s t (if ps = [] then false else true) (parameterWire o ps) (parameterCalls o ps) := by
  obtain ⟨hdisc, hend⟩ := disciplined_parameterList o ps
  obtain ⟨t, ht, hran⟩ := runFramed_ran hs hdisc hend (ran_parameterList o ps hs.1)
  exact ⟨t, ht, hran.sentOnly⟩

/-- With a parameter `DC` is left high. -/
theorem runFramed_parameterList_cons {s : State} (hs : BusFree s) (o p : Byte) (ps : List Byte) :
    ∃ t, runFramed (parameterList o (p :: ps)) s = .next t ∧
      SentOnly s t true (parameterWire o (p :: ps)) (parameterCalls o (p :: ps)) := by
  obtain ⟨t, ht, hsent⟩ := runFramed_parameterList hs o (p :: ps)
  rw [if_neg (List.cons_ne_nil p ps)] at hsent
  exact ⟨t, ht, hsent⟩

/-- Settles O22: the seven commands are one list over opcode and parameters. -/
theorem parameterCommandsSendTheirBytes : Obligations.ParameterCommandsSendTheirBytes := by
  intro s hs
  exact ⟨fun ps => runFramed_parameterList hs OPC_IFMODE ps, fun p => runFramed_parameterList_cons hs OPC_PIXFMT p [],
    fun p => runFramed_parameterList_cons hs OPC_MADCTL p [], fun p => runFramed_parameterList_cons hs OPC_PWCTR3 p [],
    fun p q r u => runFramed_parameterList_cons hs OPC_VMCTR p [q, r, u], fun ps => runFramed_parameterList hs OPC_PGAMMA ps,
    fun ps => runFramed_parameterList hs OPC_NGAMMA ps⟩

/-- A command byte and the settling delay after it, issued alone. -/
theorem runFramed_command_hold {s : State} (hs : BusFree s) (o : Byte) (d : DelayTime) :
    ∃ t, runFramed (commandList o ++ [.hold d]) s = .next t ∧
      SentOnly s t false [.byte false o, .wait (delayMicros s.cfg d)]
        [.dcset false, .tx o, .idle, .wait (delayMicros s.cfg d)] := by
  have hideal := ran_command_hold o d hs.1
  obtain ⟨t, ht, hran⟩ := runFramed_ran hs rfl rfl hideal
  exact ⟨t, ht, hran.sentOnly⟩

/-- Settles O23: the settling delay is the last entry of both lists. -/
theorem settlingCommandsWaitAfterTheByte : Obligations.SettlingCommandsWaitAfterTheByte :=
  fun _ hs => ⟨runFramed_command_hold hs OPC_SLPOUT .slpout, runFramed_command_hold hs OPC_DISPON .dispon⟩

-- ## The window and the streams

/-- Settles O30: the window's list, with the four registers just latched. -/
theorem setwinSendsTheWindowBracket : Obligations.SetwinSendsTheWindowBracket := by
  intro s x0 y0 x1 y1 ⟨hrun, hf, hi⟩
  obtain ⟨hdisc, hend⟩ := disciplined_windowList
  exact runRequest_served (start := startSetwin x0 y0 x1 y1) hrun (whenInitialized_go hf hi) hdisc hend
    (ran_windowList (u := accepted .setwin windowList { s.regs with x0 := x0, y0 := y0, x1 := x1, y1 := y1 } s) hrun.2.1)

/-- `setWindow` in service: what it puts on the wire, by name. -/
theorem exec_setwin {s : State} (hs : InService s) (x0 y0 x1 y1 : U16) :
    ∃ t, exec (.setwin x0 y0 x1 y1) s = .next t ∧
      Served s t { s.regs with x0 := x0, y0 := y0, x1 := x1, y1 := y1 } false (windowWire x0 y0 x1 y1)
        (windowCalls x0 y0 x1 y1) := setwinSendsTheWindowBracket s x0 y0 x1 y1 hs

/-- `streamFill` in service (44_streaming.md R180). -/
theorem exec_streamfill {s : State} (hs : InService s) (n : U32) (c : U16) :
    ∃ t, exec (.streamfill n c) s = .next t ∧
      Served s t { s.regs with count := n, color := c, idx := n } true (streamWire (List.replicate n.toNat c))
        (streamCalls (List.replicate n.toNat c)) := by
  obtain ⟨hrun, hf, hi⟩ := hs
  obtain ⟨hdisc, hend⟩ := disciplined_fill
  exact runRequest_served (start := startStreamfill n c) hrun (whenInitialized_go hf hi) hdisc hend
    (ran_streamList .fillLoop _ n
      (u := accepted .streamfill (streamList .fillLoop) { s.regs with count := n, color := c, idx := 0 } s) hrun.2.1
      (idealAtom_fillLoop _ rfl))

/-- `streamBuffer` in service (44_streaming.md R181). -/
theorem exec_streambuf {s : State} (hs : InService s) {px : List U16} (hl : px.length < 2 ^ 32) :
    ∃ t, exec (.streambuf px) s = .next t ∧
      Served s t { s.regs with src := px, count := BitVec.ofNat 32 px.length, idx := BitVec.ofNat 32 px.length } true
        (streamWire px) (streamCalls px) := by
  obtain ⟨hrun, hf, hi⟩ := hs
  obtain ⟨hdisc, hend⟩ := disciplined_buf
  exact runRequest_served (start := startStreambuf px) hrun (whenInitialized_go hf hi) hdisc hend
    (ran_streamList .bufLoop px (BitVec.ofNat 32 px.length)
      (u := accepted .streambuf (streamList .bufLoop)
        { s.regs with src := px, count := BitVec.ofNat 32 px.length, idx := 0 } s) hrun.2.1
      (idealAtom_bufLoop _ rfl hl rfl))

/-- The calls of a stream, written out. -/
theorem streamCalls_eq (px : List U16) :
    streamCalls px = [.sel false, .dcset true] ++ px.flatMap (fun c => [.tx (hi c), .tx (lo c)]) ++ [.idle, .sel true] := by
  simp [streamCalls, frameCalls, List.map_flatMap]

theorem flatMap_replicate {α β : Type} (f : α → List β) (n : Nat) (a : α) :
    (List.replicate n a).flatMap f = (List.replicate n (f a)).flatten := by
  rw [List.flatMap, List.map_replicate]

/-- Settles O32: `count` times one pixel is a stream of `count` equal pixels. -/
theorem streamfillRepeatsTheColour : Obligations.StreamfillRepeatsTheColour := by
  intro s n c hs
  obtain ⟨t, ht, hserved⟩ := exec_streamfill hs n c
  rw [streamCalls_eq, streamWire, flatMap_replicate, flatMap_replicate] at hserved
  exact ⟨t, ht, hserved⟩

/-- Settles O33: the stream of the sequence. -/
theorem streambufSendsTheSequence : Obligations.StreambufSendsTheSequence := by
  intro s px hs hl
  obtain ⟨t, ht, hserved⟩ := exec_streambuf hs hl
  rw [streamCalls_eq] at hserved
  exact ⟨t, ht, hserved⟩

-- ## Raster primitives

theorem idealAtom_loadOne (v : State) :
    idealAtom .loadOne v = { v with regs := { v.regs with count := 1, idx := 0 } } := rfl

theorem idealAtom_loadRect (v : State) :
    idealAtom .loadRect v = { v with regs := { v.regs with count := mul32 v.regs.cw v.regs.ch, idx := 0 } } := rfl

/-- The gathered sequence is as long as the clipped region's area (45_raster.md R195). -/
theorem idealAtom_loadGather (v : State) :
    idealAtom .loadGather v = { v with regs := { v.regs with
      src := gather v.cfg.blitClipMode v.regs.src v.regs.pw v.regs.cw v.regs.ch
      count := mul32 v.regs.cw v.regs.ch, idx := 0 } } := by
  rw [← gather_count v.cfg.blitClipMode v.regs.src v.regs.pw]
  rfl

/-- Settles O36: a window of one pixel, a load of `COUNT` = 1 and a stream of one pixel. -/
theorem drawpixelSendsOnePixel : Obligations.DrawpixelSendsOnePixel := by
  intro s x y c hs hx hy
  exact runRequest_served (start := startDrawpixel x y c) hs.1 (startDrawpixel_go hs (offPanel_false.2 ⟨hx, hy⟩) c) rfl rfl
    (ran_raster .loadOne .fillLoop [c] 1
      { s.regs with px := x, py := y, color := c, x0 := x, y0 := y, x1 := x, y1 := y, count := 1, idx := 0 }
      (u := accepted .drawpixel pixelList { s.regs with px := x, py := y, color := c, x0 := x, y0 := y, x1 := x, y1 := y } s)
      hs.1.2.1 (fun v hv _ => by rw [idealAtom_loadOne, hv]; rfl)
      (fun v hv => by rw [idealAtom_fillLoop v (by rw [hv]), hv]; rfl))

/-- Settles O37: the window of the clipped region, a load of `COUNT` with its area, and a stream of the colour. -/
theorem fillrectFillsTheClippedRegion : Obligations.FillrectFillsTheClippedRegion := by
  intro s x y w h c hs hx hy hw hh
  exact runRequest_served (start := startFillrect x y w h c) hs.1
    (startFillrect_go hs (offPanel_false.2 ⟨hx, hy⟩) hw hh c) rfl rfl
    (ran_raster .loadRect .fillLoop _ (mul32 (clipWidth x w) (clipHeight y h))
      { regionRegs s.regs x y w h with color := c, idx := 0 }
      (u := accepted .fillrect rectList
        { regionRegs s.regs x y w h with color := c, count := s.regs.count, idx := s.regs.idx } s)
      hs.1.2.1 (fun v hv _ => by rw [idealAtom_loadRect, hv]; rfl)
      (fun v hv => by
        rw [idealAtom_fillLoop v (by rw [hv]), hv, ← mul32_toNat]
        rfl))

/-- Settles O38: the same window, a load of `SRC` with the gathered sequence and of `COUNT` with its length, and its
stream. -/
theorem drawimageStreamsTheGatheredPixels : Obligations.DrawimageStreamsTheGatheredPixels := by
  intro s x y w h px hs hx hy hw hh hl hm
  have hcount := gather_count s.cfg.blitClipMode px w (clipWidth x w) (clipHeight y h)
  have hlen := gather_length_lt s.cfg.blitClipMode px w (clipWidth x w) (clipHeight y h)
  obtain ⟨t, ht, hserved⟩ := runRequest_served (start := startDrawimage x y w h px) hs.1
    (startDrawimage_go hs (offPanel_false.2 ⟨hx, hy⟩) hw hh hl hm) rfl rfl
    (ran_raster .loadGather .bufLoop (gather s.cfg.blitClipMode px w (clipWidth x w) (clipHeight y h))
      (mul32 (clipWidth x w) (clipHeight y h))
      { regionRegs s.regs x y w h with
        src := gather s.cfg.blitClipMode px w (clipWidth x w) (clipHeight y h), idx := 0 }
      (u := accepted .drawimage imageList
        { regionRegs s.regs x y w h with src := px, count := s.regs.count, idx := s.regs.idx } s)
      hs.1.2.1
      (fun v hv hc => by rw [idealAtom_loadGather, hv, hc]; rfl)
      (fun v hv => by
        rw [idealAtom_bufLoop v (by rw [hv]) (by rw [hv]; exact hlen) (by rw [hv]; exact hcount.symm), hv]
        rfl))
  exact ⟨t, _, ht, rfl, hserved⟩

end Sys2Proof.Machine
end

section
/-! What the observer holds after an operation in service (43_window.md R174, 46_panel_observer.md R210 to R217): a pixel, a
window, a stream, a region painted whole, and `initialize()`. -/

namespace Sys2Proof.Machine

-- ## Poison

/-- What a poisoned observer holds of the elements that can be unspecified (46_panel_observer.md R216). -/
theorem Panel.poison_unspecified (p : Panel) :
    p.poison.ok = false ∧ (∀ o, p.poison.regOf o = none) ∧ p.poison.sc = none ∧ p.poison.ec = none ∧
      p.poison.sp = none ∧ p.poison.ep = none ∧ p.poison.ptr = .unspecified ∧ ∀ c r, p.poison.gram.read c r = none :=
  ⟨rfl, fun _ => rfl, rfl, rfl, rfl, rfl, rfl, fun _ _ => rfl⟩

theorem Panel.onByte_unusable {p : Panel} (h : p.ok = false) (wrap : PanelWrap) (d : Bool) (v : Byte) :
    p.onByte wrap d v = p.poison := by
  simp [Panel.onByte, h]

/-- Settles O48: a silent observer stays silent, and the byte it hears poisons it again. -/
theorem poisonLastsUntilAHardwareReset : Obligations.PoisonLastsUntilAHardwareReset := by
  intro wrap p es hok hpulse hes
  have hsilent : (p.feed wrap es).silent := Panel.silent_feed es ⟨hok, hpulse⟩ hes
  refine ⟨hsilent.1, Panel.picture_unclaimed hsilent.1, fun d v q hq => ?_⟩
  rw [hq, Panel.onByte_unusable hsilent.1]
  exact Panel.poison_unspecified _

-- ## One pixel

/-- A ready, selected observer that is armed takes pixels. -/
theorem Panel.writes_of_armed {p : Panel} {x0 y0 x1 y1 : U16} {q : PixelPtr} (h : PanelReady p) (hs : p.sel = true)
    (ha : p.armed x0 y0 x1 y1 q) : p.Writes x0 y0 x1 y1 ∧ p.ptr = q := by
  obtain ⟨hok, hsettle, -, -, htakes, -⟩ := h
  obtain ⟨-, hsc, hec, hsp, hep, hcmd, hptr, hhalf⟩ := ha
  exact ⟨⟨⟨hok, hsettle, hs⟩, hcmd, hhalf, htakes, hsc, hec, hsp, hep⟩, hptr⟩

theorem Memory.read_write_elsewhere (m : Memory) {c r i j : Nat} (v : U16) (hc : c < WIDTH) (hi : i < WIDTH)
    (h : i ≠ c ∨ j ≠ r) : (m.write c r v).read i j = m.read i j :=
  Memory.read_write_other m v hc hi (fun ⟨h1, h2⟩ => h.elim (fun n => n h1) (fun n => n h2))

/-- Settles O18: the two bytes are one pixel put, at the pointer or where `PANEL_WRAP` says. -/
theorem wrdata16StoresOnePixel : Obligations.Wrdata16StoresOnePixel := by
  intro s w x0 y0 x1 y1 hfree hready hsel
  obtain ⟨t, ht, hsent⟩ := exec_wrdata16 hfree w
  have hpanel := hsent.panel_eq
  refine ⟨fun c r harmed hc hr => ⟨t, ht, ?_⟩, fun harmed hx hy => ⟨t, ht, fun hwrap => ?_, fun hwrap => ?_⟩⟩
  · obtain ⟨hwrites, hptr⟩ := Panel.writes_of_armed hready hsel harmed
    rw [hpanel, Panel.feed_pixel hwrites hptr]
    exact ⟨hwrites.listens.1, Memory.read_write_same _ _ _ _,
      fun i j hi _ hne => Memory.read_write_elsewhere _ w hc hi hne, rfl⟩
  · obtain ⟨hwrites, hptr⟩ := Panel.writes_of_armed hready hsel harmed
    rw [hpanel, hwrap, Panel.feed_pixel_overflow hwrites hptr]
    rfl
  · obtain ⟨hwrites, hptr⟩ := Panel.writes_of_armed hready hsel harmed
    rw [hpanel, hwrap, Panel.feed_pixel_wrap hwrites hptr]
    exact ⟨hwrites.listens.1, Memory.read_write_same _ _ _ _,
      fun i j hi _ hne => Memory.read_write_elsewhere _ w hx hi hne, rfl⟩

-- ## A window and a stream

/-- A block that served a request serves the next one. -/
theorem Served.inService {s t : State} {r : Regs} {d : Bool} {w c : List Event} (h : Served s t r d w c)
    (hs : InService s) : InService t := by
  obtain ⟨⟨-, -, hto⟩, hf, hi⟩ := hs
  exact ⟨⟨h.busy_eq, h.bus_eq, by rw [h.cfg_eq, hto]⟩, by rw [h.fault_eq, hf], by rw [h.initState_eq, hi]⟩

/-- The preconditions of a window, with the panel's size written out (43_window.md R174). -/
theorem window_inside_iff {x0 y0 x1 y1 : U16} :
    x0.toNat ≤ x1.toNat ∧ x1.toNat ≤ 319 ∧ y0.toNat ≤ y1.toNat ∧ y1.toNat ≤ 479 ↔
      (x0.toNat ≤ x1.toNat ∧ x1.toNat < WIDTH) ∧ y0.toNat ≤ y1.toNat ∧ y1.toNat < HEIGHT := by
  simp only [WIDTH, HEIGHT]
  omega

/-- Settles O31: the window bracket as the observer hears it, with its preconditions met or not. -/
theorem setwinArmsThePanelOrPoisonsIt : Obligations.SetwinArmsThePanelOrPoisonsIt := by
  intro s x0 y0 x1 y1 hs hready
  obtain ⟨t, ht, hserved⟩ := exec_setwin hs x0 y0 x1 y1
  rw [window_inside_iff]
  refine ⟨t, ht, hserved.status_eq, fun hin => ?_, fun hout => ?_⟩
  · obtain ⟨hready', harmed, hgram⟩ := Panel.ready_window (wrap := s.cfg.panelWrap) hready hin.1 hin.2
    rw [hserved.panel_eq]
    exact ⟨harmed, hready', fun c r => by rw [hgram]⟩
  · obtain ⟨hok, hsettle, hpulse, hun, -, -⟩ := hready
    rw [hserved.panel_eq]
    exact (Panel.feed_window_bad hok hsettle hpulse hun hout).1

/-- Settles O34: the window bracket arms the observer at the first cell, and the stream goes on from there. -/
theorem streamedPixelsLandInScanOrder : Obligations.StreamedPixelsLandInScanOrder := by
  intro s x0 y0 x1 y1 px hs hready hx hx1 hy hy1 hl
  obtain ⟨hinx, hiny⟩ := window_inside_iff.1 ⟨hx, hx1, hy, hy1⟩
  obtain ⟨t, ht, hwin⟩ := exec_setwin hs x0 y0 x1 y1
  obtain ⟨u, hu, hstream⟩ := exec_streambuf (hwin.inService hs) hl
  obtain ⟨hready', harmed, hgram⟩ := Panel.ready_window (wrap := s.cfg.panelWrap) hready hinx hiny
  rw [← hwin.panel_eq] at hready' harmed hgram
  refine ⟨t, u, ht, hu, hstream.status_eq, fun hfits => ?_, fun hover hwrap => ?_⟩
  · obtain ⟨hready'', -, hset, hother⟩ := Panel.feed_stream (wrap := t.cfg.panelWrap) hready' harmed hinx hiny hfits
    rw [← hstream.panel_eq] at hready'' hset hother
    refine ⟨hready''.1, hset, fun c r hc _ hno => ?_⟩
    rw [hother c r hc (fun n hn => not_and_or.2 (hno n hn)), hgram]
  · rw [hstream.panel_eq, hwin.cfg_eq, hwrap]
    exact (Panel.feed_stream_overflow hready' harmed hinx hiny hover).1

-- ## A stream in two parts

/-- Data bytes neither start a reset pulse nor, while the observer claims, change the select level. -/
theorem Panel.feed_dataWire_lines {wrap : PanelWrap} : ∀ (vs : List Byte) (p : Panel), p.pulse = .quiet →
    (p.feed wrap (dataWire vs)).pulse = .quiet ∧
      ((p.feed wrap (dataWire vs)).ok = true → (p.feed wrap (dataWire vs)).sel = p.sel)
  | [], _, h => ⟨h, fun _ => rfl⟩
  | v :: vs, p, h => by
    obtain ⟨hsel, hpulse⟩ := Panel.onByte_lines true v wrap p
    obtain ⟨hq, hs⟩ := Panel.feed_dataWire_lines vs (p.onByte wrap true v) (hpulse h)
    refine ⟨hq, fun hok => (hs hok).trans (hsel ?_)⟩
    by_contra hn
    have hsilent := Panel.silent_feed (wrap := wrap) (dataWire vs) (p := p.onByte wrap true v)
      ⟨Bool.eq_false_of_not_eq_true hn, hpulse h⟩ (by simp [dataWire])
    exact Bool.false_ne_true (hsilent.1.symm.trans hok)

/-- A bracket closed and opened again between data bytes is not noticed: an observer that claims is still selected, and one
that does not is poisoned by the next byte whatever its select level. -/
theorem Panel.feed_reselect {wrap : PanelWrap} {p : Panel} (hq : p.pulse = .quiet) (hs : p.ok = true → p.sel = true)
    (vs : List Byte) :
    p.feed wrap ([.sel true, .sel false] ++ dataWire vs ++ [.sel true]) = p.feed wrap (dataWire vs ++ [.sel true]) := by
  have hre : p.feed wrap [.sel true, .sel false] = { p with sel := true } := Panel.onSel_false hq
  rw [List.append_assoc, Panel.feed_append, hre]
  rcases Bool.eq_false_or_eq_true p.ok with hok | hok
  · have hsame : ({ p with sel := true } : Panel) = p := by rw [← hs hok]
    rw [hsame]
  · cases vs with
    | nil => rfl
    | cons v vs =>
      change Panel.feed wrap (Panel.onByte wrap true v { p with sel := true }) _ = Panel.feed wrap (p.onByte wrap true v) _
      rw [Panel.onByte_unclaimed hok, Panel.onByte_unusable hok]

theorem pixels_dataWire (px : List U16) : px.flatMap pixelWire = dataWire (px.flatMap (fun c => [hi c, lo c])) :=
  (pixels_wire px).symm

/-- Settles O35: the first bracket's end and the second one's beginning are not noticed. -/
theorem streamingInTwoPartsIsOneStream : Obligations.StreamingInTwoPartsIsOneStream := by
  intro s a b hs hpulse hl
  rw [List.length_append] at hl
  obtain ⟨t, ht, hta⟩ := exec_streambuf (px := a) hs (by omega)
  obtain ⟨u, hu, hub⟩ := exec_streambuf (px := b) (hta.inService hs) (by omega)
  obtain ⟨v, hv, hvab⟩ := exec_streambuf (px := a ++ b) hs (by rw [List.length_append]; exact hl)
  refine ⟨t, u, v, ht, hu, hv, ?_⟩
  have hopen : s.panel.feed s.cfg.panelWrap [.sel false] = { s.panel with sel := true } := Panel.onSel_false hpulse
  obtain ⟨hq, hsel⟩ := Panel.feed_dataWire_lines (wrap := s.cfg.panelWrap) (a.flatMap (fun c => [hi c, lo c]))
    { s.panel with sel := true } hpulse
  have hre := Panel.feed_reselect (wrap := s.cfg.panelWrap) hq hsel (b.flatMap (fun c => [hi c, lo c]))
  simp only [← pixels_dataWire, ← hopen, ← Panel.feed_append] at hre
  rw [hub.panel_eq, hta.panel_eq, hta.cfg_eq, hvab.panel_eq, ← Panel.feed_append]
  simpa [streamWire] using hre

end Sys2Proof.Machine
end

section
/-! Regions (45_raster.md R193 to R198, 46_panel_observer.md R217): the gather entry by entry, a clipped rectangle and
itself, and what a region painted whole leaves in the frame memory. -/

namespace Sys2Proof.Machine

-- ## The gather

/-- Inside the sequence a read is the entry. -/
theorem getElem?_eq_memRead {src : List U16} {i : Nat} (h : i < src.length) : src[i]? = some (memRead src i) := by
  simp [memRead, h]

/-- Row by row with a row pitch is entry by entry with a computed index (45_raster.md R195). -/
theorem gatherStride_eq_map (src : List U16) (pw ch : Nat) {cw : Nat} (hcw : 0 < cw) :
    gatherStride src pw cw ch = (List.range (cw * ch)).map (fun i => memRead src (i / cw * pw + i % cw)) := by
  unfold gatherStride
  induction ch with
  | zero => rfl
  | succ ch ih =>
    rw [List.range_succ, List.flatMap_append, ih, Nat.mul_succ, List.range_add, List.map_append, List.flatMap_singleton,
      List.map_map]
    congr 1
    refine List.map_congr_left fun c hc => ?_
    have hlt : c < cw := List.mem_range.1 hc
    rw [Function.comp_apply, Nat.mul_add_div hcw, Nat.div_eq_of_lt hlt, Nat.mul_add_mod, Nat.mod_eq_of_lt hlt, Nat.add_zero]

/-- An index of the clipped part lies inside the unclipped one. -/
theorem gather_index_lt {r c cw pw ch ph : Nat} (hr : r < ch) (hc : c < cw) (hcw : cw ≤ pw) (hch : ch ≤ ph) :
    r * pw + c < pw * ph := by
  have h : (r + 1) * pw ≤ ph * pw := Nat.mul_le_mul_right pw (hr.trans_le hch)
  rw [Nat.add_mul, Nat.one_mul, Nat.mul_comm ph] at h
  omega

/-- Row and column of an index of rows `w` long. -/
theorem row_of_index {w c : Nat} (hc : c < w) (r : Nat) : (r * w + c) / w = r := by
  rw [Nat.mul_comm, Nat.mul_add_div (Nat.zero_lt_of_lt hc), Nat.div_eq_of_lt hc, Nat.add_zero]

theorem column_of_index {w c : Nat} (hc : c < w) (r : Nat) : (r * w + c) % w = c := by
  rw [Nat.mul_add_mod', Nat.mod_eq_of_lt hc]

theorem gather_eq_stride {m : BlitClipMode} (hm : m ≠ .referenceContiguous) (src : List U16) (pw cw ch : U16) :
    gather m src pw cw ch = gatherStride src pw.toNat cw.toNat ch.toNat := by
  cases m with
  | referenceContiguous => exact absurd rfl hm
  | _ => rfl

/-- With no column clipped or at most one row left the two readings of an index agree. -/
theorem gatherStride_eq_contiguous (src : List U16) {pw cw ch : Nat} (h : cw = pw ∨ ch ≤ 1) :
    gatherStride src pw cw ch = gatherContiguous src cw ch := by
  rcases Nat.eq_zero_or_pos cw with rfl | hcw
  · simp [gatherStride, gatherContiguous]
  rw [gatherStride_eq_map src pw ch hcw, gatherContiguous]
  refine List.map_congr_left fun i hi => congrArg (memRead src) ?_
  rcases h with rfl | hch
  · exact Nat.div_add_mod' i cw
  · have hlt : i < cw := (List.mem_range.1 hi).trans_le ((Nat.mul_le_mul_left cw hch).trans_eq (Nat.mul_one cw))
    rw [Nat.div_eq_of_lt hlt, Nat.mod_eq_of_lt hlt, Nat.zero_mul, Nat.zero_add]

/-- Settles O41: both gathers are maps over the indices of the clipped part, and every index lies inside the source. -/
theorem gatherPicksByMode : Obligations.GatherPicksByMode := by
  intro src pw ph cw ch hcw hch hlen
  refine ⟨fun m => gather_length m src pw cw ch, fun m r c hm hr hc => ?_, fun i hi => ?_, fun h m n => ?_⟩
  · have hpos : 0 < cw.toNat := Nat.zero_lt_of_lt hc
    have hidx : r * cw.toNat + c < cw.toNat * ch.toNat := gather_index_lt hr hc (Nat.le_refl _) (Nat.le_refl _)
    rw [gather_eq_stride hm, gatherStride_eq_map src _ _ hpos, List.getElem?_map, List.getElem?_range hidx, Option.map_some,
      row_of_index hc, column_of_index hc, getElem?_eq_memRead ((gather_index_lt hr hc hcw hch).trans_le hlen)]
  · have hsrc : i < src.length := (hi.trans_le (Nat.mul_le_mul hcw hch)).trans_le hlen
    rw [gather, gatherContiguous, List.getElem?_map, List.getElem?_range hi, Option.map_some, getElem?_eq_memRead hsrc]
  · have hsame : ∀ m, gather m src pw cw ch = gatherContiguous src cw.toNat ch.toNat := by
      intro m
      by_cases hm : m = .referenceContiguous
      · subst hm; rfl
      · rw [gather_eq_stride hm]
        exact gatherStride_eq_contiguous src (h.imp (congrArg BitVec.toNat) id)
    rw [hsame m, hsame n]

-- ## A rectangle and its clipped self

theorem clipWidth_idem (x w : U16) : clipWidth x (clipWidth x w) = clipWidth x w := by
  apply BitVec.eq_of_toNat_eq
  rw [clipWidth_toNat, clipWidth_toNat]
  omega

theorem clipHeight_idem (y h : U16) : clipHeight y (clipHeight y h) = clipHeight y h := by
  apply BitVec.eq_of_toNat_eq
  rw [clipHeight_toNat, clipHeight_toNat]
  omega

theorem ne_zero_of_one_le {a : U16} (h : 1 ≤ a.toNat) : a ≠ 0 := by
  rintro rfl
  exact absurd h (by decide)

/-- A rectangle of no columns or no rows has none after clipping. -/
theorem clip_empty {x y w h : U16} (he : w = 0 ∨ h = 0) : clipWidth x w = 0 ∨ clipHeight y h = 0 := by
  refine he.imp (fun hw => ?_) (fun hh => ?_)
  · apply BitVec.eq_of_toNat_eq
    rw [clipWidth_toNat, hw]
    exact Nat.zero_min _
  · apply BitVec.eq_of_toNat_eq
    rw [clipHeight_toNat, hh]
    exact Nat.zero_min _

/-- Settles O40: both end at the same check, or both send the same clipped region. -/
theorem fillrectClippingIsIdempotent : Obligations.FillrectClippingIsIdempotent := by
  intro s x y w h c hs
  obtain ⟨⟨hb, -, -⟩, hf, hi⟩ := id hs
  by_cases ho : offPanel x y = true
  · exact ⟨_, _, runRequest_rejected hb (startFillrect_offPanel hf hi ho w h c),
      runRequest_rejected hb (startFillrect_offPanel hf hi ho _ _ c), rfl, rfl, rfl, rfl⟩
  have ho : offPanel x y = false := Bool.eq_false_of_not_eq_true ho
  by_cases he : w = 0 ∨ h = 0
  · exact ⟨_, _, runRequest_rejected hb (startFillrect_empty hf hi ho he c),
      runRequest_rejected hb (startFillrect_empty hf hi ho (clip_empty he) c), rfl, rfl, rfl, rfl⟩
  obtain ⟨hx, hy⟩ := offPanel_false.1 ho
  obtain ⟨hw, hh⟩ := not_or.1 he
  obtain ⟨t, ht, hserved⟩ := fillrectFillsTheClippedRegion s x y w h c hs hx hy hw hh
  obtain ⟨u, hu, hclipped⟩ := fillrectFillsTheClippedRegion s x y (clipWidth x w) (clipHeight y h) c hs hx hy
    (ne_zero_of_one_le (clippedAxis_clipWidth hx hw).one_le) (ne_zero_of_one_le (clippedAxis_clipHeight hy hh).one_le)
  rw [clipWidth_idem, clipHeight_idem] at hclipped
  exact ⟨t, u, ht, hu, by rw [hclipped.wire_eq, hserved.wire_eq], by rw [hclipped.calls_eq, hserved.calls_eq],
    by rw [hclipped.status_eq, hserved.status_eq], by rw [hclipped.panel_eq, hserved.panel_eq]⟩

-- ## A region painted whole

/-- The observer `q` is the ready observer `p` after the region of `w` columns and `h` pages from `(x, y)` was painted with
`px`: its pixels row by row, no other cell changed, the pointer past the end (46_panel_observer.md R217). -/
structure Painted (p q : Panel) (x y w h : Nat) (px : List U16) : Prop where
  ready : PanelReady q
  ptr_eq : q.ptr = .pastEnd
  cell_eq : ∀ c r, c < w → r < h → q.gram.read (x + c) (y + r) = px[r * w + c]?
  other_eq : ∀ i j, i < WIDTH → ¬(x ≤ i ∧ i < x + w ∧ y ≤ j ∧ j < y + h) → q.gram.read i j = p.gram.read i j

/-- A painted observer shows what it holds (46_panel_observer.md R215). -/
theorem Painted.picture {p q : Panel} {x y w h : Nat} {px : List U16} (hp : Painted p q x y w h px) (i j : Nat)
    (hi : i < 320) (hj : j < 480) : q.picture i j = q.gram.read i j := by
  obtain ⟨hok, -, -, -, -, hon⟩ := hp.ready
  exact Panel.picture_shown hok hon hi hj

/-- The window of a region and a stream of its area paint it. -/
theorem Panel.feed_region {wrap : PanelWrap} {p : Panel} {x0 y0 x1 y1 : U16} {px : List U16} {w h : Nat}
    (hready : PanelReady p) (hx : x0.toNat + w = x1.toNat + 1) (hw : 0 < w) (hx1 : x1.toNat ≤ 319)
    (hy : y0.toNat + h = y1.toNat + 1) (hh : 0 < h) (hy1 : y1.toNat ≤ 479) (hl : px.length = w * h) :
    Painted p (p.feed wrap (windowWire x0 y0 x1 y1 ++ streamWire px)) x0.toNat y0.toNat w h px := by
  obtain ⟨hinx, hiny⟩ := (window_inside_iff (x0 := x0) (y0 := y0)).1 ⟨by omega, hx1, by omega, hy1⟩
  have hcols : x1.toNat - x0.toNat + 1 = w := by omega
  have hrows : y1.toNat - y0.toNat + 1 = h := by omega
  obtain ⟨hready', harmed, hgram⟩ := Panel.ready_window (wrap := wrap) hready hinx hiny
  obtain ⟨hready'', hptr, hset, hother⟩ := Panel.feed_stream (wrap := wrap) (px := px) hready' harmed hinx hiny
    (by rw [hcols, hrows, hl])
  rw [hcols] at hset hother
  rw [Panel.feed_append]
  refine ⟨hready'', ?_, fun c r hc hr => ?_, fun i j hi hout => ?_⟩
  · rw [hptr, scanPtr, hcols, hrows, hl]
    exact if_neg (Nat.lt_irrefl _)
  · have hlt : r * w + c < px.length := hl ▸ gather_index_lt hr hc (Nat.le_refl w) (Nat.le_refl h)
    have hcell := hset (r * w + c) _ (List.getElem?_eq_getElem hlt)
    rw [row_of_index hc, column_of_index hc] at hcell
    rw [hcell, List.getElem?_eq_getElem hlt]
  · rw [hother i j hi fun n hn hij => hout ?_, hgram]
    have hmod : n % w < w := Nat.mod_lt n hw
    have hdiv : n / w < h := Nat.div_lt_of_lt_mul (hl ▸ hn)
    rw [hij.1, hij.2]
    exact ⟨Nat.le_add_right _ _, Nat.add_lt_add_left hmod _, Nat.le_add_right _ _, Nat.add_lt_add_left hdiv _⟩

/-- The clipped region of an anchor on the panel and a size that is not zero, painted. -/
theorem Panel.feed_clippedRegion {wrap : PanelWrap} {p : Panel} {x y w h : U16} {px : List U16} (hready : PanelReady p)
    (hx : x.toNat < 320) (hy : y.toNat < 480) (hw : w ≠ 0) (hh : h ≠ 0)
    (hl : px.length = (clipWidth x w).toNat * (clipHeight y h).toNat) :
    Painted p (p.feed wrap (windowWire x y (lastOf x (clipWidth x w)) (lastOf y (clipHeight y h)) ++ streamWire px))
      x.toNat y.toNat (clipWidth x w).toNat (clipHeight y h).toNat px := by
  have hcw := clippedAxis_clipWidth hx hw
  have hch := clippedAxis_clipHeight hy hh
  have hw1 := hcw.one_le
  have hh1 := hch.one_le
  exact Panel.feed_region hready (by rw [hcw.lastOf_eq]; omega) hw1 hcw.lastOf_le (by rw [hch.lastOf_eq]; omega) hh1
    hch.lastOf_le hl

/-- Painted with one colour, every cell of the region holds it. -/
theorem Painted.colour {p q : Panel} {x y w h : Nat} {c : U16} (hp : Painted p q x y w h (List.replicate (w * h) c))
    (i j : Nat) (hi : i < 320) :
    q.gram.read i j = if x ≤ i ∧ i < x + w ∧ y ≤ j ∧ j < y + h then some c else p.gram.read i j := by
  split
  case isTrue hin =>
    have hc : i - x < w := by omega
    have hr : j - y < h := by omega
    have hcell := hp.cell_eq (i - x) (j - y) hc hr
    rw [Nat.add_sub_cancel' hin.1, Nat.add_sub_cancel' hin.2.2.1] at hcell
    rw [hcell, List.getElem?_replicate, if_pos (gather_index_lt hr hc (Nat.le_refl w) (Nat.le_refl h))]
  case isFalse hout => exact hp.other_eq i j hi hout

/-- Settles O46: the clipped region, or the one cell, is painted with the colour. -/
theorem filledRectangleHoldsTheColour : Obligations.FilledRectangleHoldsTheColour := by
  intro s x y c hs hready hx hy
  refine ⟨fun w h hw hh => ?_, ?_⟩
  · obtain ⟨t, ht, hserved⟩ := fillrectFillsTheClippedRegion s x y w h c hs hx hy hw hh
    have hpaint := Panel.feed_clippedRegion (wrap := s.cfg.panelWrap) hready hx hy hw hh
      (List.length_replicate (n := (clipWidth x w).toNat * (clipHeight y h).toNat) (a := c))
    rw [← hserved.panel_eq] at hpaint
    exact ⟨t, ht, hpaint.ready.1, hpaint.ptr_eq, hpaint.picture, fun i j hi _ => hpaint.colour i j hi⟩
  · obtain ⟨t, ht, hserved⟩ := drawpixelSendsOnePixel s x y c hs hx hy
    have hpaint := Panel.feed_region (wrap := s.cfg.panelWrap) (px := List.replicate (1 * 1) c) hready
      (x0 := x) (x1 := x) (y0 := y) (y1 := y) rfl Nat.one_pos (by omega) rfl Nat.one_pos (by omega) rfl
    have hpanel : t.panel = s.panel.feed s.cfg.panelWrap (windowWire x y x y ++ streamWire (List.replicate (1 * 1) c)) :=
      hserved.panel_eq
    rw [← hpanel] at hpaint
    refine ⟨t, ht, hpaint.ready.1, hpaint.picture, fun i j hi _ => ?_⟩
    rw [hpaint.colour i j hi]
    exact if_congr (by omega) rfl rfl

/-- Settles O47: the clipped region is painted with the gathered pixels, which are those of the source's rows. -/
theorem drawimagePaintsItsPicture : Obligations.DrawimagePaintsItsPicture := by
  intro s x y w h px hs hready hx hy hw hh hl hmode
  have hcw : (clipWidth x w).toNat ≤ w.toNat := by rw [clipWidth_toNat]; exact Nat.min_le_left _ _
  have hch : (clipHeight y h).toNat ≤ h.toNat := by rw [clipHeight_toNat]; exact Nat.min_le_left _ _
  obtain ⟨hlen, hstride, -, hagree⟩ := gatherPicksByMode px w h (clipWidth x w) (clipHeight y h) hcw hch hl
  have hgather : gather s.cfg.blitClipMode px w (clipWidth x w) (clipHeight y h) =
      gather .strideCrop px w (clipWidth x w) (clipHeight y h) := by
    rcases hmode with hm | ⟨hcols, -⟩
    · rw [hm]
    · exact hagree (.inl hcols) _ _
  have hreject : s.cfg.blitClipMode = .reject → clipWidth x w = w ∧ clipHeight y h = h := by
    intro hr
    rcases hmode with hm | hfits
    · rw [hm] at hr; cases hr
    · exact hfits
  obtain ⟨t, g, ht, rfl, hserved⟩ := drawimageStreamsTheGatheredPixels s x y w h px hs hx hy hw hh hl hreject
  have hpaint := Panel.feed_clippedRegion (wrap := s.cfg.panelWrap) hready hx hy hw hh (hlen .strideCrop)
  rw [← hgather, ← hserved.panel_eq] at hpaint
  refine ⟨t, ht, hpaint.ready.1, hpaint.picture, fun c r hc hr => ?_, fun i j hi _ hout => hpaint.other_eq i j hi hout⟩
  rw [hpaint.cell_eq c r hc hr, hgather, hstride .strideCrop r c nofun hr hc]

end Sys2Proof.Machine
end

section
/-! What the observer holds after `initialize()` (46_panel_observer.md R209, 95_test_vectors.md TV-O1): the reset pulse clears
it, and each configuration command adds its own register or flag. -/

namespace Sys2Proof.Machine

/-- A selected observer during the configuration: no window, nothing painted, no settling time owed; its last command, the
number of that command's data bytes, whether it is awake and displays, and its registers. -/
def Panel.configured (poisons : Nat) (cmd : Option Byte) (npar : Nat) (sleepOut displayOn : Bool)
    (reg : List (Nat × List Byte)) : Panel :=
  { Panel.fresh npar true poisons with cmd := cmd, sleepOut := sleepOut, displayOn := displayOn, reg := reg }

section
variable {wrap : PanelWrap} {k n : Nat} {cmd : Option Byte} {sl d : Bool} {reg : List (Nat × List Byte)}

/-- Only an address command can be left unfinished during the configuration. -/
theorem Panel.configured_unfinished (hc : cmd ≠ some OPC_CASET ∧ cmd ≠ some OPC_PASET) :
    (Panel.configured k cmd n sl d reg).unfinished = false := by
  simp [Panel.unfinished, Panel.configured, Panel.fresh, Panel.initial, hc.1, hc.2]

theorem Panel.configured_parameters (hc : cmd ≠ some OPC_CASET ∧ cmd ≠ some OPC_PASET) {o : Byte}
    (ho : keepsParameters o = true) (vs : List Byte) :
    (Panel.configured k cmd n sl d reg).feed wrap (parameterWire o vs) =
      Panel.configured k (some o) vs.length sl d (sparseSet o.toNat vs reg) :=
  Panel.feed_parameters ho vs ⟨rfl, rfl, rfl⟩ (Panel.configured_unfinished hc)

theorem Panel.configured_slpout (hc : cmd ≠ some OPC_CASET ∧ cmd ≠ some OPC_PASET) {t : Nat} (ht : SETTLE_TIME ≤ t) :
    (Panel.configured k cmd n sl d reg).feed wrap [.byte false 0x11, .wait t] =
      Panel.configured k (some 0x11) 0 true d reg :=
  Panel.feed_slpout ⟨rfl, rfl, rfl⟩ (Panel.configured_unfinished hc) ht rfl

theorem Panel.configured_dispon (hc : cmd ≠ some OPC_CASET ∧ cmd ≠ some OPC_PASET) {t : Nat} (ht : SETTLE_TIME ≤ t) :
    (Panel.configured k cmd n sl d reg).feed wrap [.byte false 0x29, .wait t] =
      Panel.configured k (some 0x29) 0 sl true reg :=
  Panel.feed_dispon ⟨rfl, rfl, rfl⟩ (Panel.configured_unfinished hc) ht rfl

end

/-- The registers after `initialize()`: the parameter bytes sent, by opcode (46_panel_observer.md R209). -/
def initRegs (c : Config) : List (Nat × List Byte) :=
  [(0x36, [0x28]), (0x3A, [0x55]), (0xB0, c.ifmodeParams), (0xC2, [0x44]), (0xC5, [0, 0, 0, 0]),
    (0xE0, c.gammaPos.toList), (0xE1, c.gammaNeg.toList)]

/-- The configuration commands, heard one after the other by a selected observer fresh from its reset. -/
theorem Panel.feed_configuration {wrap : PanelWrap} {k n : Nat} {c : Config} (hs : SETTLE_TIME ≤ c.tSlpout)
    (hd : SETTLE_TIME ≤ c.tDispon) :
    (Panel.configured k none n false false []).feed wrap (configurationWire c) =
      Panel.configured k (some 0x29) 0 true true (initRegs c) := by
  have hsplit : configurationWire c = parameterWire 0xB0 c.ifmodeParams ++ [.byte false 0x11, .wait c.tSlpout] ++
      parameterWire 0x3A [0x55] ++ parameterWire 0x36 [0x28] ++ parameterWire 0xC2 [0x44] ++
      parameterWire 0xC5 [0, 0, 0, 0] ++ parameterWire 0xE0 c.gammaPos.toList ++ parameterWire 0xE1 c.gammaNeg.toList ++
      [.byte false 0x29, .wait c.tDispon] := by
    simp [configurationWire, commandWire]
  rw [hsplit]
  simp only [Panel.feed_append]
  rw [Panel.configured_parameters (by decide) rfl, Panel.configured_slpout (by decide) hs,
    Panel.configured_parameters (by decide) rfl, Panel.configured_parameters (by decide) rfl,
    Panel.configured_parameters (by decide) rfl, Panel.configured_parameters (by decide) rfl,
    Panel.configured_parameters (by decide) rfl, Panel.configured_parameters (by decide) rfl,
    Panel.configured_dispon (by decide) hd]
  rfl

/-- The whole wire trace of `initialize()`, heard by an observer that owes no settling time. -/
theorem Panel.feed_init {wrap : PanelWrap} {p : Panel} {c : Config} (hc : c.WithinBounds) (hp : p.settle = 0) :
    p.feed wrap (initWire c) =
      { Panel.configured p.poisons (some 0x29) 0 true true (initRegs c) with sel := false } := by
  obtain ⟨-, hlow, hpost, hs, hd⟩ := hc
  have hsel : (Panel.fresh p.npar p.sel p.poisons).feed wrap [.sel false] =
      Panel.configured p.poisons none p.npar false false [] := rfl
  rw [initWire, Panel.feed_append, Panel.feed_append, Panel.feed_append,
    Panel.feed_resetPulse (by omega) (by omega) hp, hsel, Panel.feed_configuration hs hd]
  rfl

/-- A key that is not listed reads as unspecified. -/
theorem sparseGet_eq_none {α : Type} {k : Nat} {m : List (Nat × α)} (h : ∀ e ∈ m, k ≠ e.1) : sparseGet k m = none := by
  induction m with
  | nil => rfl
  | cons e m ih =>
    obtain ⟨j, v⟩ := e
    rw [sparseGet, if_neg (h (j, v) List.mem_cons_self)]
    exact ih (fun e he => h e (List.mem_cons_of_mem _ he))

/-- No register but those of the seven commands with kept parameters is specified. -/
theorem initRegs_other {c : Config} {o : Byte} (ho : o ∉ ([0xB0, 0x3A, 0x36, 0xC2, 0xC5, 0xE0, 0xE1] : List Byte)) :
    sparseGet o.toNat (initRegs c) = none := by
  have hne : ∀ b ∈ ([0xB0, 0x3A, 0x36, 0xC2, 0xC5, 0xE0, 0xE1] : List Byte), o.toNat ≠ b.toNat :=
    fun b hb he => ho (BitVec.eq_of_toNat_eq he ▸ hb)
  simp only [List.forall_mem_cons] at hne
  obtain ⟨hB0, h3A, h36, hC2, hC5, hE0, hE1, -⟩ := hne
  apply sparseGet_eq_none
  simp only [initRegs, List.forall_mem_cons]
  exact ⟨h36, h3A, hB0, hC2, hC5, hE0, hE1, nofun⟩

/-- Settles O29: the observer heard the wire trace of O26, and every item is one of what that leaves. -/
theorem initMakesThePanelReady : Obligations.InitMakesThePanelReady := by
  intro s hrun hf hi hc hsettle
  obtain ⟨t, ht, hdone, -, -⟩ := initRunsTheWholeSequence s hrun hf hi
  have hp := hdone.panel_eq.trans (Panel.feed_init hc hsettle)
  refine ⟨t, ht, ?_⟩
  rw [hp]
  exact ⟨⟨rfl, rfl, rfl, rfl, rfl, rfl⟩, rfl, rfl, rfl, rfl, rfl, rfl, rfl, rfl, rfl, rfl, rfl,
    fun o ho => initRegs_other ho, rfl, rfl, rfl, rfl, rfl, rfl, rfl, rfl, fun _ _ => rfl, fun _ _ => ite_self _⟩

end Sys2Proof.Machine
end

section
/-! What an instruction can do to the flags and the reset line, and how a host operation ends (10_state.md R24 to R26, R38,
60_exceptions.md R237), whatever the bound on waits. -/

namespace Sys2Proof.Machine

-- ## `FAULT`, `INIT_STATE` and `RST_n`

/-- The entry leaves the reset line and `INIT_STATE` alone. -/
def Atom.sparesReset (a : Atom) : Prop := (∀ b, a ≠ .resetLine b) ∧ a ≠ .setInitialized

theorem Atom.sparesReset_of_alone {a : Atom} (h : a.alone = true) : a.sparesReset :=
  ⟨by rintro b rfl; exact absurd h nofun, by rintro rfl; exact absurd h nofun⟩

theorem Atom.sparesReset_of_framing {a : Atom} (h : a.framing = true) : a.sparesReset :=
  ⟨by rintro b rfl; exact absurd h nofun, by rintro rfl; exact absurd h nofun⟩

theorem Atom.sparesReset_of_steady {a : Atom} (h : a.steady = true) : a.sparesReset :=
  ⟨by rintro b rfl; exact absurd h nofun, by rintro rfl; exact absurd h nofun⟩

/-- The bodies of the pixel loops spare them. -/
theorem sparesReset_loopBody {a b : Atom} (h : a ∈ loopBody b) : a.sparesReset := by
  rcases loopBody_cases b with hb | ⟨-, hb⟩ | ⟨-, hb⟩ <;> rw [hb] at h
  · cases h
  all_goals
    simp only [List.mem_cons, List.not_mem_nil, or_false] at h
    rcases h with rfl | rfl | rfl <;> exact ⟨nofun, nofun⟩

theorem Atom.sparesReset_of_within {a : Atom} {l : List Atom} (hl : ∀ b ∈ l, b.sparesReset) (h : a.within l) :
    a.sparesReset :=
  h.elim (hl a) (fun ⟨_, _, hb⟩ => sparesReset_loopBody hb)

theorem Atom.effect_fault (a : Atom) (s : State) : (a.effect s).fault = s.fault := by cases a <;> rfl

theorem Atom.effect_cfg (a : Atom) (s : State) : (a.effect s).cfg = s.cfg := by cases a <;> rfl

theorem Atom.effect_initState {a : Atom} (h : a ≠ .setInitialized) (s : State) :
    (a.effect s).initState = s.initState := by
  cases a with
  | setInitialized => exact absurd rfl h
  | _ => rfl

theorem Atom.effect_rstN {a : Atom} (h : ∀ b, a ≠ .resetLine b) (s : State) :
    (a.effect s).lines.rstN = s.lines.rstN := by
  cases a with
  | resetLine b => exact absurd rfl (h b)
  | _ => rfl

/-- `u` has the parameters and `FAULT` as `s` has them. -/
structure SameFault (s u : State) : Prop where
  cfg_eq : u.cfg = s.cfg
  fault_eq : u.fault = s.fault

/-- And the reset line and `INIT_STATE`. -/
structure SameReset (s u : State) : Prop extends SameFault s u where
  initState_eq : u.initState = s.initState
  rstN_eq : u.lines.rstN = s.lines.rstN

theorem sameFault_keptByList (s : State) (l : List Atom) : KeptByList (SameFault s) l where
  move u h := ⟨(txMove_frame u).cfg_eq.trans h.cfg_eq, (txMove_frame u).fault_eq.trans h.fault_eq⟩
  sched _ _ h := ⟨h.cfg_eq, h.fault_eq⟩
  effect a u _ _ h := ⟨(a.effect_cfg u).trans h.cfg_eq, (a.effect_fault u).trans h.fault_eq⟩

theorem sameReset_keptByList (s : State) {l : List Atom} (hl : ∀ a ∈ l, a.sparesReset) : KeptByList (SameReset s) l where
  move u h := ⟨(sameFault_keptByList s l).move u h.toSameFault, (txMove_frame u).initState_eq.trans h.initState_eq,
    (txMove_frame u).rstN_eq.trans h.rstN_eq⟩
  sched _ _ h := ⟨⟨h.cfg_eq, h.fault_eq⟩, h.initState_eq, h.rstN_eq⟩
  effect a u ha hr h := by
    obtain ⟨hline, hstate⟩ := Atom.sparesReset_of_within hl ha
    exact ⟨(sameFault_keptByList s l).effect a u ha hr h.toSameFault, (Atom.effect_initState hstate u).trans h.initState_eq,
      (Atom.effect_rstN hline u).trans h.rstN_eq⟩

/-- The state a run ended in, with what the run keeps. -/
theorem Flow.Ends.state {P : State → Prop} {f : Flow} (h : f.Ends P) :
    P f.state ∨ ∃ u, f.state = timeOut u ∧ P u ∧ u.cfg.busTimeout ≠ none := by
  rcases h with ⟨t, rfl, ht⟩ | ⟨u, rfl, hu⟩
  · exact .inl ht
  · exact .inr ⟨u, rfl, hu⟩

/-- The state a request's run ended in, with what the run keeps. -/
theorem Flow.Ends.ended {P : State → Prop} {f : Flow} (h : f.Ends P) :
    (∃ t, f = .ok t ∧ f.ended = complete t ∧ P t) ∨ ∃ u, f.ended = timeOut u ∧ P u ∧ u.cfg.busTimeout ≠ none := by
  rcases h with ⟨t, rfl, ht⟩ | ⟨u, rfl, hu⟩
  · exact .inl ⟨t, rfl, rfl, ht⟩
  · exact .inr ⟨u, rfl, hu⟩

theorem SameReset.refl (s : State) : SameReset s s := ⟨⟨rfl, rfl⟩, rfl, rfl⟩

theorem SameReset.accept (s : State) (op : HostOp) (l : List Atom) (r : Regs) :
    SameReset s (accept op l { s with regs := r }) := ⟨⟨rfl, rfl⟩, rfl, rfl⟩

/-- An instruction other than `INIT` leaves the flags and the reset line as they were, or a bounded wait ran out on the way. -/
theorem Did.sameReset {s t : State} (h : Did false s t) :
    SameReset s t ∨ ∃ u, t = timeOut u ∧ SameReset s u ∧ u.cfg.busTimeout ≠ none := by
  cases h with
  | entry a ha =>
    have hl : ∀ b ∈ [a], b.sparesReset := List.forall_mem_singleton.2 (Atom.sparesReset_of_alone ha)
    exact (runList_ends (sameReset_keptByList s hl) s (SameReset.refl s)).state
  | framed l _ _ hf =>
    have hl : ∀ a ∈ l, a.sparesReset := fun a ha => Atom.sparesReset_of_framing (List.all_eq_true.1 hf a ha)
    exact (runList_ends (sameReset_keptByList s hl) s (SameReset.refl s)).state
  | ended code r _ _ => exact .inl ⟨⟨rfl, rfl⟩, rfl, rfl⟩
  | ran op l r _ _ _ _ hq =>
    have hl : ∀ a ∈ l, a.sparesReset := fun a ha => Atom.sparesReset_of_steady (List.all_eq_true.1 (hq rfl) a ha)
    rcases (runList_ends (sameReset_keptByList s hl) _ (SameReset.accept s op l r)).ended with ⟨t, -, ht, hsame⟩ | ⟨u, hu⟩
    · rw [ht]
      exact .inl ⟨⟨hsame.cfg_eq, hsame.fault_eq⟩, hsame.initState_eq, hsame.rstN_eq⟩
    · exact .inr ⟨u, hu⟩

theorem exec_sameReset {i : Instr} {s t : State} (he : exec i s = .next t) (hi : i ≠ .init) :
    SameReset s t ∨ ∃ u, t = timeOut u ∧ SameReset s u ∧ u.cfg.busTimeout ≠ none := by
  have hdid := exec_did he
  rw [decide_eq_false hi] at hdid
  exact hdid.sameReset

-- ## How a host operation begins and ends

/-- The fixed list of an operation. -/
def HostOp.list (c : Config) : HostOp → List Atom
  | .init => initList c
  | .setwin => windowList
  | .streamfill => streamList .fillLoop
  | .streambuf => streamList .bufLoop
  | .drawpixel => pixelList
  | .fillrect => rectList
  | .drawimage => imageList

/-- How a host operation begins: it ends at once with a status, or it is accepted with its operation's list. -/
inductive Begins (i : Instr) (s : State) : State → Prop where
  | ended (code : BitVec 4) (r : Regs) : Begins i s (raise code { s with regs := r })
  | accepted (op : HostOp) (r : Regs) (h : op = .init ↔ i = .init) :
      Begins i s (accept op (op.list s.cfg) { s with regs := r })

theorem Begins.raised {i : Instr} (s : State) (code : BitVec 4) : Begins i s (raise code s) := Begins.ended code s.regs

theorem startInit_begins (s : State) : Begins .init s (startInit s) := by
  unfold startInit
  split
  · exact Begins.raised s _
  · split
    · exact Begins.raised s _
    · exact Begins.accepted .init s.regs (by simp)

theorem whenInitialized_begins {i : Instr} {k : State → State} {s : State} (h : Begins i s (k s)) :
    Begins i s (whenInitialized k s) := by
  unfold whenInitialized
  split
  · exact Begins.raised s _
  · split
    · exact Begins.raised s _
    · exact h

theorem startDrawpixel_begins (x y c : U16) (s : State) : Begins (.drawpixel x y c) s (startDrawpixel x y c s) := by
  apply whenInitialized_begins
  dsimp only
  split
  · exact Begins.ended _ _
  · exact Begins.accepted .drawpixel { s.regs with px := x, py := y, color := c, x0 := x, y0 := y, x1 := x, y1 := y }
      (by simp)

theorem startFillrect_begins (x y w h c : U16) (s : State) :
    Begins (.fillrect x y w h c) s (startFillrect x y w h c s) := by
  apply whenInitialized_begins
  dsimp only
  split
  · exact Begins.ended _ _
  · split
    · exact Begins.ended _ _
    · exact Begins.accepted .fillrect
        (latchRegion (latchClip (latchColor c (latchSize w h (latchAnchor x y s))))).regs (by simp)

theorem startDrawimage_begins (x y w h : U16) (px : List U16) (s : State) :
    Begins (.drawimage x y w h px) s (startDrawimage x y w h px s) := by
  apply whenInitialized_begins
  dsimp only
  split
  · exact Begins.ended _ _
  · split
    · exact Begins.ended _ _
    · split
      · exact Begins.ended _ (latchClip (latchSource px (latchSize w h (latchAnchor x y s)))).regs
      · split
        · exact Begins.ended _ (latchClip (latchSource px (latchSize w h (latchAnchor x y s)))).regs
        · exact Begins.accepted .drawimage
            (latchRegion (latchClip (latchSource px (latchSize w h (latchAnchor x y s))))).regs (by simp)

/-- Called or submitted, a host operation has one beginning. -/
theorem host_begins {i : Instr} (hlayer : i.layer = .host) :
    ∃ start : State → State, ∀ s, exec i s = runRequest start s ∧ submit i s = .next (start s) ∧ Begins i s (start s) := by
  cases i with
  | init => exact ⟨startInit, fun s => ⟨rfl, rfl, startInit_begins s⟩⟩
  | setwin x0 y0 x1 y1 =>
    exact ⟨startSetwin x0 y0 x1 y1, fun s => ⟨rfl, rfl, whenInitialized_begins (Begins.accepted .setwin _ (by simp))⟩⟩
  | streamfill n c =>
    exact ⟨startStreamfill n c, fun s => ⟨rfl, rfl, whenInitialized_begins
      (Begins.accepted .streamfill { s.regs with color := c, count := n, idx := 0 } (by simp))⟩⟩
  | streambuf px =>
    exact ⟨startStreambuf px, fun s => ⟨rfl, rfl, whenInitialized_begins
      (Begins.accepted .streambuf { s.regs with src := px, count := BitVec.ofNat 32 px.length, idx := 0 } (by simp))⟩⟩
  | drawpixel x y c => exact ⟨startDrawpixel x y c, fun s => ⟨rfl, rfl, startDrawpixel_begins x y c s⟩⟩
  | fillrect x y w h c => exact ⟨startFillrect x y w h c, fun s => ⟨rfl, rfl, startFillrect_begins x y w h c s⟩⟩
  | drawimage x y w h px => exact ⟨startDrawimage x y w h px, fun s => ⟨rfl, rfl, startDrawimage_begins x y w h px s⟩⟩
  | _ => cases hlayer

/-- A request that ends at its checks answers at once; an accepted one needs the transport idle and runs its list. -/
theorem runRequest_raised {start : State → State} {s : State} {code : BitVec 4} {r : Regs} (hb : s.busy = false)
    (h : start s = raise code { s with regs := r }) : runRequest start s = .next (raise code { s with regs := r }) := by
  simp [runRequest, hb, h, finish]

theorem runRequest_accepted {start : State → State} {s : State} {op : HostOp} {l : List Atom} {r : Regs}
    (hb : s.busy = false) (h : start s = accept op l { s with regs := r }) :
    runRequest start s = if bsy s then .refused .discriminatorWhileShifting
      else .next (runList l (accept op l { s with regs := r })).ended := by
  rw [runRequest, if_neg (by simp [hb]), h]
  rfl

/-- What a host operation that answers a next state did: submitted it has the same beginning, and it ended there or ran its
list. -/
theorem exec_host {i : Instr} {s t : State} (h : i.layer = .host) (he : exec i s = .next t) :
    (∃ code r, submit i s = .next (raise code { s with regs := r }) ∧ t = raise code { s with regs := r }) ∨
      ∃ op r, s.bus = Transport.empty ∧ (op = HostOp.init ↔ i = .init) ∧
        submit i s = .next (accept op (op.list s.cfg) { s with regs := r }) ∧
        t = (runList (op.list s.cfg) (accept op (op.list s.cfg) { s with regs := r })).ended := by
  obtain ⟨start, hstart⟩ := host_begins h
  obtain ⟨hexec, hsubmit, hbegins⟩ := hstart s
  rw [hexec] at he
  have hb : s.busy = false := by
    by_contra hb
    rw [runRequest_busy (by simpa using hb)] at he
    cases he
  generalize hu : start s = u at hbegins hsubmit
  cases hbegins with
  | ended code r =>
    rw [runRequest_raised hb hu] at he
    cases he
    exact .inl ⟨code, r, hsubmit, rfl⟩
  | accepted op r hop =>
    rw [runRequest_accepted hb hu] at he
    split at he
    · cases he
    · rename_i hbsy
      cases he
      exact .inr ⟨op, r, bsy_eq_false.1 (by simpa using hbsy), hop, hsubmit, rfl⟩

-- ## Who changes the flags

/-- `INIT_SEQ` up to its closing select. -/
def initListHead (c : Config) : List Atom := [.config] ++ resetPulseList ++ [.select false] ++ configurationList c

theorem initList_eq (c : Config) : initList c = initListHead c ++ [.select true, .setInitialized] := rfl

theorem setInitialized_notMem_initListHead (c : Config) : Atom.setInitialized ∉ initListHead c := by
  simp [initListHead, resetPulseList, configurationList, ifmodeList, slpoutList, pixfmtList, madctlList, pwctr3List,
    vmctrList, pgammaList, ngammaList, disponList, parameterList, commandList, dataList, byteList]

/-- `INIT_STATE` and `FAULT` as `s` has them. -/
structure SameInitState (s u : State) : Prop extends SameFault s u where
  initState_eq : u.initState = s.initState

theorem sameInitState_keptByList (s : State) {l : List Atom} (hl : ∀ a : Atom, a.within l → a ≠ .setInitialized) :
    KeptByList (SameInitState s) l where
  move u h := ⟨(sameFault_keptByList s l).move u h.toSameFault, (txMove_frame u).initState_eq.trans h.initState_eq⟩
  sched _ _ h := ⟨⟨h.cfg_eq, h.fault_eq⟩, h.initState_eq⟩
  effect a u ha hr h :=
    ⟨(sameFault_keptByList s l).effect a u ha hr h.toSameFault, (Atom.effect_initState (hl a ha) u).trans h.initState_eq⟩

/-- `INIT_STATE` is written by the list's last entry, which waits for nothing: if a wait expires, it came before
(42_initializer.md R167). -/
theorem runList_init_ends (c : Config) {s u : State} (h : SameInitState s u) :
    (∃ t, runList (initList c) u = .ok t ∧ t.fault = s.fault) ∨
      ∃ v, runList (initList c) u = .expired (timeOut v) ∧ SameInitState s v ∧ v.cfg.busTimeout ≠ none := by
  have hwithin : ∀ a : Atom, a.within (initListHead c) → a ≠ .setInitialized := by
    rintro a (ha | ⟨b, -, hb⟩)
    · exact fun h => setInitialized_notMem_initListHead c (h ▸ ha)
    · exact (sparesReset_loopBody hb).2
  rw [initList_eq, runList_append]
  rcases runList_ends (sameInitState_keptByList s hwithin) u h with ⟨t, ht, hsame⟩ | ⟨v, hv, hsame⟩
  · rw [ht]
    exact .inl ⟨_, rfl, hsame.fault_eq⟩
  · rw [hv]
    exact .inr ⟨v, rfl, hsame⟩

/-- Settles O21: a run keeps `FAULT`, and what latches it ends the request there; of `INIT` the entry that writes
`INIT_STATE` comes after every wait. -/
theorem onlyABoundedWaitLatchesFault : Obligations.OnlyABoundedWaitLatchesFault := by
  intro i s t he
  by_cases hi : i = .init
  · subst hi
    rcases exec_host rfl he with ⟨code, r, -, rfl⟩ | ⟨op, r, -, hop, -, rfl⟩
    · exact .inl rfl
    · obtain rfl := hop.2 rfl
      have hstart : SameInitState s (accept .init (initList s.cfg) { s with regs := r }) := ⟨⟨rfl, rfl⟩, rfl⟩
      rcases runList_init_ends s.cfg hstart with ⟨t, ht, hf⟩ | ⟨v, hv, hsame, hto⟩
      · simp only [HostOp.list, ht]
        exact .inl hf
      · simp only [HostOp.list, hv]
        rw [hsame.cfg_eq] at hto
        exact .inr ⟨hto, rfl, rfl, rfl, rfl, hsame.initState_eq⟩
  · rcases exec_sameReset he hi with hsame | ⟨u, rfl, hsame, hto⟩
    · exact .inl hsame.fault_eq
    · rw [hsame.cfg_eq] at hto
      exact .inr ⟨hto, rfl, rfl, rfl, rfl, hsame.initState_eq⟩

theorem initialized_keptByMoves : KeptByMoves (fun s => s.initState = .initialized) where
  move s h := (txMove_frame s).initState_eq.trans h
  sched _ _ h := h
  effect a s h _ _ := by
    by_cases ha : a = .setInitialized
    · subst ha; rfl
    · exact (Atom.effect_initState ha s).trans h
  registers _ _ h := h
  raised _ _ _ h := h
  faulted _ h := h
  accepted _ _ _ h := h
  waits _ _ h := h
  advanced _ _ _ h := h
  inputs _ _ h := h

theorem faulted_keptByMoves : KeptByMoves (fun s => s.fault = true) where
  move s h := (txMove_frame s).fault_eq.trans h
  sched _ _ h := h
  effect a s h _ _ := (a.effect_fault s).trans h
  registers _ _ h := h
  raised _ _ _ h := h
  faulted _ _ := rfl
  accepted _ _ _ h := h
  waits _ _ h := h
  advanced _ _ _ h := h
  inputs _ _ h := h

/-- Settles O54: no update of the block but its reset leads back, and only the entries of `INIT`'s list drive the line or
write `INIT_STATE`. -/
theorem onlyResetUndoesInitAndFault : Obligations.OnlyResetUndoesInitAndFault := by
  refine ⟨fun s t hstep hr => ⟨fun h => initialized_keptByMoves.step hr h hstep,
    fun h => faulted_keptByMoves.step hr h hstep⟩, fun i s t he hi => ?_⟩
  rcases exec_sameReset he hi with hsame | ⟨u, rfl, hsame, -⟩ <;> exact ⟨hsame.rstN_eq, hsame.initState_eq⟩

end Sys2Proof.Machine
end

section
/-! How a host operation ends and what it may put on the wire (10_state.md R38, 30_encoding.md R102), completed or not. -/

namespace Sys2Proof.Machine

theorem HostOp.disciplined_list (c : Config) (op : HostOp) :
    disciplined (op.list c) true = true ∧ idleAtEnd (op.list c) true = true := by
  cases op with
  | init => exact disciplined_initList c
  | setwin => exact disciplined_windowList
  | streamfill => exact disciplined_fill
  | streambuf => exact disciplined_buf
  | drawpixel => exact ⟨rfl, rfl⟩
  | fillrect => exact ⟨rfl, rfl⟩
  | drawimage => exact ⟨rfl, rfl⟩

-- ## The state between operations

/-- Every list closes its bracket, and only `INIT_STATE` is written after that. -/
theorem HostOp.list_closes (c : Config) (op : HostOp) :
    ∃ m r, op.list c = m ++ .select true :: r ∧ (r = [] ∨ r = [.setInitialized]) := by
  cases op with
  | init => exact ⟨initListHead c, _, rfl, .inr rfl⟩
  | setwin => exact ⟨windowList.dropLast, [], rfl, .inl rfl⟩
  | streamfill => exact ⟨(streamList .fillLoop).dropLast, [], rfl, .inl rfl⟩
  | streambuf => exact ⟨(streamList .bufLoop).dropLast, [], rfl, .inl rfl⟩
  | drawpixel => exact ⟨pixelList.dropLast, [], rfl, .inl rfl⟩
  | fillrect => exact ⟨rectList.dropLast, [], rfl, .inl rfl⟩
  | drawimage => exact ⟨imageList.dropLast, [], rfl, .inl rfl⟩

theorem runList_closing_csN {m r : List Atom} {s t : State} (hr : r = [] ∨ r = [.setInitialized])
    (h : runList (m ++ .select true :: r) s = .ok t) : t.lines.csN = true := by
  rw [runList_append] at h
  cases hm : runList m s with
  | expired u => rw [hm] at h; cases h
  | ok u =>
    rw [hm] at h
    rcases hr with rfl | rfl <;> cases h <;> rfl

theorem true_keptByList (l : List Atom) : KeptByList (fun _ => True) l where
  move _ _ := trivial
  sched _ _ _ := trivial
  effect _ _ _ _ _ := trivial

/-- An accepted request that latched no fault ran its list to the end. -/
theorem runList_of_ended {l : List Atom} {s : State} (h : (runList l s).ended.fault = false) :
    ∃ t, runList l s = .ok t ∧ (runList l s).ended = complete t := by
  rcases (runList_ends (true_keptByList l) s trivial).ended with ⟨t, ht, he, -⟩ | ⟨u, hu, -⟩
  · exact ⟨t, ht, he⟩
  · rw [hu] at h
    cases h

/-- Settles O56: the list closes its bracket after its last wait for the idle transport. -/
theorem hostOperationsEndBetween : Obligations.HostOperationsEndBetween := by
  rintro i s t hlayer ⟨hbusy, hcs, hbus, hseq, hsck⟩ he hf
  have hlines : LinesDisciplined t :=
    linesDisciplined_keptByMoves.exec ⟨fun r hr => by simp [hbus, Transport.empty] at hr, hsck⟩ he
  rcases exec_host hlayer he with ⟨code, r, -, rfl⟩ | ⟨op, r, -, -, -, rfl⟩
  · exact ⟨rfl, hcs, hbus, rfl, hsck⟩
  · obtain ⟨u, hu, hend⟩ := runList_of_ended hf
    rw [hend] at hlines ⊢
    obtain ⟨hd, hidle⟩ := op.disciplined_list s.cfg
    obtain ⟨m, rest, hlist, hrest⟩ := op.list_closes s.cfg
    have hstart : LinesDisciplined (accept op (op.list s.cfg) { s with regs := r }) :=
      ⟨fun r hr => by simp [hbus, Transport.empty] at hr, hsck⟩
    refine ⟨rfl, ?_, ?_, rfl, hlines.2⟩
    · rw [hlist] at hu
      exact (runList_closing_csN hrest hu : u.lines.csN = true)
    · exact (linesDisciplined_keptByMoves.runList _ true hstart (fun _ => hbus) hd).2 u hu hidle

-- ## What reaches the wire

/-- The command bytes host operations send (30_encoding.md R102 (b)). -/
def hostOpcodes : List Byte := [0xB0, 0x11, 0x3A, 0x36, 0xC2, 0xC5, 0xE0, 0xE1, 0x29, 0x2A, 0x2B, 0x2C]

/-- A wire event a host operation may make; only `INIT` drives the reset line or waits. -/
def HostEvent (op : HostOp) : Event → Prop
  | .byte d o => d = false → o ∈ hostOpcodes
  | .rst _ => op = .init
  | .wait _ => op = .init
  | .cfg => True
  | .sel _ => True
  | .dcset _ => True
  | .tx _ => True
  | .idle => True

theorem goodList_dataBytes (op : HostOp) (vs : List Byte) :
    ∀ d, GoodList (HostEvent op) (vs.flatMap dataList) d := by
  induction vs with
  | nil => exact fun d => trivial
  | cons v vs ih =>
    intro d
    rw [List.flatMap_cons, goodList_append]
    exact ⟨by simp [dataList, byteList, GoodList, GoodAtom, dcAfter, HostEvent], ih _⟩

theorem goodList_commandList (op : HostOp) {o : Byte} (ho : o ∈ hostOpcodes) (d : Option Bool) :
    GoodList (HostEvent op) (commandList o) d := by
  simp [commandList, byteList, GoodList, GoodAtom, dcAfter, HostEvent, ho]

theorem goodList_parameterList (op : HostOp) {o : Byte} (ho : o ∈ hostOpcodes) (vs : List Byte) (d : Option Bool) :
    GoodList (HostEvent op) (parameterList o vs) d := by
  rw [parameterList, goodList_append]
  exact ⟨goodList_commandList op ho d, goodList_dataBytes op vs _⟩

theorem goodList_both {G : Event → Prop} {l m : List Atom} (hl : ∀ d, GoodList G l d) (hm : ∀ d, GoodList G m d)
    (d : Option Bool) : GoodList G (l ++ m) d :=
  (goodList_append l m d).2 ⟨hl d, hm _⟩

theorem goodList_settling {o : Byte} (ho : o ∈ hostOpcodes) (t : DelayTime) :
    ∀ d, GoodList (HostEvent .init) (commandList o ++ [.hold t]) d :=
  goodList_both (goodList_commandList .init ho) (fun _ => ⟨fun _ => rfl, trivial⟩)

theorem goodList_initList (c : Config) : ∀ d, GoodList (HostEvent .init) (initList c) d := by
  have hpulse (d : Option Bool) : GoodList (HostEvent .init) ([.config] ++ resetPulseList) d := by
    simp [resetPulseList, GoodList, GoodAtom, HostEvent]
  have hopen (d : Option Bool) : GoodList (HostEvent .init) [.select false] d := ⟨trivial, trivial⟩
  have hclose (d : Option Bool) : GoodList (HostEvent .init) [.select true, .setInitialized] d :=
    ⟨trivial, trivial, trivial⟩
  have hp {o : Byte} (ho : o ∈ hostOpcodes) (vs : List Byte) :
      ∀ d, GoodList (HostEvent .init) (parameterList o vs) d := goodList_parameterList .init ho vs
  have hconf : ∀ d, GoodList (HostEvent .init) (configurationList c) d :=
    goodList_both (goodList_both (goodList_both (goodList_both (goodList_both (goodList_both (goodList_both (goodList_both
      (hp (by decide) _) (goodList_settling (by decide) _)) (hp (by decide) _)) (hp (by decide) _)) (hp (by decide) _))
      (hp (by decide) _)) (hp (by decide) _)) (hp (by decide) _)) (goodList_settling (by decide) _)
  exact goodList_both (goodList_both (goodList_both hpulse hopen) hconf) hclose

theorem HostOp.goodList_list (c : Config) (op : HostOp) (d : Option Bool) : GoodList (HostEvent op) (op.list c) d := by
  cases op with
  | init => exact goodList_initList c d
  | _ =>
    simp [HostOp.list, pixelList, rectList, imageList, windowList, streamList, rangeList, ramwrList, commandList, byteList,
      wordList, GoodList, GoodAtom, dcAfter, HostEvent, hostOpcodes, OPC_CASET, OPC_PASET, OPC_RAMWR]

/-- Settles O57: every entry of every list makes only such events, whether the run ends or a wait expires. -/
theorem hostOperationsSendOnlyTheTwelveOpcodes : Obligations.HostOperationsSendOnlyTheTwelveOpcodes := by
  intro i s t hlayer hbus he
  rcases exec_host hlayer he with ⟨code, r, -, rfl⟩ | ⟨op, r, -, hop, -, rfl⟩
  · have hw : wire s ++ inflight s = wire s ++ [] := by rw [inflight_empty hbus]
    exact ⟨[], hw, by simp, by simp⟩
  · have hstart : Tracks s (HostEvent op) none (accept op (op.list s.cfg) { s with regs := r }) :=
      ⟨⟨[], congrArg (wire s ++ ·) (inflight_empty hbus), by simp⟩, nofun⟩
    have hgood : ∃ w, wire (runList (op.list s.cfg) (accept op (op.list s.cfg) { s with regs := r })).ended ++
        inflight (runList (op.list s.cfg) (accept op (op.list s.cfg) { s with regs := r })).ended = wire s ++ w ∧
        ∀ e ∈ w, HostEvent op e := by
      rcases hstart.runList _ none true _ (fun _ => hbus) (op.disciplined_list s.cfg).1 (op.goodList_list s.cfg none) with
        ⟨t, ht, hk⟩ | ⟨v, hv, hk⟩
      · rw [ht]; exact hk.good
      · rw [hv]; exact hk.good
    obtain ⟨w, hw, hw'⟩ := hgood
    exact ⟨w, hw, fun o ho => hw' _ ho rfl, fun hi e he =>
      ⟨fun b hb => hi (hop.1 (hw' (.rst b) (hb ▸ he))), fun d hd => hi (hop.1 (hw' (.wait d) (hd ▸ he)))⟩⟩

end Sys2Proof.Machine
end

section
/-! Wire commands store no pixel (46_panel_observer.md R203 to R210, R214): what a command byte and the data bytes after it do
to the frame memory, and which bytes a framed run can have put on the wire when it ends or a wait expires. -/

namespace Sys2Proof.Machine

-- ## The frame memory under commands

variable {m : Memory} {o : Byte} {wrap : PanelWrap} {p : Panel}

/-- The frame memory is `m`, or the observer is poisoned. -/
def Panel.Stores (m : Memory) (p : Panel) : Prop := p.silent ∨ p.gram = m

/-- And it is in the context of the command byte `o`, if it is selected. -/
def Panel.StoresIn (m : Memory) (o : Byte) (p : Panel) : Prop := p.silent ∨ p.gram = m ∧ (p.sel = true → p.cmd = some o)

theorem Panel.onWait_frame (t : Nat) (p : Panel) :
    (p.onWait t).gram = p.gram ∧ (p.onWait t).sel = p.sel ∧ (p.onWait t).cmd = p.cmd := by
  unfold Panel.onWait
  dsimp only
  split
  · exact ⟨rfl, rfl, rfl⟩
  · split <;> exact ⟨rfl, rfl, rfl⟩

theorem Panel.onSel_stores (b : Bool) (p : Panel) : (p.onSel b).Stores p.gram := by
  unfold Panel.onSel
  split
  · exact .inr rfl
  · split
    · exact .inr rfl
    · exact .inl p.silent_poison

/-- A select or a delay stores no pixel. -/
theorem Panel.Stores.quiet (h : p.Stores m) {e : Event} (he : (∃ b, e = .sel b) ∨ ∃ t, e = .wait t) :
    (p.onEvent wrap e).Stores m := by
  rcases h with h | rfl
  · exact .inl (Panel.silent_onEvent h (by rintro rfl; simp at he))
  · rcases he with ⟨b, rfl⟩ | ⟨t, rfl⟩
    · exact p.onSel_stores b
    · exact .inr (p.onWait_frame t).1

theorem Panel.openCommand_frame (o : Byte) (p : Panel) :
    (p.openCommand o).silent ∨ (p.openCommand o).gram = p.gram ∧ (p.openCommand o).cmd = p.cmd := by
  unfold Panel.openCommand
  split
  · exact .inr ⟨rfl, rfl⟩
  split
  · exact .inr ⟨rfl, rfl⟩
  split
  · split
    · exact .inr ⟨rfl, rfl⟩
    · exact .inl p.silent_poison
  split
  · exact .inr ⟨rfl, rfl⟩
  · exact .inl p.silent_poison

/-- A command byte stores no pixel and opens its context. -/
theorem Panel.onByte_command_stores (o : Byte) (p : Panel) : (p.onByte wrap false o).StoresIn p.gram o := by
  unfold Panel.onByte
  split
  · exact .inl p.silent_poison
  split
  · exact .inl p.silent_poison
  split
  · rename_i hsel
    exact .inr ⟨rfl, fun h => by simp [h] at hsel⟩
  · show (p.onCommand o).StoresIn p.gram o
    unfold Panel.onCommand
    split
    · exact .inl p.silent_poison
    · rcases Panel.openCommand_frame o { p with cmd := some o, npar := 0, half := none } with h | ⟨hg, hc⟩
      · exact .inl h
      · exact .inr ⟨hg, fun _ => hc⟩

theorem Panel.rangeByte_frame (o : Byte) (p : Panel) :
    (p.rangeByte o).silent ∨ (p.rangeByte o).gram = p.gram ∧ (p.rangeByte o).cmd = p.cmd := by
  unfold Panel.rangeByte
  split
  · exact .inr ⟨rfl, rfl⟩
  · split
    · unfold Panel.setRange
      split <;> split
      · exact .inr ⟨rfl, rfl⟩
      · exact .inl p.silent_poison
      · exact .inr ⟨rfl, rfl⟩
      · exact .inl p.silent_poison
    · exact .inl p.silent_poison

/-- A data byte that is no pixel's stores none. -/
theorem Panel.onData_frame (ho : o ≠ OPC_RAMWR) (hc : p.cmd = some o) (v : Byte) :
    (p.onData wrap v).silent ∨ (p.onData wrap v).gram = p.gram ∧ (p.onData wrap v).cmd = p.cmd := by
  simp only [Panel.onData, hc, if_neg ho]
  split
  · exact .inl p.silent_poison
  · split
    · rw [← hc]
      exact Panel.rangeByte_frame o { p.setReg o ((p.regOf o).getD [] ++ [v]) with npar := p.npar + 1 }
    · exact .inr ⟨rfl, hc⟩

/-- What follows the command byte `o` in its transaction: data bytes, unless they would be pixels, and delays. -/
def FollowsCommand (o : Byte) : Event → Prop
  | .byte d _ => d = true ∧ o ≠ OPC_RAMWR
  | .wait _ => True
  | .cfg => False
  | .rst _ => False
  | .sel _ => False
  | .dcset _ => False
  | .tx _ => False
  | .idle => False

theorem Panel.StoresIn.onEvent (h : p.StoresIn m o) {e : Event} (he : FollowsCommand o e) :
    (p.onEvent wrap e).StoresIn m o := by
  rcases h with h | ⟨rfl, hc⟩
  · exact .inl (Panel.silent_onEvent h (by rintro rfl; exact he))
  · cases e with
    | wait t =>
      obtain ⟨hg, hs, hcmd⟩ := p.onWait_frame t
      exact .inr ⟨hg, fun h => hcmd.trans (hc (hs.symm.trans h))⟩
    | byte d v =>
      obtain ⟨rfl, ho⟩ := he
      show (p.onByte wrap true v).StoresIn p.gram o
      unfold Panel.onByte
      split
      · exact .inl p.silent_poison
      split
      · exact .inl p.silent_poison
      split
      · exact .inr ⟨rfl, hc⟩
      · rename_i hsel
        have hcmd := hc (by simpa using hsel)
        rcases Panel.onData_frame (wrap := wrap) ho hcmd v with hs | ⟨hg, hcm⟩
        · exact .inl hs
        · exact .inr ⟨hg, fun _ => hcm.trans hcmd⟩
    | _ => cases he

/-- A property of the observer that every event of a run keeps holds after any part of the run from its beginning. -/
theorem Panel.feed_keeps {Q : Panel → Prop} {G : Event → Prop} (hQ : ∀ p e, G e → Q p → Q (p.onEvent wrap e)) :
    ∀ (es : List Event) (p : Panel), (∀ e ∈ es, G e) → Q p → Q (p.feed wrap es)
  | [], _, _, h => h
  | e :: es, p, he, h =>
    Panel.feed_keeps hQ es _ (fun x hx => he x (List.mem_cons_of_mem _ hx)) (hQ p e (he e List.mem_cons_self) h)

theorem Panel.Stores.read (h : p.Stores m) (hok : p.ok = true) (c r : Nat) : p.gram.read c r = m.read c r := by
  rcases h with ⟨hf, -⟩ | rfl
  · rw [hok] at hf; cases hf
  · rfl

-- ## What the observer heard of a run

/-- The observer heard what was put on the wire since `s`. -/
def HeardSince (s u : State) : Prop :=
  u.cfg = s.cfg ∧ ∃ v, wire u = wire s ++ v ∧ u.panel = s.panel.feed s.cfg.panelWrap v

theorem heardSince_keptByEvents (s : State) : KeptByEvents (HeardSince s) where
  emit e u := by
    rintro ⟨hcfg, v, hw, hp⟩
    refine ⟨hcfg, v ++ [e].filter Event.onWire, by rw [wire_emit, hw, List.append_assoc], ?_⟩
    rw [Panel.feed_append, ← hp, ← hcfg, Panel.feed_onWire]
    rfl
  unseen u t hc ht hp := by
    rintro ⟨hcfg, v, hw, hpanel⟩
    exact ⟨hc.trans hcfg, v, by rw [← hw, wire, wire, ht], hp.trans hpanel⟩

theorem HeardSince.refl (s : State) : HeardSince s s := ⟨rfl, [], (List.append_nil _).symm, rfl⟩

/-- Of the events a run made, the observer heard the first ones. -/
theorem HeardSince.beginning {s t : State} {w : List Event} (h : HeardSince s t) (hw : wire t ++ inflight t = wire s ++ w) :
    ∃ v, v <+: w ∧ t.panel = s.panel.feed s.cfg.panelWrap v := by
  obtain ⟨-, v, hv, hp⟩ := h
  rw [hv, List.append_assoc] at hw
  exact ⟨v, ⟨inflight t, List.append_cancel_left hw⟩, hp⟩

/-- The wire and what is inside the transport, wherever a list's run ended. -/
theorem runList_tracked {s u : State} {G : Event → Prop} {l : List Atom} {d : Option Bool} {q : Bool}
    (h : Tracks s G d u) (hq : q = true → u.bus = Transport.empty) (hd : disciplined l q = true) (hg : GoodList G l d) :
    ∃ w, wire (runList l u).state ++ inflight (runList l u).state = wire s ++ w ∧ ∀ e ∈ w, G e := by
  rcases Tracks.runList l d q u h hq hd hg with ⟨t, ht, hk⟩ | ⟨v, hv, hk⟩
  · rw [ht]; exact hk.good
  · rw [hv]; exact hk.good

/-- With the transport idle the command byte is enqueued at once. -/
theorem runList_command {s : State} (hb : s.bus = Transport.empty) (o : Byte) (l : List Atom) :
    ∃ u, runList (.discriminate false :: .send (.lit o) :: l) s = runList l u ∧ wire u = wire s ∧
      inflight u = [.byte false o] ∧ u.lines.dc = false := by
  have hkeep : KeptByTransport (fun u => u.bus = Transport.empty ∧ wire u = wire s ∧ u.lines.dc = false) :=
    ⟨fun u h => by rw [show txMove u = u by simp [txMove, h.1, Transport.empty]]; exact h, fun u ks h => h⟩
  have hw : wire (driveDc false s) = wire s := (wire_emit _ _).trans (List.append_nil _)
  rcases await_cases hkeep .ready (waitBudget (driveDc false s)) (driveDc false s) ⟨hb, hw, rfl⟩ with
    ⟨u, hu, ⟨hbus, hwire, hdc⟩, -⟩ | ⟨u, -, ⟨hbus, -⟩, hm⟩
  · refine ⟨enqueue o u, ?_, (wire_emit _ _).trans ((List.append_nil _).trans hwire), ?_, hdc⟩
    · have hrun : runEntry (.send (.lit o)) (driveDc false s) = .ok (enqueue o u) := runEntry_of_await rfl hu
      show (runEntry (.send (.lit o)) (driveDc false s)).andThen (runList l) = _
      rw [hrun]
      rfl
    · simp [inflight, hbus, Transport.empty, hdc, enqueue]
  · rw [met_ready.2 (by rw [hbus]; rfl)] at hm
    cases hm

/-- A framed transaction whose data bytes are no pixels stores none, ended or expired. -/
theorem runFramed_stores {s t : State} {o : Byte} {l : List Atom} (hb : s.bus = Transport.empty)
    (hd : disciplined l false = true) (hg : GoodList (FollowsCommand o) l (some false))
    (h : runFramed (.discriminate false :: .send (.lit o) :: l) s = .next t) : t.panel.Stores s.panel.gram := by
  have ht : t = (runList (.discriminate false :: .send (.lit o) :: l) s).state := by
    simpa [runFramed, bsy_eq_false.2 hb] using h.symm
  have hheard : HeardSince s t := by
    subst ht
    exact ((heardSince_keptByEvents s).keptByMoves.runList _ true (HeardSince.refl s) (fun _ => hb) hd).1
  obtain ⟨u, hrun, hwire, hin, hdc⟩ := runList_command hb o l
  have hstart : Tracks (emit (.byte false o) s) (FollowsCommand o) (some false) u :=
    ⟨⟨[], by rw [hwire, hin, wire_emit]; exact (List.append_nil _).symm, by simp⟩, fun b hb => by cases hb; exact hdc⟩
  obtain ⟨w, hw, hfollow⟩ := runList_tracked hstart (q := false) nofun hd hg
  rw [← hrun, ← ht, wire_emit, List.append_assoc] at hw
  obtain ⟨v, hv, hpanel⟩ := hheard.beginning hw
  rw [hpanel]
  rcases List.prefix_cons_iff.1 (show v <+: .byte false o :: w from hv) with rfl | ⟨v, rfl, hrest⟩
  · exact .inr rfl
  · have hin : (Panel.feed s.cfg.panelWrap (s.panel.onByte s.cfg.panelWrap false o) v).StoresIn s.panel.gram o :=
      Panel.feed_keeps (Q := Panel.StoresIn s.panel.gram o) (G := FollowsCommand o) (fun _ _ he h => h.onEvent he) v _
        (fun e he => hfollow e (hrest.subset he)) (Panel.onByte_command_stores o s.panel)
    exact hin.imp_right And.left

theorem goodList_followingData {o : Byte} (ho : o ≠ OPC_RAMWR) (vs : List Byte) :
    ∀ d, GoodList (FollowsCommand o) (vs.flatMap dataList) d := by
  induction vs with
  | nil => exact fun d => trivial
  | cons v vs ih =>
    exact goodList_both (fun d => by simp [dataList, byteList, GoodList, GoodAtom, dcAfter, FollowsCommand, ho]) ih

theorem runFramed_parameterList_stores {s t : State} {o : Byte} {vs : List Byte} (hb : s.bus = Transport.empty)
    (ho : o ≠ OPC_RAMWR) (h : runFramed (parameterList o vs) s = .next t) : t.panel.Stores s.panel.gram :=
  runFramed_stores (l := .awaitIdle :: vs.flatMap dataList) hb (disciplined_dataBytes vs true rfl).1
    ⟨trivial, goodList_followingData ho vs _⟩ h

theorem runFramed_commandList_stores {s t : State} {o : Byte} (hb : s.bus = Transport.empty)
    (h : runFramed (commandList o) s = .next t) : t.panel.Stores s.panel.gram :=
  runFramed_stores (l := [.awaitIdle]) hb rfl ⟨trivial, trivial⟩ h

theorem runFramed_settling_stores {s t : State} {o : Byte} {d : DelayTime} (hb : s.bus = Transport.empty)
    (h : runFramed (commandList o ++ [.hold d]) s = .next t) : t.panel.Stores s.panel.gram :=
  runFramed_stores (l := [.awaitIdle, .hold d]) hb rfl ⟨trivial, fun _ => trivial, trivial⟩ h

theorem runFramed_rangeList_stores {s t : State} {o a b c d : Byte} (hb : s.bus = Transport.empty) (ho : o ≠ OPC_RAMWR)
    (h : runFramed (rangeList o (.lit a) (.lit b) (.lit c) (.lit d)) s = .next t) : t.panel.Stores s.panel.gram :=
  runFramed_stores (l := .awaitIdle :: (wordList (.lit a) (.lit b) ++ wordList (.lit c) (.lit d))) hb rfl
    (by simp [wordList, GoodList, GoodAtom, dcAfter, FollowsCommand, ho]) h

theorem execWire_stores {i : Instr} {s t : State} (hb : s.bus = Transport.empty) (hi : i.layer = .wire)
    (h : exec i s = .next t) : t.panel.Stores s.panel.gram := by
  cases i with
  | ifmode ps => exact runFramed_parameterList_stores hb (by decide) h
  | slpout => exact runFramed_settling_stores hb h
  | pixfmt v => exact runFramed_parameterList_stores hb (by decide) h
  | madctl v => exact runFramed_parameterList_stores hb (by decide) h
  | pwctr3 v => exact runFramed_parameterList_stores hb (by decide) h
  | vmctr p q r u => exact runFramed_parameterList_stores hb (by decide) h
  | pgamma ps => exact runFramed_parameterList_stores hb (by decide) h
  | ngamma ps => exact runFramed_parameterList_stores hb (by decide) h
  | dispon => exact runFramed_settling_stores hb h
  | caset a b => exact runFramed_rangeList_stores hb (by decide) h
  | paset a b => exact runFramed_rangeList_stores hb (by decide) h
  | ramwr => exact runFramed_commandList_stores hb h
  | _ => cases hi

theorem exec_waitidle_panel {s t : State} (hb : s.bus = Transport.empty) (h : exec .waitidle s = .next t) :
    t.panel = s.panel := by
  have ht : t = (runList [.awaitIdle] s).state := (Host.Outcome.next.inj h).symm
  subst ht
  have hstart : Tracks s (fun _ => False) none s := ⟨⟨[], congrArg (wire s ++ ·) (inflight_empty hb), by simp⟩, nofun⟩
  obtain ⟨w, hw, hnone⟩ := runList_tracked hstart (l := [.awaitIdle]) (fun _ => hb) (q := true) rfl ⟨trivial, trivial⟩
  obtain rfl : w = [] := List.eq_nil_iff_forall_not_mem.2 hnone
  have hheard : HeardSince s (runList [.awaitIdle] s).state :=
    (heardSince_keptByEvents s).keptByMoves.alone rfl (HeardSince.refl s)
  obtain ⟨v, hv, hpanel⟩ := hheard.beginning hw
  rw [hpanel, List.prefix_nil.1 hv, Panel.feed_nil]

/-- Settles O25: a command byte leaves pixel data behind, and the data bytes of the others go to `P_REG`. -/
theorem wireCommandsStoreNoPixel : Obligations.WireCommandsStoreNoPixel := by
  intro i s t hb hi he hok c r
  suffices t.panel.Stores s.panel.gram from this.read hok c r
  have hself : s.panel.Stores s.panel.gram := .inr rfl
  rcases hi with hwire | ⟨o, rfl⟩ | rfl | rfl | rfl | ⟨d, rfl⟩
  · exact execWire_stores hb hwire he
  · exact runFramed_commandList_stores hb he
  · cases he
    exact hself.quiet (wrap := s.cfg.panelWrap) (.inl ⟨false, rfl⟩)
  · rw [exec_selend] at he
    split at he
    · cases he
    · cases he
      exact hself.quiet (wrap := s.cfg.panelWrap) (.inl ⟨true, rfl⟩)
  · rw [exec_waitidle_panel hb he]
    exact hself
  · cases he
    exact hself.quiet (wrap := s.cfg.panelWrap) (.inr ⟨_, rfl⟩)

end Sys2Proof.Machine
end

section
/-! The moves of the sequencer and the transport apart from who asks for them (10_state.md R20, R23; log 1): what a move of
the sequencer can be, that no move looks at the inputs to come, and scripts as sequences of moves. -/

namespace Sys2Proof.Machine

-- ## What entries and the transport do not look at

/-- The same block with another sequencer, count of failed tests, inputs to come and schedule. -/
def State.withControl (q : Seq) (w : Nat) (is : List Input) (k : List Nat) (s : State) : State :=
  { s with seq := q, waits := w, inputs := is, sched := k }

section
variable (q : Seq) (w : Nat) (is : List Input) (k : List Nat)

theorem Atom.effect_withControl (a : Atom) (s : State) :
    a.effect (s.withControl q w is k) = (a.effect s).withControl q w is k := by
  cases a <;> rfl

theorem shiftStep_withControl (r : ShiftReg) (s : State) :
    shiftStep r (s.withControl q w is k) = (shiftStep r s).withControl q w is k := by
  unfold shiftStep
  dsimp only
  split <;> rfl

theorem txMove_withControl (s : State) : txMove (s.withControl q w is k) = (txMove s).withControl q w is k := by
  have hbus : (s.withControl q w is k).bus = s.bus := rfl
  unfold txMove
  rw [hbus]
  split
  · exact shiftStep_withControl q w is k _ s
  · rfl
  · rfl

end

-- ## What a move of the sequencer can be

theorem seqMove_of_not_busy {s : State} (hb : s.busy = false) : seqMove s = .next s := by simp [seqMove, hb]

theorem seqMove_of_done {s : State} (hb : s.busy = true) (hl : s.seq.todo = []) : seqMove s = .next (complete s) := by
  simp [seqMove, hb, hl]

theorem seqMove_of_ready {s : State} {a : Atom} {l : List Atom} (hb : s.busy = true) (hl : s.seq.todo = a :: l)
    (hr : a.ready s = true) (hstop : a.stop s = none) : seqMove s = .next (advance a l s) := by
  simp [seqMove, hb, hl, hr, hstop]

theorem Atom.stop_ne_next (a : Atom) (s t : State) : a.stop s ≠ some (.next t) := by
  cases a <;> simp [Atom.stop]

/-- What a move of the sequencer can be. -/
theorem seqMove_cases {s t : State} (h : seqMove s = .next t) :
    (s.busy = false ∧ t = s) ∨ (s.busy = true ∧ s.seq.todo = [] ∧ t = complete s) ∨
      ∃ a l, s.busy = true ∧ s.seq.todo = a :: l ∧
        (a.ready s = false ∧ t = failedTest s ∨ a.ready s = true ∧ a.stop s = none ∧ t = advance a l s) := by
  cases hb : s.busy with
  | false =>
    rw [seqMove_of_not_busy hb] at h
    cases h
    exact .inl ⟨rfl, rfl⟩
  | true =>
    cases hl : s.seq.todo with
    | nil =>
      rw [seqMove_of_done hb hl] at h
      cases h
      exact .inr (.inl ⟨rfl, rfl, rfl⟩)
    | cons a l =>
      refine .inr (.inr ⟨a, l, rfl, rfl, ?_⟩)
      cases hr : a.ready s with
      | false =>
        rw [seqMove_unmet hb hl hr] at h
        cases h
        exact .inl ⟨rfl, rfl⟩
      | true =>
        cases hstop : a.stop s with
        | none =>
          rw [seqMove_of_ready hb hl hr hstop] at h
          cases h
          exact .inr ⟨rfl, rfl, rfl⟩
        | some o =>
          simp only [seqMove, hb, hl, hr, hstop, ite_true] at h
          exact absurd (h ▸ hstop) (a.stop_ne_next s t)

theorem failedTest_setInputs (s : State) (is : List Input) :
    failedTest { s with inputs := is } = { failedTest s with inputs := is } := by
  unfold failedTest
  dsimp only
  split
  · rfl
  · split <;> rfl

theorem advance_setInputs (a : Atom) (l : List Atom) (s : State) (is : List Input) :
    advance a l { s with inputs := is } = { advance a l s with inputs := is } := by
  have hafter : a.after l { s with inputs := is } = a.after l s := rfl
  unfold advance
  rw [hafter]
  cases a <;> rfl

/-- A move of the sequencer does not look at the inputs to come. -/
theorem seqMove_setInputs {s t : State} (h : seqMove s = .next t) (is : List Input) :
    seqMove { s with inputs := is } = .next { t with inputs := is } := by
  rcases seqMove_cases h with ⟨hb, rfl⟩ | ⟨hb, hl, rfl⟩ | ⟨a, l, hb, hl, ⟨hr, rfl⟩ | ⟨hr, hstop, rfl⟩⟩
  · exact seqMove_of_not_busy hb
  · exact seqMove_of_done hb hl
  · rw [seqMove_unmet (s := { s with inputs := is }) hb hl (by cases a <;> exact hr), failedTest_setInputs]
  · rw [seqMove_of_ready (s := { s with inputs := is }) hb hl (by cases a <;> exact hr) (by cases a <;> exact hstop),
      advance_setInputs]

theorem seqMove_keeps_inputs {s t : State} (h : seqMove s = .next t) : t.inputs = s.inputs := by
  have hsame : Host.Outcome.next t = Host.Outcome.next { t with inputs := s.inputs } :=
    h.symm.trans (seqMove_setInputs h s.inputs)
  have hstate : t = { t with inputs := s.inputs } := Host.Outcome.next.inj hsame
  rw [hstate]

-- ## Scripts of moves

/-- One move of the block. -/
def Moves (s t : State) : Prop := t = txMove s ∨ seqMove s = .next t

/-- Moves of the block lead from `s` to `t`. -/
abbrev Reaches : State → State → Prop := Relation.ReflTransGen Moves

theorem Moves.inputs_eq {s t : State} (h : Moves s t) : t.inputs = s.inputs := by
  rcases h with rfl | h
  · exact (txMove_frame s).inputs_eq
  · exact seqMove_keeps_inputs h

theorem Reaches.inputs_eq {s t : State} (h : Reaches s t) : t.inputs = s.inputs := by
  induction h with
  | refl => rfl
  | tail _ hmove ih => exact hmove.inputs_eq.trans ih

theorem Moves.movesOn {s t : State} (h : Moves s t) (hs : MovesOn s) : MovesOn t := by
  rcases h with rfl | h
  · exact txMove_movesOn hs
  · obtain ⟨u, hu, hon⟩ := seqMove_movesOn hs
    rw [h] at hu
    cases hu
    exact hon

theorem Reaches.movesOn {s t : State} (h : Reaches s t) (hs : MovesOn s) : MovesOn t := by
  induction h with
  | refl => exact hs
  | tail _ hmove ih => exact hmove.movesOn ih

/-- A request that can go on takes its next entry once its wait is over. -/
theorem MovesOn.seqMove_ready {s : State} {a : Atom} {l : List Atom} (h : MovesOn s) (hb : s.busy = true)
    (hl : s.seq.todo = a :: l) (hr : a.ready s = true) : seqMove s = .next (advance a l s) := by
  obtain ⟨q, k, hq, hk, -, hd, hs⟩ := h hb
  rw [hl] at hd hs
  simp only [disciplined, sourced, Bool.and_eq_true] at hd hs
  exact seqMove_of_ready hb hl hr (Atom.stop_none hq hk hd.1 hs.1)

/-- Moves that lead somewhere can be asked for by a script. -/
theorem Reaches.script {s t : State} (h : Reaches s t) :
    ∃ script : List Input, (∀ m ∈ script, m.isMove = true) ∧
      steps script.length { s with inputs := script ++ s.inputs } = .next t := by
  induction h using Relation.ReflTransGen.head_induction_on with
  | refl => exact ⟨[], by simp, rfl⟩
  | @head s u hmove _ ih =>
    obtain ⟨script, hall, hrun⟩ := ih
    rw [hmove.inputs_eq] at hrun
    rcases hmove with rfl | hseq
    · refine ⟨.transport :: script, List.forall_mem_cons.2 ⟨rfl, hall⟩, ?_⟩
      rw [← txMove_inputs] at hrun
      exact hrun
    · refine ⟨.sequencer :: script, List.forall_mem_cons.2 ⟨rfl, hall⟩, ?_⟩
      have hstep : step { s with inputs := .sequencer :: script ++ s.inputs } =
        .next { u with inputs := script ++ s.inputs } := seqMove_setInputs hseq _
      rw [List.length_cons, steps, hstep]
      exact hrun

/-- A script of moves runs to its end from a request that can go on, and leads where moves lead. -/
theorem steps_script : ∀ (script : List Input) {s : State}, MovesOn s → (∀ m ∈ script, m.isMove = true) →
    ∃ t, steps script.length { s with inputs := script ++ s.inputs } = .next t ∧ Reaches s t
  | [], s, _, _ => ⟨s, rfl, .refl⟩
  | m :: script, s, hs, hall => by
    obtain ⟨hm, hrest⟩ := List.forall_mem_cons.1 hall
    obtain ⟨u, hmove, hstep⟩ : ∃ u, Moves s u ∧
        step { s with inputs := m :: script ++ s.inputs } = .next { u with inputs := script ++ s.inputs } := by
      cases m with
      | transport => exact ⟨_, .inl rfl, congrArg Host.Outcome.next (txMove_inputs s _)⟩
      | sequencer =>
        obtain ⟨u, hu, -⟩ := seqMove_movesOn hs
        exact ⟨u, .inr hu, seqMove_setInputs hu _⟩
      | _ => cases hm
    obtain ⟨t, ht, hreach⟩ := steps_script script (hmove.movesOn hs) hrest
    rw [hmove.inputs_eq] at ht
    exact ⟨t, by rw [List.length_cons, steps, hstep]; exact ht, .head hmove hreach⟩

-- ## The beginning of a submitted request

theorem whenInitialized_setInputs {k : State → State} {s : State} {is : List Input}
    (h : k { s with inputs := is } = { k s with inputs := is }) :
    whenInitialized k { s with inputs := is } = { whenInitialized k s with inputs := is } := by
  unfold whenInitialized
  dsimp only
  split
  · rfl
  · split
    · rfl
    · exact h

/-- Acceptance does not look at the inputs to come. -/
theorem submit_setInputs {i : Instr} {s t : State} (h : submit i s = .next t) (is : List Input) :
    submit i { s with inputs := is } = .next { t with inputs := is } := by
  cases i <;> cases h
  case init =>
    refine congrArg Host.Outcome.next ?_
    unfold startInit
    dsimp only
    split
    · rfl
    · split <;> rfl
  case setwin => exact congrArg Host.Outcome.next (whenInitialized_setInputs rfl)
  case streamfill => exact congrArg Host.Outcome.next (whenInitialized_setInputs rfl)
  case streambuf => exact congrArg Host.Outcome.next (whenInitialized_setInputs rfl)
  case drawpixel =>
    refine congrArg Host.Outcome.next (whenInitialized_setInputs ?_)
    dsimp only [latchAnchor, latchColor]
    split <;> rfl
  case fillrect =>
    refine congrArg Host.Outcome.next (whenInitialized_setInputs ?_)
    dsimp only [latchAnchor, latchSize, latchColor]
    split
    · rfl
    · split <;> rfl
  case drawimage =>
    refine congrArg Host.Outcome.next (whenInitialized_setInputs ?_)
    dsimp only [latchAnchor, latchSize, latchSource, latchClip]
    split
    · rfl
    · split
      · rfl
      · split
        · rfl
        · split <;> rfl

theorem submit_keeps_inputs {i : Instr} {s t : State} (h : submit i s = .next t) : t.inputs = s.inputs := by
  have hsame : Host.Outcome.next t = Host.Outcome.next { t with inputs := s.inputs } :=
    h.symm.trans (submit_setInputs h s.inputs)
  have hstate : t = { t with inputs := s.inputs } := Host.Outcome.next.inj hsame
  rw [hstate]

/-- The first step of a submitted request. -/
theorem step_submitted {i : Instr} {e : Encoded} {s t : State} {is : List Input} (hd : decode e = .ok i)
    (hb : s.busy = false) (h : submit i { s with inputs := is } = .next t) (js : List Input) :
    step { s with inputs := .submit e :: js } = .next { t with inputs := js } := by
  have hstep : step { s with inputs := .submit e :: js } = submit i { s with inputs := js } := by
    simp [step, stepSubmit, hb, hd]
  rw [hstep]
  exact submit_setInputs h js

end Sys2Proof.Machine
end

section
/-! A call is a run of the block's own moves (log 1): the transport moves as far as the schedule has it before each test of a
wait, the failed tests are the sequencer's moves, and so is every entry. -/

namespace Sys2Proof.Machine

/-- The block of a call's run as its moves have it: `l` is what the sequencer has left, `w` tests of its wait have failed, and
the schedule `k` is not looked at. -/
def State.standing (l : List Atom) (w : Nat) (k : List Nat) (s : State) : State :=
  s.withControl { s.seq with todo := l } w s.inputs k

variable {k : List Nat} {m : List Atom}

theorem txMove_standing (l : List Atom) (w : Nat) (s : State) :
    txMove (s.standing l w k) = (txMove s).standing l w k := by
  have hframe := txMove_frame s
  rw [State.standing, State.standing, hframe.seq_eq, hframe.inputs_eq]
  exact txMove_withControl _ w _ k s

theorem Atom.effect_standing (a : Atom) (l : List Atom) (w : Nat) (s : State) :
    a.effect (s.standing l w k) = (a.effect s).standing l w k := by
  cases a <;> rfl

-- ## Waits

theorem txMoves_reaches (l : List Atom) (w : Nat) : ∀ (n : Nat) (s : State),
    Reaches (s.standing l w k) ((txMoves n s).standing l w k)
  | 0, _ => .refl
  | n + 1, s => .head (.inl (txMove_standing l w s).symm) (txMoves_reaches l w n (txMove s))

/-- The schedule says how far the transport moves; a script can ask for the same moves. -/
theorem interleave_reaches (l : List Atom) (w : Nat) (s : State) :
    Reaches (s.standing l w k) ((interleave s).standing l w k) := by
  unfold interleave
  split
  · exact .refl
  · rename_i n ks _
    exact txMoves_reaches l w n { s with sched := ks }

/-- What is left of a wait's budget `n` after `w` failed tests. -/
def Budget (s : State) (w n : Nat) : Prop :=
  s.cfg.busTimeout = none ∧ s.bus.work ≤ n ∨ s.cfg.busTimeout = some (w + n)

theorem budget_waitBudget (s : State) : Budget s 0 (waitBudget s) := by
  unfold Budget waitBudget
  cases s.cfg.busTimeout with
  | none => exact .inl ⟨rfl, Nat.le_refl _⟩
  | some n => exact .inr (congrArg some (Nat.zero_add n).symm)

theorem Budget.interleave {s : State} {w n : Nat} (h : Budget s w n) : Budget (interleave s) w n := by
  rcases h with ⟨hto, hwork⟩ | hto
  · exact .inl ⟨by rw [interleave_cfg]; exact hto, Nat.le_trans (interleave_work_le s) hwork⟩
  · exact .inr (by rw [interleave_cfg]; exact hto)

/-- A failed test uses up one of the budget: without a bound the transport has moved, with one the test is counted. -/
theorem Budget.fairMove {s : State} {w n : Nat} (h : Budget s w (n + 1)) : Budget (fairMove s) (w + 1) n := by
  unfold Budget Machine.fairMove
  rcases h with ⟨hto, hwork⟩ | hto
  · rw [hto]
    refine .inl ⟨by rw [(txMove_frame s).cfg_eq, hto], ?_⟩
    simp only [txMove_work]
    omega
  · rw [hto]
    exact .inr (by rw [hto]; congr 1; omega)

/-- A failed test of the wait with budget left is counted. -/
theorem Budget.failedTest {s : State} {w n : Nat} (h : Budget s w (n + 1)) (l : List Atom) :
    failedTest (s.standing l w k) = s.standing l (w + 1) k := by
  have hcfg : (s.standing l w k).cfg = s.cfg := rfl
  rcases h with ⟨hto, -⟩ | hto
  · rw [Machine.failedTest, hcfg, hto]
    rfl
  · rw [failedTest_bounded (hcfg ▸ hto), if_neg (by show ¬ w + (n + 1) ≤ w; omega)]
    rfl

/-- With none left it ends the request. -/
theorem Budget.failedTest_last {s : State} {w : Nat} (h : s.cfg.busTimeout = some w) (l : List Atom) :
    Machine.failedTest (s.standing l w k) = { timeOut s with sched := k } := by
  rw [failedTest_bounded (s := s.standing l w k) h, if_pos (show w ≤ (s.standing l w k).waits from Nat.le_refl w)]
  rfl

/-- What a run of entries that began at `y` is as moves: `m` is left, or the request is over. -/
def Follows (k : List Nat) (y : State) (m : List Atom) : Flow → Prop
  | .ok t => t.busy = true ∧ Reaches y (t.standing m 0 k)
  | .expired t => Reaches y { t with sched := k }

theorem Follows.head {y z : State} {f : Flow} (h : Reaches y z) (hf : Follows k z m f) : Follows k y m f := by
  cases f with
  | ok t => exact ⟨hf.1, h.trans hf.2⟩
  | expired t => exact h.trans hf

theorem Follows.andThen {y : State} {l : List Atom} {f : Flow} {g : State → Flow} (hf : Follows k y l f)
    (hg : ∀ t, f = .ok t → t.busy = true → Reaches y (t.standing l 0 k) → Follows k (t.standing l 0 k) m (g t)) :
    Follows k y m (f.andThen g) := by
  cases f with
  | ok t => exact (hg t rfl hf.1 hf.2).head hf.2
  | expired t => exact hf

/-- A wait as moves, with its entry taking effect at the end. -/
theorem await_follows {a : Atom} {c : WaitFor} (ha : a.waitsFor = some c) (hl : loopBody a = []) :
    ∀ (n : Nat) {s : State} {w : Nat}, s.busy = true → MovesOn (s.standing (a :: m) w k) → Budget s w n →
    Follows k (s.standing (a :: m) w k) m ((await c n s).andThen (fun t => .ok (a.effect t))) := by
  have hbusy : KeptByTransport (fun s => s.busy = true) :=
    ⟨fun s h => (txMove_frame s).busy_eq.trans h, fun _ _ h => h⟩
  have hready (s : State) (w : Nat) : a.ready (s.standing (a :: m) w k) = c.met s := by
    rw [Atom.ready, ha]; cases c <;> rfl
  have hmet {s : State} {w : Nat} (hb : s.busy = true) (hon : MovesOn (s.standing (a :: m) w k)) (hm : c.met s = true) :
      Follows k (s.standing (a :: m) w k) m (.ok (a.effect s)) := by
    refine ⟨(a.effect_control s).2.1.trans hb, .single (.inr ?_)⟩
    rw [hon.seqMove_ready hb rfl ((hready s w).trans hm), advance, Atom.after, hl]
    exact congrArg Host.Outcome.next (a.effect_standing m 0 s)
  have hunmet {s : State} {w : Nat} (hb : s.busy = true) (hm : c.met s = false) :
      seqMove (s.standing (a :: m) w k) = .next (failedTest (s.standing (a :: m) w k)) :=
    seqMove_unmet hb rfl ((hready s w).trans hm)
  intro n
  induction n with
  | zero =>
    intro s w hb hon hbudget
    have hgo := interleave_reaches (k := k) (a :: m) w s
    refine Follows.head hgo ?_
    rw [await]
    cases hm : c.met (interleave s) with
    | true => exact hmet (hbusy.interleave hb) (hgo.movesOn hon) hm
    | false =>
      rcases hbudget.interleave with ⟨-, hwork⟩ | hto
      · rw [met_of_work_zero (Nat.le_zero.1 hwork) c] at hm
        cases hm
      · refine Relation.ReflTransGen.single (.inr ?_)
        rw [hunmet (hbusy.interleave hb) hm, Budget.failedTest_last (w := w) hto]
  | succ n ih =>
    intro s w hb hon hbudget
    have hgo := interleave_reaches (k := k) (a :: m) w s
    refine Follows.head hgo ?_
    rw [await]
    cases hm : c.met (interleave s) with
    | true => exact hmet (hbusy.interleave hb) (hgo.movesOn hon) hm
    | false =>
      have hfail : Reaches ((interleave s).standing (a :: m) w k) ((interleave s).standing (a :: m) (w + 1) k) := by
        refine .single (.inr ?_)
        rw [hunmet (hbusy.interleave hb) hm, hbudget.interleave.failedTest]
      have hfair : Reaches ((interleave s).standing (a :: m) (w + 1) k)
          ((fairMove (interleave s)).standing (a :: m) (w + 1) k) := by
        unfold fairMove
        split
        · exact txMoves_reaches (a :: m) (w + 1) 1 (interleave s)
        · exact .refl
      have hthere : Reaches _ _ := hfail.trans hfair
      exact (ih (hbusy.fairMove (hbusy.interleave hb)) (hthere.movesOn (hgo.movesOn hon))
        hbudget.interleave.fairMove).head hthere

-- ## Entries, loops and lists

theorem runEntry_follows {a : Atom} (hl : loopBody a = []) {s : State} {w : Nat} (hb : s.busy = true)
    (hon : MovesOn (s.standing (a :: m) w k)) (hw : w = 0 ∨ a.waitsFor = none) :
    Follows k (s.standing (a :: m) w k) m (runEntry a s) := by
  unfold runEntry
  cases ha : a.waitsFor with
  | none =>
    refine ⟨(a.effect_control s).2.1.trans hb, .single (.inr ?_)⟩
    rw [hon.seqMove_ready hb rfl (by simp [Atom.ready, ha]), advance, Atom.after, hl]
    exact congrArg Host.Outcome.next (a.effect_standing m 0 s)
  | some c =>
    obtain rfl : w = 0 := hw.resolve_right (by simp [ha])
    exact await_follows ha hl _ hb hon (budget_waitBudget s)

theorem runEntries_follows : ∀ (l : List Atom), (∀ a ∈ l, loopBody a = []) → ∀ {s : State}, s.busy = true →
    MovesOn (s.standing (l ++ m) 0 k) → Follows k (s.standing (l ++ m) 0 k) m (runEntries l s)
  | [], _, _, hb, _ => ⟨hb, .refl⟩
  | a :: l, hl, s, hb, hon => by
    obtain ⟨ha, hrest⟩ := List.forall_mem_cons.1 hl
    exact (runEntry_follows ha hb hon (.inl rfl)).andThen
      (fun t _ htb hreach => runEntries_follows l hrest htb (hreach.movesOn hon))

/-- A loop's body: two bytes and the step to the next pixel. -/
theorem loopBody_eq (a : Atom) : loopBody a = [] ∨ ∃ x y, loopBody a = [.send x, .send y, .nextPixel] := by
  rcases loopBody_cases a with h | ⟨-, h⟩ | ⟨-, h⟩
  · exact .inl h
  · exact .inr ⟨_, _, h⟩
  · exact .inr ⟨_, _, h⟩

theorem runEntry_send_regs {x : ByteSrc} {s t : State} (h : runEntry (.send x) s = .ok t) : t.regs = s.regs := by
  have hkeep : KeptByTransport (fun u => u.regs = s.regs) :=
    ⟨fun u hu => (txMove_frame u).regs_eq.trans hu, fun _ _ hu => hu⟩
  rcases runEntry_ends hkeep (a := .send x) (fun u _ hu => hu) rfl with ⟨u, hu, hregs⟩ | ⟨u, hu, -⟩
  · rw [h] at hu
    cases hu
    exact hregs
  · rw [h] at hu
    cases hu

theorem runEntries_body_regs {x y : ByteSrc} {s t : State} (h : runEntries [.send x, .send y, .nextPixel] s = .ok t) :
    t.regs = { s.regs with idx := s.regs.idx + 1 } := by
  simp only [runEntries] at h
  cases hx : runEntry (.send x) s with
  | expired u => rw [hx] at h; cases h
  | ok u =>
    rw [hx] at h
    cases hy : runEntry (.send y) u with
    | expired v => simp only [Flow.andThen, hy] at h; cases h
    | ok v =>
      simp only [Flow.andThen, hy] at h
      cases h
      rw [← runEntry_send_regs hx, ← runEntry_send_regs hy]
      rfl

/-- A round of the loop leaves one round less. -/
theorem loopRounds_next {s t : State} {n : Nat} (hn : loopRounds s = n + 1)
    (h : t.regs = { s.regs with idx := s.regs.idx + 1 }) : loopRounds t = n := by
  have hlt := s.regs.count.isLt
  have hone : (1 : U32).toNat = 1 := rfl
  unfold loopRounds at hn ⊢
  rw [h]
  show s.regs.count.toNat - (s.regs.idx + 1).toNat = n
  rw [BitVec.toNat_add_of_lt (by omega)]
  omega

theorem runRounds_follows {a b : Atom} {body : List Atom} (hl : loopBody a = b :: body) : ∀ (n : Nat) {s : State} {w : Nat},
    loopRounds s = n → s.busy = true → MovesOn (s.standing (a :: m) w k) →
      Follows k (s.standing (a :: m) w k) m (runRounds (b :: body) n s) := by
  have hwaits : a.waitsFor = none := by
    rcases loopBody_cases a with h | ⟨rfl, -⟩ | ⟨rfl, -⟩
    · rw [h] at hl; cases hl
    · rfl
    · rfl
  have henter {s : State} {w : Nat} (hb : s.busy = true) (hon : MovesOn (s.standing (a :: m) w k)) :
      Reaches (s.standing (a :: m) w k)
        (s.standing (if s.regs.idx.toNat < s.regs.count.toNat then (b :: body) ++ a :: m else m) 0 k) := by
    refine .single (.inr ?_)
    rw [hon.seqMove_ready hb rfl (by simp [Atom.ready, hwaits]), advance, Atom.after, hl, effect_loop hl]
    rfl
  obtain ⟨x, y, hbody⟩ := (loopBody_eq a).resolve_left (by simp [hl])
  rw [hl] at hbody
  intro n
  induction n with
  | zero =>
    intro s w hn hb hon
    have h := henter hb hon
    rw [if_neg (by unfold loopRounds at hn; omega)] at h
    exact ⟨hb, h⟩
  | succ n ih =>
    intro s w hn hb hon
    have h := henter hb hon
    rw [if_pos (by unfold loopRounds at hn; omega)] at h
    refine Follows.head h (Follows.andThen (l := a :: m)
      (runEntries_follows (b :: body) ?_ hb (h.movesOn hon)) (fun t ht htb hreach => ?_))
    · rw [hbody]
      simp [loopBody]
    · rw [hbody] at ht
      exact ih (loopRounds_next hn (runEntries_body_regs ht)) htb (hreach.movesOn (h.movesOn hon))

theorem runAtom_follows {a : Atom} {s : State} {w : Nat} (hb : s.busy = true) (hon : MovesOn (s.standing (a :: m) w k))
    (hw : w = 0 ∨ a.waitsFor = none) : Follows k (s.standing (a :: m) w k) m (runAtom a s) := by
  unfold runAtom
  split
  · rename_i hl
    exact runEntry_follows hl hb hon hw
  · rename_i hl
    exact runRounds_follows hl _ rfl hb hon

theorem runList_follows : ∀ (l : List Atom) {s : State}, s.busy = true → MovesOn (s.standing l 0 k) →
    Follows k (s.standing l 0 k) [] (runList l s)
  | [], _, hb, _ => ⟨hb, .refl⟩
  | _ :: l, _, hb, hon =>
    (runAtom_follows hb hon (.inl rfl)).andThen
      (fun _ _ htb hreach => runList_follows l htb (hreach.movesOn hon))

/-- A list that begins with no wait, whatever count of failed tests the sequencer had before. -/
theorem runList_follows_opening {a : Atom} {l : List Atom} (ha : a.waitsFor = none) {s : State} {w : Nat}
    (hb : s.busy = true) (hon : MovesOn (s.standing (a :: l) w k)) :
    Follows k (s.standing (a :: l) w k) [] (runList (a :: l) s) :=
  (runAtom_follows hb hon (.inr ha)).andThen (fun _ _ htb hreach => runList_follows l htb (hreach.movesOn hon))

theorem HostOp.list_opens (c : Config) (op : HostOp) : ∃ a l, op.list c = a :: l ∧ a.waitsFor = none := by
  cases op <;> exact ⟨_, _, rfl, rfl⟩

/-- An accepted request's run to its end, as moves. -/
theorem runList_reaches {op : HostOp} {c : Config} {s : State} (hon : MovesOn (accept op (op.list c) s)) :
    Reaches (accept op (op.list c) s)
      { (runList (op.list c) (accept op (op.list c) s)).ended with sched := s.sched } := by
  obtain ⟨a, l, hlist, ha⟩ := op.list_opens c
  have hfollows : Follows s.sched (accept op (op.list c) s) [] (runList (op.list c) (accept op (op.list c) s)) := by
    rw [hlist] at hon ⊢
    exact runList_follows_opening (s := accept op (a :: l) s) (w := s.waits) ha rfl hon
  cases hrun : runList (op.list c) (accept op (op.list c) s) with
  | expired t => rw [hrun] at hfollows; exact hfollows
  | ok t =>
    rw [hrun] at hfollows
    obtain ⟨hb, hreach⟩ := hfollows
    exact hreach.tail (.inr (seqMove_of_done hb rfl))

/-- A call's answer is reached by moves from where its request is accepted. -/
theorem exec_reaches {i : Instr} {s t : State} (hi : i.layer = .host) (hb : s.bus = Transport.empty)
    (he : exec i s = .next t) : ∃ y, submit i s = .next y ∧ MovesOn y ∧ Reaches y { t with sched := s.sched } := by
  obtain ⟨y, hy, hon⟩ := submit_movesOn hi hb
  refine ⟨y, hy, hon, ?_⟩
  rcases exec_host hi he with ⟨code, r, hsubmit, rfl⟩ | ⟨op, r, -, -, hsubmit, rfl⟩
  · rw [hy] at hsubmit
    cases hsubmit
    exact .refl
  · rw [hy] at hsubmit
    cases hsubmit
    exact runList_reaches hon

/-- Settles O58: the script asks for the moves the call makes. -/
theorem callIsARunOfMoves : Obligations.CallIsARunOfMoves := by
  intro s t i e rest hi hd hb hbus he
  obtain ⟨y, hy, -, hreach⟩ := exec_reaches (s := { s with inputs := rest }) hi hbus he
  obtain ⟨script, hall, hrun⟩ := hreach.script
  refine ⟨script, hall, ?_⟩
  rw [submit_keeps_inputs hy] at hrun
  rw [steps, List.cons_append, step_submitted hd hb hy]
  exact hrun

end Sys2Proof.Machine
end

section
/-! Every interleaving of a request's moves has one end (00_scope.md R11, 20_memory.md R70): whatever the order, what is on the
wire with what is inside the transport is what the list sends, and the list gets shorter with every entry. -/

namespace Sys2Proof.Machine

-- ## Where a request's moves lead

/-- The block with its sequencer put aside. -/
def State.settled (s : State) : State := { s with seq := Seq.idle, waits := 0 }

theorem settled_effect (a : Atom) (s : State) : (a.effect s).settled = a.effect s.settled := by cases a <;> rfl

theorem settled_txMove (s : State) : (txMove s).settled = txMove s.settled := by
  have hframe := txMove_frame s
  have hself : (txMove s).settled = (txMove s).withControl Seq.idle 0 s.inputs s.sched := by
    rw [← hframe.inputs_eq, ← hframe.sched_eq]
    rfl
  exact hself.trans (txMove_withControl Seq.idle 0 s.inputs s.sched s).symm

/-- How many entries a list's moves take, a pixel loop with all its rounds, and the end of the list. -/
def entriesLeft : List Atom → State → Nat
  | [], _ => 1
  | a :: l, u => (if loopBody a = [] then 1 else 4 * loopRounds u + 1) + entriesLeft l (idealAtom a u)

/-- The request in progress has `n` entries to go, and with its bytes sent at once they lead to `F`. -/
structure TowardFrom (F : State) (n : Nat) (s u : State) (q : Bool) : Prop where
  busy_eq : s.busy = true
  unbounded : s.cfg.busTimeout = none
  sim : Sim s.settled u
  idle : q = true → s.bus = Transport.empty
  disciplined_todo : disciplined s.seq.todo q = true
  idleAtEnd_todo : idleAtEnd s.seq.todo q = true
  leads : idealList s.seq.todo u = F
  left : entriesLeft s.seq.todo u = n

def Toward (F : State) (n : Nat) (s : State) : Prop := ∃ u q, TowardFrom F n s u q

/-- The request has ended where its list leads. -/
structure Arrived (F s : State) : Prop where
  wire_eq : wire s = wire F
  calls_eq : calls s = calls F
  regs_eq : s.regs = F.regs
  status_eq : s.status = STATUS_OK
  panel_eq : s.panel = F.panel
  initState_eq : s.initState = F.initState
  bus_eq : s.bus = Transport.empty
  fault_eq : s.fault = F.fault
  busy_eq : s.busy = false
  csN_eq : s.lines.csN = F.lines.csN
  dc_eq : s.lines.dc = F.lines.dc
  rstN_eq : s.lines.rstN = F.lines.rstN

theorem Toward.txMove {F s : State} {n : Nat} (h : Toward F n s) : Toward F n (txMove s) := by
  obtain ⟨u, q, h⟩ := h
  have hframe := txMove_frame s
  refine ⟨u, q, hframe.busy_eq.trans h.busy_eq, by rw [hframe.cfg_eq]; exact h.unbounded, ?_, fun hq => ?_, ?_, ?_, ?_, ?_⟩
  · rw [settled_txMove]
    exact (Sim.kept u).move _ h.sim
  · simp [Machine.txMove, h.idle hq, Transport.empty]
  all_goals rw [hframe.seq_eq]
  · exact h.disciplined_todo
  · exact h.idleAtEnd_todo
  · exact h.leads
  · exact h.left

theorem Toward.failedTest {F s : State} {n : Nat} (h : Toward F n s) : Toward F n (failedTest s) := by
  obtain ⟨u, q, h⟩ := h
  have hfail : Machine.failedTest s = { s with waits := s.waits + 1 } := by simp [Machine.failedTest, h.unbounded]
  rw [hfail]
  exact ⟨u, q, h.busy_eq, h.unbounded, h.sim, h.idle, h.disciplined_todo, h.idleAtEnd_todo, h.leads, h.left⟩

theorem Toward.complete {F s : State} {n : Nat} (h : Toward F n s) (hl : s.seq.todo = []) : Arrived F (complete s) := by
  obtain ⟨u, q, h⟩ := h
  have hq := h.idleAtEnd_todo
  have hleads := h.leads
  rw [hl] at hq hleads
  subst hleads
  have hbus := h.idle hq
  have hin : inflight s.settled = [] := inflight_empty hbus
  have hwire := h.sim.wire_eq
  have hpanel := h.sim.panel_eq
  rw [hin, List.append_nil] at hwire
  rw [hin, Panel.feed_nil] at hpanel
  exact
    { wire_eq := hwire, calls_eq := h.sim.calls_eq, regs_eq := h.sim.regs_eq, status_eq := rfl, panel_eq := hpanel,
      initState_eq := h.sim.initState_eq, bus_eq := hbus, fault_eq := h.sim.fault_eq, busy_eq := rfl,
      csN_eq := h.sim.csN_eq, dc_eq := h.sim.dc_eq, rstN_eq := h.sim.rstN_eq }

/-- An entry whose wait is over does what it does with its bytes sent at once. -/
theorem Sim.entry {s u : State} (h : Sim s u) {a : Atom} (hr : a.ready s = true)
    (hi : a.needsIdle = true → s.bus = Transport.empty) : Sim (a.effect s) (idealEntry a u) := by
  cases a with
  | send x =>
    have henq := h.enqueue (met_ready.1 hr) (x.read u.regs)
    rw [Atom.effect, idealEntry, h.regs_eq]
    exact henq
  | _ => exact h.effect _ nofun hi

theorem Atom.bus_idleAfter {a : Atom} {s : State} {q : Bool} (hr : a.ready s = true)
    (hq : q = true → s.bus = Transport.empty) (h : a.idleAfter q = true) : (a.effect s).bus = Transport.empty := by
  cases a with
  | send x => cases h
  | fillLoop => cases h
  | bufLoop => cases h
  | awaitIdle => exact met_idle.1 hr
  | _ => exact hq h

/-- An entry that is no loop. -/
theorem TowardFrom.entry {F s u : State} {n : Nat} {q : Bool} (h : TowardFrom F n s u q) {a : Atom} {l : List Atom}
    (hl : s.seq.todo = a :: l) (hr : a.ready s = true) (hbody : loopBody a = []) :
    ∃ n', n = n' + 1 ∧ Toward F n' (advance a l s) := by
  have hd := h.disciplined_todo
  have hi := h.idleAtEnd_todo
  have hleads := h.leads
  have hleft := h.left
  rw [hl] at hd hi hleads hleft
  simp only [disciplined, Bool.and_eq_true] at hd
  have hideal : idealAtom a u = idealEntry a u := by simp [idealAtom, hbody]
  have hadv : advance a l s = a.effect { s with seq := { s.seq with todo := l }, waits := 0 } := by
    simp [advance, Atom.after, hbody]
  rw [idealList_cons, hideal] at hleads
  rw [entriesLeft, if_pos hbody, hideal] at hleft
  have hready : a.ready s.settled = true := by cases a <;> exact hr
  have hneeds : a.needsIdle = true → s.bus = Transport.empty := fun hn => h.idle (by simpa [hn] using hd.1)
  have hcontrol := a.effect_control { s with seq := { s.seq with todo := l }, waits := 0 }
  refine ⟨entriesLeft l (idealEntry a u), by omega, idealEntry a u, a.idleAfter q, ?_⟩
  rw [hadv]
  refine ⟨hcontrol.2.1.trans h.busy_eq, by rw [a.effect_cfg]; exact h.unbounded, ?_, ?_, ?_, ?_, ?_, ?_⟩
  · rw [settled_effect]
    exact h.sim.entry hready hneeds
  · exact Atom.bus_idleAfter (by cases a <;> exact hr) h.idle
  all_goals rw [hcontrol.2.2]
  · exact hd.2
  · exact hi
  · exact hleads

/-- The rounds of a loop, one taken in front of it. -/
theorem idealAtom_round {a : Atom} {x y : ByteSrc} (hl : loopBody a = [.send x, .send y, .nextPixel]) {u : State}
    {k : Nat} (hk : loopRounds u = k + 1) :
    loopRounds (idealEntries [.send x, .send y, .nextPixel] u) = k ∧
      idealAtom a (idealEntries [.send x, .send y, .nextPixel] u) = idealAtom a u := by
  have hnext : loopRounds (idealEntries [.send x, .send y, .nextPixel] u) = k := loopRounds_next hk rfl
  refine ⟨hnext, ?_⟩
  simp only [idealAtom, hl, hnext, hk, idealRounds]

/-- A loop with rounds to go puts its body in front of itself; the last test of the loop leaves it. -/
theorem TowardFrom.loop {F s u : State} {n : Nat} {q : Bool} (h : TowardFrom F n s u q) {a : Atom} {l : List Atom}
    (hl : s.seq.todo = a :: l) {x y : ByteSrc} (hbody : loopBody a = [.send x, .send y, .nextPixel]) :
    ∃ n', n = n' + 1 ∧ Toward F n' (advance a l s) := by
  have hd := h.disciplined_todo
  have hi := h.idleAtEnd_todo
  have hleads := h.leads
  have hleft := h.left
  rw [hl] at hd hi hleads hleft
  have hidle (q : Bool) : a.idleAfter q = false := by
    rcases loopBody_cases a with hn | ⟨rfl, -⟩ | ⟨rfl, -⟩
    · rw [hn] at hbody; cases hbody
    · rfl
    · rfl
  have hrounds : loopRounds s = loopRounds u := by
    have hregs : s.regs = u.regs := h.sim.regs_eq
    simp only [loopRounds, hregs]
  rw [entriesLeft, if_neg (by simp [hbody])] at hleft
  have hadv : advance a l s = { s with seq := { s.seq with todo := a.after l s }, waits := 0 } := effect_loop hbody _
  rw [hadv, Atom.after, hbody]
  rw [idealList_cons] at hleads
  cases hk : loopRounds u with
  | zero =>
    rw [hk] at hrounds hleft
    have hstay : idealAtom a u = u := by simp [idealAtom, hbody, hk, idealRounds]
    rw [hstay] at hleads hleft
    have hdone : ¬ s.regs.idx.toNat < s.regs.count.toNat := by unfold loopRounds at hrounds; omega
    simp only [if_neg hdone]
    simp only [disciplined, Bool.and_eq_true, hidle] at hd
    refine ⟨entriesLeft l u, by omega, u, false, h.busy_eq, h.unbounded, h.sim, nofun, hd.2, ?_, hleads, rfl⟩
    simpa [idleAtEnd, hidle] using hi
  | succ k =>
    rw [hk] at hrounds hleft
    obtain ⟨hnext, hsame⟩ := idealAtom_round hbody hk
    have hmore : s.regs.idx.toNat < s.regs.count.toNat := by unfold loopRounds at hrounds; omega
    simp only [if_pos hmore]
    have hbodyLeft : entriesLeft ([.send x, .send y, .nextPixel] ++ a :: l) u =
        3 + entriesLeft (a :: l) (idealEntries [.send x, .send y, .nextPixel] u) := by
      show 1 + (1 + (1 + entriesLeft (a :: l) (idealEntries [.send x, .send y, .nextPixel] u))) = _
      omega
    rw [entriesLeft, if_neg (by simp [hbody]), hnext, hsame] at hbodyLeft
    refine ⟨4 * k + 4 + entriesLeft l (idealAtom a u), by omega, u, false, h.busy_eq, h.unbounded, h.sim, nofun,
      disciplined_loop hbody hd, ?_, ?_, ?_⟩
    · show idleAtEnd ([.send x, .send y, .nextPixel] ++ a :: l) false = true
      rw [idleAtEnd_append]
      simpa [idleAtEnd, hidle] using hi
    · show idealList (a :: l) (idealEntries [.send x, .send y, .nextPixel] u) = F
      rw [idealList_cons, hsame]
      exact hleads
    · exact hbodyLeft.trans (by omega)

theorem Toward.advance {F s : State} {n : Nat} (h : Toward F n s) {a : Atom} {l : List Atom} (hl : s.seq.todo = a :: l)
    (hr : a.ready s = true) : ∃ n', n = n' + 1 ∧ Toward F n' (advance a l s) := by
  obtain ⟨u, q, h⟩ := h
  rcases loopBody_eq a with hbody | ⟨x, y, hbody⟩
  · exact h.entry hl hr hbody
  · exact h.loop hl hbody

/-- With no request in progress and the transport idle nothing moves. -/
theorem Moves.eq_of_idle {s t : State} (h : Moves s t) (hb : s.busy = false) (hbus : s.bus = Transport.empty) : t = s := by
  rcases h with rfl | h
  · simp [txMove, hbus, Transport.empty]
  · rw [seqMove_of_not_busy hb] at h
    exact (Host.Outcome.next.inj h).symm

theorem Reaches.eq_of_idle {s t : State} (h : Reaches s t) (hb : s.busy = false) (hbus : s.bus = Transport.empty) : t = s := by
  induction h with
  | refl => rfl
  | tail _ hmove ih =>
    subst ih
    exact hmove.eq_of_idle hb hbus

/-- Every order of the moves leads to the same end. -/
theorem Toward.reaches {F s t : State} {n : Nat} (h : Toward F n s) (hreach : Reaches s t) :
    (∃ n', Toward F n' t) ∨ Arrived F t := by
  induction hreach with
  | refl => exact .inl ⟨n, h⟩
  | tail _ hmove ih =>
    rcases ih with ⟨n', ih⟩ | ih
    · rcases hmove with rfl | hseq
      · exact .inl ⟨n', ih.txMove⟩
      · rcases seqMove_cases hseq with ⟨hb, -⟩ | ⟨-, hl, rfl⟩ | ⟨a, l, -, hl, ⟨-, rfl⟩ | ⟨hr, -, rfl⟩⟩
        · obtain ⟨_, _, h⟩ := ih
          rw [h.busy_eq] at hb
          cases hb
        · exact .inr (ih.complete hl)
        · exact .inl ⟨n', ih.failedTest⟩
        · obtain ⟨n'', -, h⟩ := ih.advance hl hr
          exact .inl ⟨n'', h⟩
    · rw [hmove.eq_of_idle ih.busy_eq ih.bus_eq]
      exact .inr ih

theorem Toward.arrived {F s t : State} {n : Nat} (h : Toward F n s) (hreach : Reaches s t) (hb : t.busy = false) :
    Arrived F t := by
  rcases h.reaches hreach with ⟨_, _, _, h⟩ | h
  · rw [h.busy_eq] at hb
    cases hb
  · exact h

/-- An accepted request is on its way. -/
theorem accept_toward {c : Config} {op : HostOp} {s : State} (hto : s.cfg.busTimeout = none)
    (hbus : s.bus = Transport.empty) : ∃ F n, Toward F n (accept op (op.list c) s) := by
  obtain ⟨hd, hi⟩ := op.disciplined_list c
  exact ⟨_, _, (accept op (op.list c) s).settled, true, rfl, hto, Sim.refl hbus, fun _ => hbus, hd, hi, rfl, rfl⟩

theorem Arrived.of_sched {F s : State} {k : List Nat} (h : Arrived F { s with sched := k }) : Arrived F s :=
  { wire_eq := h.wire_eq, calls_eq := h.calls_eq, regs_eq := h.regs_eq, status_eq := h.status_eq, panel_eq := h.panel_eq,
    initState_eq := h.initState_eq, bus_eq := h.bus_eq, fault_eq := h.fault_eq, busy_eq := h.busy_eq, csN_eq := h.csN_eq,
    dc_eq := h.dc_eq, rstN_eq := h.rstN_eq }

-- ## The call and the moves

theorem exec_host_not_busy {i : Instr} {s t : State} (hi : i.layer = .host) (he : exec i s = .next t) : t.busy = false := by
  rcases exec_host hi he with ⟨code, r, -, rfl⟩ | ⟨op, r, -, -, -, rfl⟩
  · rfl
  · rcases (runList_ends (true_keptByList _) _ trivial).ended with ⟨u, -, hu, -⟩ | ⟨u, hu, -⟩ <;> rw [hu] <;> rfl

/-- A submitted request has ended at its checks, or its moves and the call's run lead to one end. -/
theorem submitted_cases {i : Instr} {s t : State} (hi : i.layer = .host) (hbus : s.bus = Transport.empty)
    (hto : s.cfg.busTimeout = none) (he : exec i s = .next t) :
    ∃ y, submit i s = .next y ∧ MovesOn y ∧ (y.busy = false ∧ y.bus = Transport.empty ∧ t = y ∨
      ∃ F n, Toward F n y ∧ Arrived F t) := by
  obtain ⟨y, hy, hon, hreach⟩ := exec_reaches hi hbus he
  refine ⟨y, hy, hon, ?_⟩
  rcases exec_host hi he with ⟨code, r, hsubmit, rfl⟩ | ⟨op, r, -, -, hsubmit, -⟩
  · rw [hy] at hsubmit
    cases hsubmit
    exact .inl ⟨rfl, hbus, rfl⟩
  · rw [hy] at hsubmit
    cases hsubmit
    obtain ⟨F, n, htoward⟩ := accept_toward (c := s.cfg) (op := op) (s := { s with regs := r }) hto hbus
    have hnot : t.busy = false := exec_host_not_busy hi he
    exact .inr ⟨F, n, htoward, (htoward.arrived hreach hnot).of_sched⟩

/-- Two ends of one list's moves are one, as far as anything outside can see. -/
theorem Arrived.trans_eq {F u t : State} (hu : Arrived F u) (ht : Arrived F t) :
    wire u = wire t ∧ calls u = calls t ∧ u.regs = t.regs ∧ u.status = t.status ∧ u.panel = t.panel ∧
      u.initState = t.initState ∧ u.bus = t.bus ∧ u.fault = t.fault ∧ u.busy = t.busy ∧ u.lines.csN = t.lines.csN ∧
      u.lines.dc = t.lines.dc ∧ u.lines.rstN = t.lines.rstN :=
  ⟨hu.wire_eq.trans ht.wire_eq.symm, hu.calls_eq.trans ht.calls_eq.symm, hu.regs_eq.trans ht.regs_eq.symm,
    hu.status_eq.trans ht.status_eq.symm, hu.panel_eq.trans ht.panel_eq.symm, hu.initState_eq.trans ht.initState_eq.symm,
    hu.bus_eq.trans ht.bus_eq.symm, hu.fault_eq.trans ht.fault_eq.symm, hu.busy_eq.trans ht.busy_eq.symm,
    hu.csN_eq.trans ht.csN_eq.symm, hu.dc_eq.trans ht.dc_eq.symm, hu.rstN_eq.trans ht.rstN_eq.symm⟩

/-- Settles O59: an entry that must not run is not reached, and with waits unbounded every order of the moves has one end,
the call's. -/
theorem interleavingDoesNotReachTheWire : Obligations.InterleavingDoesNotReachTheWire := by
  intro s i e script hi hd hb hbus hall
  obtain ⟨y, hy, hon⟩ := submit_movesOn (s := { s with inputs := [] }) hi hbus
  obtain ⟨u, hu, hreach⟩ := steps_script script hon hall
  rw [submit_keeps_inputs hy, List.append_nil] at hu
  refine ⟨u, by rw [steps, step_submitted hd hb hy]; exact hu, fun t hto he hnot => ?_⟩
  obtain ⟨y', hy', -, hcases⟩ := submitted_cases (s := { s with inputs := [] }) hi hbus hto he
  rw [hy] at hy'
  cases hy'
  rcases hcases with ⟨hyb, hybus, rfl⟩ | ⟨F, n, htoward, ht⟩
  · rw [hreach.eq_of_idle hyb hybus]
    exact ⟨rfl, rfl, rfl, rfl, rfl, rfl, rfl, rfl, rfl, rfl, rfl, rfl⟩
  · exact (htoward.arrived hreach hnot).trans_eq ht

/-- With no input the agents make the block's moves, the transport first. -/
theorem step_of_bsy {s : State} (hin : s.inputs = []) (h : bsy s = true) : step s = .next (txMove s) := by
  simp [step, hin, autoMove, h]

theorem step_of_idle {s : State} (hin : s.inputs = []) (h : bsy s = false) : step s = seqMove s := by
  simp [step, hin, autoMove, h]

theorem steps_succ_of_step {s t u : State} {n : Nat} (h : step s = .next t) (hn : steps n t = .next u) :
    steps (n + 1) s = .next u := by
  rw [steps, h]
  exact hn

/-- Left to themselves the agents bring the request to its end: the transport empties, and then an entry is taken. -/
theorem steps_arrive {F : State} : ∀ (k : Nat) {n : Nat} {s : State}, Toward F n s → MovesOn s → s.inputs = [] →
    18 * n + s.bus.work < k → ∃ j t, steps j s = .next t ∧ t.inputs = [] ∧ Arrived F t := by
  intro k
  induction k with
  | zero => exact fun _ _ _ hk => absurd hk (Nat.not_lt_zero _)
  | succ k ih =>
    intro n s h hon hin hk
    cases hbsy : bsy s with
    | true =>
      have hwork : s.bus.work ≠ 0 := fun hz => by
        rw [bsy_eq_false.2 (work_zero.1 hz)] at hbsy
        cases hbsy
      obtain ⟨j, t, ht, hdone⟩ := ih h.txMove (txMove_movesOn hon) ((txMove_frame s).inputs_eq.trans hin)
        (by rw [txMove_work]; omega)
      exact ⟨j + 1, t, steps_succ_of_step (step_of_bsy hin hbsy) ht, hdone⟩
    | false =>
      have hbus := bsy_eq_false.1 hbsy
      have hbusy : s.busy = true := by
        obtain ⟨_, _, h⟩ := h
        exact h.busy_eq
      cases hl : s.seq.todo with
      | nil =>
        have hstep := (step_of_idle hin hbsy).trans (seqMove_of_done hbusy hl)
        exact ⟨1, complete s, steps_succ_of_step hstep rfl, hin, h.complete hl⟩
      | cons a l =>
        have hr : a.ready s = true := by
          cases hw : a.waitsFor with
          | none => simp [Atom.ready, hw]
          | some c => simpa [Atom.ready, hw] using met_of_work_zero (work_zero.2 hbus) c
        obtain ⟨n', rfl, hnext⟩ := h.advance hl hr
        have hmove := hon.seqMove_ready hbusy hl hr
        have hwork := Transport.work_le (advance a l s).bus
        obtain ⟨j, t, ht, hdone⟩ := ih hnext (Moves.movesOn (.inr hmove) hon) ((seqMove_keeps_inputs hmove).trans hin)
          (by omega)
        exact ⟨j + 1, t, steps_succ_of_step ((step_of_idle hin hbsy).trans hmove) ht, hdone⟩

/-- Settles O60: with the transport emptied before every entry no test fails, and every step leaves less to do. -/
theorem submittedRequestEndsByItself : Obligations.SubmittedRequestEndsByItself := by
  rintro s t i e hi hd ⟨hb, hbus, hto⟩ he
  obtain ⟨y, hy, hon, hcases⟩ := submitted_cases (s := { s with inputs := [] }) hi hbus hto he
  have hin : y.inputs = [] := submit_keeps_inputs hy
  have hstep : step { s with inputs := [.submit e] } = .next y := by
    rw [step_submitted hd hb hy, ← hin]
  rcases hcases with ⟨hyb, -, rfl⟩ | ⟨F, n, htoward, ht⟩
  · exact ⟨1, t, steps_succ_of_step hstep rfl, hin, hyb, rfl, rfl⟩
  · obtain ⟨j, u, hu, huin, harrived⟩ := steps_arrive _ htoward hon hin (Nat.lt_succ_self _)
    exact ⟨j + 1, u, steps_succ_of_step hstep hu, huin, harrived.busy_eq, harrived.wire_eq.trans ht.wire_eq.symm,
      harrived.status_eq.trans ht.status_eq.symm⟩

end Sys2Proof.Machine
end
